-- ==== Sys2Proof/Word.lean ====
section
/-! DEFINITION. The word types of the block: the 68-bit Value (00_scope.md R5, 40_value_bcd.md R100), the
nybble and the byte (20_memory.md R50, R56), the command word (30_encoding.md R70) and the binary64 pattern of
ports DBL_IN and DBL_OUT (10_state.md R38, R39). -/

namespace Sys2Proof

/-- A Value: a natural below 2^68 (40_value_bcd.md R100). -/
abbrev Value := BitVec 68

/-- The unit of the arena (20_memory.md R50). -/
abbrev Nybble := BitVec 4

/-- A program byte, two nybbles (20_memory.md R56). -/
abbrev Byte := BitVec 8

/-- A command word (30_encoding.md R70). -/
abbrev CmdWord := BitVec 32

/-- An IEEE 754 binary64 pattern (10_state.md R38). -/
abbrev Double := BitVec 64

/-- A stored opcode, 0..0x1FF as a field; 0..0x1FE as an opcode (30_encoding.md R71, R75). -/
abbrev Opcode := BitVec 9

/-- A label number, 0..15 (44_control_flow.md R264). -/
abbrev Label := BitVec 4

/-- A character string of the persisted image (70_reset_and_hazards.md R333), as its list of characters. -/
abbrev Text := List Char

end Sys2Proof
end

