-- ==== Sys2Proof/Config.lean ====
section
/-! DEFINITION. What an implementation fixes: the constants of 00_scope.md R5, the parameters of R6 with their
defaults, and the free values of the model (constants with no body, of which nothing can be proved). -/

namespace Sys2Proof

/-- `ARENA`, the number of nybbles of the arena (00_scope.md R5). -/
abbrev arenaSize : Nat := 406

/-- The most lines a program can hold (00_scope.md R7). -/
abbrev maxLines : Nat := 203

/-- The two values of `SUB_CARRY` (00_scope.md R6, 41_signmode.md R153). -/
inductive SubCarry where
  /-- C is the carry of the composed addition. -/
  | adder
  /-- C is the unsigned borrow. -/
  | borrow
deriving DecidableEq, Repr

/-- The classes of stored opcodes (30_encoding.md R77). -/
inductive OpClass where
  | label (n : Label)
  | goto (n : Label)
  | gosub (n : Label)
  | gotoI
  | gosubI
  | rtn
  | other
deriving DecidableEq, Repr, Inhabited

/-- Which function a function-valued parameter of R6 is: the one the spec's own vectors use, or any other one,
numbered so that the choice is plain data. `other k` stands for the `k`-th member of a family of functions
of which nothing is known (DESIGN CHOICE, safe: notes/assumptions/2.md). -/
inductive Choice where
  | standard
  | other (k : Nat)
deriving DecidableEq, Repr

/-- The parameters of the block (00_scope.md R6, 10_state.md R40). -/
structure Params where
  /-- `CAP`, the return-stack capacity (R31, decision D36). -/
  cap : Nat
  /-- `OPCODE_MAP` (30_encoding.md R77, decision D37). -/
  opcodeMap : Choice
  /-- `SUB_CARRY` (41_signmode.md R153, decision D14). -/
  subCarry : SubCarry
  /-- `FROM_DOUBLE_ROUND` (40_value_bcd.md R110, decision D7). -/
  fromDoubleRound : Choice
  /-- `TO_DOUBLE` (40_value_bcd.md R109, decision D7). -/
  toDouble : Choice
  /-- `FLOAT_POS_INF`, a 56-bit pattern (40_value_bcd.md R107, decision D6). -/
  floatPosInf : BitVec 56
  /-- `FLOAT_NEG_INF`, a 56-bit pattern (40_value_bcd.md R107, decision D6). -/
  floatNegInf : BitVec 56
  /-- `MATRIX_DESC`, as the list of the Values it holds of (40_value_bcd.md R108, decision D51). -/
  matrixDesc : List Value
  /-- `NBITS`, the width bound of port N (41_signmode.md R145, decision D52). -/
  nbits : Nat
  /-- `IADDR_LIMIT` (42_registers.md R207, decision D25). -/
  iaddrLimit : Nat
deriving DecidableEq, Repr

/-- The defaults of 00_scope.md R6, 40_value_bcd.md R107 and decision D52. -/
def Params.default : Params where
  cap := 4
  opcodeMap := .standard
  subCarry := .adder
  fromDoubleRound := .standard
  toDouble := .standard
  floatPosInf := 0x09999999999099
  floatNegInf := 0x99999999999099
  matrixDesc := []
  nbits := 136
  iaddrLimit := 2 ^ 31

/-- An arbitrary `OPCODE_MAP` (notes/assumptions/2.md). -/
opaque Config.opcodeMap : Nat → Opcode → OpClass

/-- An arbitrary `FROM_DOUBLE_ROUND`: for a finite non-zero double, a mantissa 10^9 + m with m < 9·10^9, which
is the range R110 gives, and a decimal exponent (notes/assumptions/2.md). -/
opaque Config.fromDoubleRound : Nat → Double → Fin 9000000000 × Int

/-- An arbitrary `TO_DOUBLE` (notes/assumptions/2.md). -/
opaque Config.toDouble : Nat → Rat → Double

/-- Free value: chooses the line INSERT and DELETE take the cursor to be on where it is past the last line and `addr` of
43_program_memory.md R231 is not defined for it (notes/assumptions/9.md). -/
opaque Config.staleLine : Nat → Nat

/-- Free value: whether DELETE reads a width of 4, and not 2, where the byte that says so would stand past the arena
(notes/assumptions/9.md). -/
opaque Config.staleWidth : Nat → Bool

end Sys2Proof
end

