-- ==== Sys2Proof/Syntax.lean ====
section
/-! DEFINITION. The instructions: one constructor for each row of spec/opcode_table.json, the 43 command words
of 30_encoding.md R72 and the 8 stored forms of R75 to R78. -/

namespace Sys2Proof

/-- The sign modes (10_state.md R21), in the order of their codes 0 to 3. -/
inductive Mode where
  | uns
  | ones
  | twos
  | float
deriving DecidableEq, Repr

/-- The flag a command selects: field 0 is C, 1 is G (30_encoding.md R71). -/
inductive Flag where
  | c
  | g
deriving DecidableEq, Repr

/-- The instructions. -/
inductive Instr where
  -- 41_signmode.md
  | add
  | sub
  | neg
  | cmp
  | inc
  | dec
  | isz
  | store
  | toint
  | trunc
  | setws (w : BitVec 7)
  | setmode (m : Mode)
  | wflag (f : Flag) (v : Bool)
  -- 44_control_flow.md R263
  | skipflag (f : Flag)
  -- 40_value_bcd.md
  | fenc
  | fdec
  | fexp
  | fchk
  -- 42_registers.md; the I forms take the index from the index register (R203)
  | rreg (idx : BitVec 9)
  | rregI
  | wreg (idx : BitVec 9)
  | wregI
  | ri
  | wi
  | clrreg
  | iszi
  | dszi
  | iszind
  | dszind
  -- 43_program_memory.md
  | preset
  | insert (opc : Opcode)
  | delete
  | setline (n : BitVec 8)
  | readline (n : BitVec 8)
  -- 44_control_flow.md; the I forms take the label from the index register (R265)
  | step
  | skipif (b : Bool)
  | goto (lbl : Label)
  | gotoI
  | gosub (lbl : Label)
  | gosubI
  | rtn
  | run
  | runstep
  -- stored lines (30_encoding.md R75 to R78), executed by RUNSTEP (44_control_flow.md R272)
  | lblN (n : Label)
  | gtoN (n : Label)
  | gsbN (n : Label)
  | rtnStored
  | gtoStoredI
  | gsbStoredI
  | opPM1 (o : Byte)
  | opPM2 (o : Byte)
deriving DecidableEq, Repr

end Sys2Proof
end

