-- ==== Sys2Proof/WellFormed.lean ====
section
/-! DEFINITION. Which terms of Instr are instructions. The field types already hold every bound of
30_encoding.md R71; the one check left is the byte of an Other line in form PM1 (the note of row OP (PM1) of
spec/opcode_table.json). -/

namespace Sys2Proof

/-- An Other line of form PM1 holds a byte 0x33..0xFE: the lower bytes are the other stored forms of the
reference map (30_encoding.md R78), and 0xFF is the escape (R75). -/
def Instr.wf : Instr → Bool
  | .opPM1 o => 0x33 ≤ o.toNat && o.toNat ≤ 0xFE
  | .add | .sub | .neg | .cmp | .inc | .dec | .isz | .store | .toint | .trunc => true
  | .setws _ | .setmode _ | .wflag _ _ | .skipflag _ => true
  | .fenc | .fdec | .fexp | .fchk => true
  | .rreg _ | .rregI | .wreg _ | .wregI | .ri | .wi | .clrreg => true
  | .iszi | .dszi | .iszind | .dszind => true
  | .preset | .insert _ | .delete | .setline _ | .readline _ => true
  | .step | .skipif _ | .goto _ | .gotoI | .gosub _ | .gosubI | .rtn | .run | .runstep => true
  | .lblN _ | .gtoN _ | .gsbN _ | .rtnStored | .gtoStoredI | .gsbStoredI | .opPM2 _ => true

end Sys2Proof
end

