-- ==== Sys2Proof/Decode.lean ====
section
/-! DEFINITION. The decoder, total on every command word and every list of line bytes, and after it the encoder
(30_encoding.md R70 to R78). Fields are read from the word as a number: bits [31:26] are `w / 2^26`, bits [25:0]
are `w % 2^26`, and "bits [25:k] are zero" is "the operand field is below 2^k". -/

namespace Sys2Proof

/-- Why a word or a line is no instruction (30_encoding.md R73; the last two are lists of bytes that hold no
whole line, or more than one). -/
inductive DecodeReject where
  /-- `op` is not in the table of R72. -/
  | unassignedOp
  /-- A must-be-zero bit of the format is 1. -/
  | mustBeZero
  /-- `ind = 1` with a non-zero `idx` or `lbl`. -/
  | indField
  /-- The bytes end before the line does. -/
  | truncated
  /-- Bytes stand after the line. -/
  | trailing
deriving DecidableEq, Repr

/-- An instruction's code: a command word, or the bytes of a stored line, the first at the lower address. -/
inductive Code where
  | command (w : CmdWord)
  | line (bs : List Byte)
deriving DecidableEq, Repr

/-! ### Formats (30_encoding.md R71) -/

/-- FMT_N: no operand field. -/
def fmtN (f : Nat) (i : Instr) : Except DecodeReject Instr :=
  if f = 0 then .ok i else .error .mustBeZero

/-- A format whose one field is bits [k-1:0]: FMT_W, FMT_M, FMT_F, FMT_B, FMT_O, FMT_P. -/
def fmtField (k f : Nat) (i : Nat → Instr) : Except DecodeReject Instr :=
  if f < 2 ^ k then .ok (i f) else .error .mustBeZero

/-- FMT_R and FMT_L: `ind` = [25] and a field of `k` bits, which must be 0 when `ind = 1`. -/
def fmtInd (k f : Nat) (direct : Nat → Instr) (indirect : Instr) : Except DecodeReject Instr :=
  if f < 2 ^ 25 then
    if f < 2 ^ k then .ok (direct f) else .error .mustBeZero
  else if f % 2 ^ 25 = 0 then .ok indirect
  else if f % 2 ^ 25 < 2 ^ k then .error .indField
  else .error .mustBeZero

/-- The mode of field `m` (30_encoding.md R71). -/
def modeOfField (f : Nat) : Mode :=
  match f with
  | 0 => .uns
  | 1 => .ones
  | 2 => .twos
  | _ => .float

/-- The flag of a one-bit flag field: 0 = C, 1 = G (30_encoding.md R71). -/
def flagOfField (f : Nat) : Flag := if f = 0 then .c else .g

/-! ### Command words -/

/-- The decoder of command words (30_encoding.md R72 to R74). -/
def decodeCommand (w : CmdWord) : Except DecodeReject Instr :=
  let f := w.toNat % 2 ^ 26
  match w.toNat / 2 ^ 26 with
  | 0x01 => fmtN f .add
  | 0x02 => fmtN f .sub
  | 0x03 => fmtN f .neg
  | 0x04 => fmtN f .cmp
  | 0x05 => fmtN f .inc
  | 0x06 => fmtN f .dec
  | 0x07 => fmtN f .isz
  | 0x08 => fmtN f .store
  | 0x09 => fmtN f .toint
  | 0x0A => fmtN f .trunc
  | 0x0B => fmtField 7 f fun f => .setws (BitVec.ofNat 7 f)
  | 0x0C => fmtField 2 f fun f => .setmode (modeOfField f)
  | 0x0D => fmtField 2 f fun f => .wflag (flagOfField (f % 2)) (f / 2 == 1)
  | 0x0E => fmtField 1 f fun f => .skipflag (flagOfField f)
  | 0x10 => fmtN f .fenc
  | 0x11 => fmtN f .fdec
  | 0x12 => fmtN f .fexp
  | 0x13 => fmtN f .fchk
  | 0x18 => fmtInd 9 f (fun f => .rreg (BitVec.ofNat 9 f)) .rregI
  | 0x19 => fmtInd 9 f (fun f => .wreg (BitVec.ofNat 9 f)) .wregI
  | 0x1A => fmtN f .ri
  | 0x1B => fmtN f .wi
  | 0x1C => fmtN f .clrreg
  | 0x1D => fmtN f .iszi
  | 0x1E => fmtN f .dszi
  | 0x1F => fmtN f .iszind
  | 0x20 => fmtN f .dszind
  | 0x24 => fmtN f .preset
  | 0x25 => fmtField 9 f fun f => .insert (BitVec.ofNat 9 f)
  | 0x26 => fmtN f .delete
  | 0x27 => fmtField 8 f fun f => .setline (BitVec.ofNat 8 f)
  | 0x28 => fmtField 8 f fun f => .readline (BitVec.ofNat 8 f)
  | 0x2C => fmtN f .step
  | 0x2D => fmtField 1 f fun f => .skipif (f == 1)
  | 0x2E => fmtInd 4 f (fun f => .goto (BitVec.ofNat 4 f)) .gotoI
  | 0x2F => fmtInd 4 f (fun f => .gosub (BitVec.ofNat 4 f)) .gosubI
  | 0x30 => fmtN f .rtn
  | 0x31 => fmtN f .run
  | 0x32 => fmtN f .runstep
  | _ => .error .unassignedOp

/-! ### Stored lines -/

/-- The stored form of an opcode (30_encoding.md R75): one byte, or the escape byte 0xFF and `opcode - 0xFF`. -/
def storedBytes (op : Opcode) : List Byte :=
  if op.toNat ≤ 0xFE then [BitVec.ofNat 8 op.toNat] else [0xFF, BitVec.ofNat 8 (op.toNat - 0xFF)]

/-- The opcode of a line whose first bytes are `b0` and, after an escape, `b1` (30_encoding.md R76). -/
def opcodeOfBytes (b0 b1 : Nat) : Opcode :=
  if b0 = 0xFF then BitVec.ofNat 9 (0xFF + b1) else BitVec.ofNat 9 b0

/-- The reference opcode map (30_encoding.md R78). -/
def referenceMap (op : Opcode) : OpClass :=
  let n := op.toNat
  if n < 0x10 then .label (BitVec.ofNat 4 n)
  else if n < 0x20 then .goto (BitVec.ofNat 4 (n - 0x10))
  else if n < 0x30 then .gosub (BitVec.ofNat 4 (n - 0x20))
  else if n = 0x30 then .rtn
  else if n = 0x31 then .gotoI
  else if n = 0x32 then .gosubI
  else .other

/-- The parameter `OPCODE_MAP` as a function (30_encoding.md R77). -/
def Params.classOf (p : Params) (op : Opcode) : OpClass :=
  match p.opcodeMap with
  | .standard => referenceMap op
  | .other k => Config.opcodeMap k op

/-- The stored instruction of an opcode of a class (44_control_flow.md R271). -/
def lineInstr (op : Opcode) : OpClass → Instr
  | .label n => .lblN n
  | .goto n => .gtoN n
  | .gosub n => .gsbN n
  | .gotoI => .gtoStoredI
  | .gosubI => .gsbStoredI
  | .rtn => .rtnStored
  | .other =>
    if op.toNat ≤ 0xFE then .opPM1 (BitVec.ofNat 8 op.toNat)
    else .opPM2 (BitVec.ofNat 8 (op.toNat - 0xFF))

/-- The decoder of stored lines under the reference map, which the table's rows follow (30_encoding.md R76,
R78): the line's instruction and the bytes after it. -/
def decodeLine : List Byte → Except DecodeReject (Instr × List Byte)
  | [] => .error .truncated
  | b0 :: rest =>
    if b0 = 0xFF then
      match rest with
      | [] => .error .truncated
      | b1 :: rest' =>
        let op := opcodeOfBytes b0.toNat b1.toNat
        .ok (lineInstr op (referenceMap op), rest')
    else
      let op := opcodeOfBytes b0.toNat 0
      .ok (lineInstr op (referenceMap op), rest)

/-- The decoder. -/
def decode : Code → Except DecodeReject Instr
  | .command w => decodeCommand w
  | .line bs =>
    match decodeLine bs with
    | .ok (i, []) => .ok i
    | .ok (_, _ :: _) => .error .trailing
    | .error r => .error r

/-- The instruction the decoder reads from a word numbered as spec/opcode_table.json numbers it. A row of 8
bits is one byte. A row of 16 bits (form PM2) is one number whose bits [15:8] are the escape byte, which
stands first (20_memory.md R56), and [7:0] the operand byte. A row of 32 bits is a command word. -/
def decodeTableWord (nbits w : Nat) : Option Instr :=
  if nbits ≤ 8 then
    match decodeLine [BitVec.ofNat 8 w, 0] with
    | .ok (i, _) => some i
    | .error _ => none
  else if nbits ≤ 16 then
    match decodeLine [BitVec.ofNat 8 (w / 2 ^ 8), BitVec.ofNat 8 w] with
    | .ok (i, _) => some i
    | .error _ => none
  else
    match decodeCommand (BitVec.ofNat 32 w) with
    | .ok i => some i
    | .error _ => none

/-! ### The encoder -/

/-- The code of field `m` (30_encoding.md R71). -/
def Mode.field : Mode → Nat
  | .uns => 0
  | .ones => 1
  | .twos => 2
  | .float => 3

/-- The code of a flag field (30_encoding.md R71). -/
def Flag.field : Flag → Nat
  | .c => 0
  | .g => 1

/-- `op << 26 | fields` (30_encoding.md R72). -/
def commandCode (op f : Nat) : Code := .command (BitVec.ofNat 32 (op * 2 ^ 26 + f))

/-- The encoder: the code of a well-formed instruction (30_encoding.md R71, R72, R75, R78). -/
def encode : Instr → Code
  | .add => commandCode 0x01 0
  | .sub => commandCode 0x02 0
  | .neg => commandCode 0x03 0
  | .cmp => commandCode 0x04 0
  | .inc => commandCode 0x05 0
  | .dec => commandCode 0x06 0
  | .isz => commandCode 0x07 0
  | .store => commandCode 0x08 0
  | .toint => commandCode 0x09 0
  | .trunc => commandCode 0x0A 0
  | .setws w => commandCode 0x0B w.toNat
  | .setmode m => commandCode 0x0C m.field
  | .wflag f v => commandCode 0x0D (2 * v.toNat + f.field)
  | .skipflag f => commandCode 0x0E f.field
  | .fenc => commandCode 0x10 0
  | .fdec => commandCode 0x11 0
  | .fexp => commandCode 0x12 0
  | .fchk => commandCode 0x13 0
  | .rreg idx => commandCode 0x18 idx.toNat
  | .rregI => commandCode 0x18 (2 ^ 25)
  | .wreg idx => commandCode 0x19 idx.toNat
  | .wregI => commandCode 0x19 (2 ^ 25)
  | .ri => commandCode 0x1A 0
  | .wi => commandCode 0x1B 0
  | .clrreg => commandCode 0x1C 0
  | .iszi => commandCode 0x1D 0
  | .dszi => commandCode 0x1E 0
  | .iszind => commandCode 0x1F 0
  | .dszind => commandCode 0x20 0
  | .preset => commandCode 0x24 0
  | .insert opc => commandCode 0x25 opc.toNat
  | .delete => commandCode 0x26 0
  | .setline n => commandCode 0x27 n.toNat
  | .readline n => commandCode 0x28 n.toNat
  | .step => commandCode 0x2C 0
  | .skipif b => commandCode 0x2D b.toNat
  | .goto lbl => commandCode 0x2E lbl.toNat
  | .gotoI => commandCode 0x2E (2 ^ 25)
  | .gosub lbl => commandCode 0x2F lbl.toNat
  | .gosubI => commandCode 0x2F (2 ^ 25)
  | .rtn => commandCode 0x30 0
  | .run => commandCode 0x31 0
  | .runstep => commandCode 0x32 0
  | .lblN n => .line (storedBytes (BitVec.ofNat 9 n.toNat))
  | .gtoN n => .line (storedBytes (BitVec.ofNat 9 (0x10 + n.toNat)))
  | .gsbN n => .line (storedBytes (BitVec.ofNat 9 (0x20 + n.toNat)))
  | .rtnStored => .line (storedBytes 0x30)
  | .gtoStoredI => .line (storedBytes 0x31)
  | .gsbStoredI => .line (storedBytes 0x32)
  | .opPM1 o => .line (storedBytes (BitVec.ofNat 9 o.toNat))
  | .opPM2 o => .line (storedBytes (BitVec.ofNat 9 (0xFF + o.toNat)))

end Sys2Proof
end

