-- ==== Sys2Proof/Machine/State.lean ====
section
/-! DEFINITION. The state of the block as plain data (10_state.md), with the input and output ports (R38, R39),
the operations the host is about to issue, the reasons a step can stop, and the state after reset
(70_reset_and_hazards.md R330). -/

namespace Sys2Proof.Machine

/-! ### Reasons -/

/-- The error codes of port ERR (10_state.md R39, 60_exceptions.md R301). An error is no fault: the command ends,
ERR carries the code and the machine goes on. -/
inductive ErrCode where
  /-- 0, arithmetic domain error: raised by no command in scope. -/
  | domain
  /-- 2, raised by SETWS. -/
  | bitIndex
  /-- 3, register address out of range. -/
  | regAddr
  /-- 4, program address or line out of range. -/
  | progAddr
  /-- 5, return-stack overflow. -/
  | stackOverflow
  /-- 6, invalid float bit pattern. -/
  | badFloat
deriving DecidableEq, Repr

/-- The number of an error code (60_exceptions.md R301). -/
def ErrCode.code : ErrCode → Nat
  | .domain => 0
  | .bitIndex => 2
  | .regAddr => 3
  | .progAddr => 4
  | .stackOverflow => 5
  | .badFloat => 6

/-- The reasons a command is refused (60_exceptions.md R303). A refused command sets REFUSED and changes nothing
(R300); that is a next state of the machine (notes/assumptions/5.md). -/
inductive RefuseReason where
  | reservedEncoding
  | floatArithmetic
  | wordSizeInFloat
  | matrixDescriptor
deriving DecidableEq, Repr

/-- The faults of the model. -/
inductive Fault where
  /-- An access to nybble `a`, which does not exist (20_memory.md R50: addresses are 0..405). Raised by
  `memRead`, `memWrite` and `requireArena`; safe: no run from reset reaches it, nor any state that
  meets 10_state.md R41, with the cursor anywhere (notes/assumptions/10.md). -/
  | noSuchNybble (a : Nat)
deriving DecidableEq, Repr

/-- The refusals of the model. -/
inductive Refusal where
  /-- An instruction with no meaning yet, by its mnemonic. Raised by no arm of `exec`; safe. -/
  | notModelled (mnemonic : String)
deriving DecidableEq, Repr

/-! ### Parts of the state -/

/-- The arena: the non-zero nybbles by address, addresses strictly rising and below 406. An address not listed
reads as 0, its reset value (10_state.md R26). -/
abbrev Memory := List (Nat × Nybble)

/-- The addressing cache (10_state.md R36). -/
structure LineCache where
  cLine : Nat
  cAddr : Nat
deriving DecidableEq, Repr

/-- The input ports (10_state.md R38). -/
structure InPorts where
  /-- CMD, the command word. -/
  cmd : CmdWord
  /-- X, the top-of-stack operand. -/
  x : Value
  /-- Y, the operand below it. -/
  y : Value
  /-- N, the signed operand of STORE (decision D52: unbounded in the model). -/
  n : Int
  /-- DBL_IN, the operand of FENC. -/
  dblIn : Double
  /-- STOPREQ, which no command reads (60_exceptions.md R305). -/
  stopReq : Bool
deriving DecidableEq, Repr

/-- A number of the persisted image: an integer, or anything else a JSON field can hold. -/
inductive JsonNum where
  | int (n : Int)
  | notInt
deriving DecidableEq, Repr

/-- The persisted image (70_reset_and_hazards.md R333). `returnStack` is none where the field is no array. -/
structure Image where
  storage : Text
  lines : JsonNum
  currentLine : JsonNum
  returnStack : Option (List JsonNum)
  returnStackPos : JsonNum
  index : Text
deriving DecidableEq, Repr

/-- The results of LOAD (70_reset_and_hazards.md R333). -/
inductive LoadResult where
  | loaded
  | rolledBack
  | rejected
deriving DecidableEq, Repr

/-- What the host does at one step: a command with its operand ports, or an operation of the persistence
interface (10_state.md R38). -/
inductive HostOp where
  | command (p : InPorts)
  | load (img : Image)
  | save
deriving DecidableEq, Repr

/-- The output ports (10_state.md R39) and the answers of the persistence interface. `none` is an output the last
operation does not name. -/
structure Outputs where
  r : Option Value
  ord : Option Ordering
  z : Option Bool
  int : Option Int
  dblOut : Option Double
  exp : Option Int
  opc : Option Opcode
  dispatch : Option Bool
  halt : Option Bool
  err : Option ErrCode
  refused : Option RefuseReason
  load : Option LoadResult
  image : Option Image
deriving DecidableEq, Repr

/-- No output. -/
def Outputs.absent : Outputs :=
  ⟨none, none, none, none, none, none, none, none, none, none, none, none, none⟩

/-! ### The state -/

/-- The state of the block (10_state.md). -/
structure State where
  /-- The parameters of the block, which no step writes (R40; notes/assumptions/1.md). -/
  params : Params
  /-- Word size (R20). -/
  ws : Nat
  /-- Sign mode (R21). -/
  mode : Mode
  /-- Carry flag (R24). -/
  c : Bool
  /-- Overflow flag (R25). -/
  g : Bool
  /-- The arena (R26). -/
  arena : Memory
  /-- The index register I (R27). -/
  ireg : Value
  /-- The number of stored instructions (R28). -/
  lines : Nat
  /-- The number of extended stored instructions (R29). -/
  ext : Nat
  /-- The current line (R30). A return can leave it past the last line, at most at 203
  (R269, R340; notes/assumptions/9.md). -/
  cur : Nat
  /-- The return stack (R31). -/
  rs : List Nat
  /-- The return-stack pointer (R31). -/
  rsp : Int
  /-- The addressing cache (R36). -/
  cache : LineCache
  /-- Needs persisting (R37). -/
  dirty : Bool
  /-- The input ports, as the last command left them (R38). -/
  inp : InPorts
  /-- What the host issues from now on, in order (notes/assumptions/4.md). -/
  pending : List HostOp
  /-- The output ports (R39). -/
  out : Outputs
  /-- The model's own: numbers the free values (notes/assumptions/9.md). -/
  freeCtr : Nat
deriving DecidableEq, Repr

/-- The input ports after reset: all zero (DESIGN CHOICE, notes/assumptions/14.md). -/
def InPorts.zero : InPorts := ⟨0, 0, 0, 0, 0, false⟩

/-- The state after reset (70_reset_and_hazards.md R330), with the default parameters of 00_scope.md R6. -/
def State.reset : State where
  params := Params.default
  ws := 16
  mode := .twos
  c := false
  g := false
  arena := []
  ireg := 0
  lines := 0
  ext := 0
  cur := 0
  rs := [0, 0, 0, 0]
  rsp := -1
  cache := ⟨1, 0⟩
  dirty := false
  inp := InPorts.zero
  pending := []
  out := Outputs.absent
  freeCtr := 0

/-! ### One-field updates -/

/-- `ws` written. -/
def State.setWs (s : State) (v : Nat) : State := { s with ws := v }

/-- `mode` written. -/
def State.setMode (s : State) (v : Mode) : State := { s with mode := v }

/-- `c` written. -/
def State.setC (s : State) (v : Bool) : State := { s with c := v }

/-- `g` written. -/
def State.setG (s : State) (v : Bool) : State := { s with g := v }

/-- `arena` written. -/
def State.setArena (s : State) (v : Memory) : State := { s with arena := v }

/-- `ireg` written. -/
def State.setIreg (s : State) (v : Value) : State := { s with ireg := v }

/-- `lines` written. -/
def State.setLines (s : State) (v : Nat) : State := { s with lines := v }

/-- `ext` written. -/
def State.setExt (s : State) (v : Nat) : State := { s with ext := v }

/-- `cur` written. -/
def State.setCur (s : State) (v : Nat) : State := { s with cur := v }

/-- `rs` written. -/
def State.setRs (s : State) (v : List Nat) : State := { s with rs := v }

/-- `rsp` written. -/
def State.setRsp (s : State) (v : Int) : State := { s with rsp := v }

/-- `cache` written. -/
def State.setCache (s : State) (v : LineCache) : State := { s with cache := v }

/-- `dirty` written. -/
def State.setDirty (s : State) (v : Bool) : State := { s with dirty := v }

/-- `inp` written. -/
def State.setInp (s : State) (v : InPorts) : State := { s with inp := v }

/-- `pending` written. -/
def State.setPending (s : State) (v : List HostOp) : State := { s with pending := v }

/-- `out` written. -/
def State.setOut (s : State) (v : Outputs) : State := { s with out := v }

/-- `freeCtr` written. -/
def State.setFreeCtr (s : State) (v : Nat) : State := { s with freeCtr := v }

end Sys2Proof.Machine
end

