-- ==== Sys2Proof/Machine/Ops.lean ====
section
/-! DEFINITION. The named operations: how a command ends (60_exceptions.md R300 to R303), the arena and its
accesses (00_scope.md R10, 20_memory.md), the derived quantities (10_state.md R32 to R35), line addressing and
the addressing cache (43_program_memory.md R230 to R233), the line increment and the skip (44_control_flow.md
R260, R262). -/

namespace Sys2Proof.Machine

/-! ### How a command ends -/

/-- What can end a command before its effect (00_scope.md R10: `raise` and `refuse`; and the model's fault). -/
inductive Exit where
  | err (c : ErrCode)
  | refuse (r : RefuseReason)
  | fault (f : Fault)
deriving DecidableEq, Repr

/-- A computation of a command that may end it. -/
abbrev Attempt (α : Type) := Except Exit α

/-- `if not b: e`. -/
def require (b : Bool) (e : Exit) : Attempt Unit := if b then .ok () else .error e

/-- The end of a command (60_exceptions.md R300). `err` carries the state that a failing command leaves (R302). -/
inductive Ending where
  | ok (t : State)
  | err (c : ErrCode) (kept : State)
  | refuse (r : RefuseReason)
  | fault (f : Fault)
deriving DecidableEq, Repr

/-- The end of a command that makes none of its writes unless all its checks pass (60_exceptions.md R302):
`kept` is the state its first check found. -/
def Ending.of (kept : State) : Attempt State → Ending
  | .ok t => .ok t
  | .error (.err c) => .err c kept
  | .error (.refuse r) => .refuse r
  | .error (.fault f) => .fault f

/-- ERR = c, no other output valid (60_exceptions.md R300). -/
def State.reportError (s : State) (c : ErrCode) : State :=
  s.setOut { Outputs.absent with err := some c }

/-- REFUSED = 1, with its reason (60_exceptions.md R300, R303). -/
def State.reportRefusal (s : State) (r : RefuseReason) : State :=
  s.setOut { Outputs.absent with refused := some r }

/-- How the machine goes on from a command's end. There is no trap: an error is reported and control goes nowhere
(60_exceptions.md R300, R308); a refused command leaves the state `s` it found (R300, R303). -/
def Ending.conclude (s : State) : Ending → Host.Outcome State Fault Refusal
  | .ok t => .next t
  | .err c t => .next (t.reportError c)
  | .refuse r => .next (s.reportRefusal r)
  | .fault f => .fault f

/-- One command: the outputs of the one before it are gone (10_state.md R39), its effect `f` runs, and its end is
reported. -/
def perform (f : State → Ending) (s : State) : Host.Outcome State Fault Refusal :=
  (f (s.setOut Outputs.absent)).conclude s

/-! ### The arena -/

/-- `arena[a]` (00_scope.md R10); an address not listed reads as 0 (10_state.md R26). -/
def Memory.get : Memory → Nat → Nybble
  | [], _ => 0
  | (k, v) :: m, a => if k = a then v else Memory.get m a

/-- The cell `(a, v)` put in its place. -/
def Memory.insertCell : Memory → Nat → Nybble → Memory
  | [], a, v => [(a, v)]
  | (k, w) :: m, a, v =>
    if a < k then (a, v) :: (k, w) :: m
    else if a = k then (a, v) :: m
    else (k, w) :: Memory.insertCell m a v

/-- `arena[a] <- v`. Writing 0 removes the cell; an address that does not exist holds nothing. -/
def Memory.set (m : Memory) (a : Nat) (v : Nybble) : Memory :=
  if a < arenaSize then
    if v = 0 then m.filter (fun cell => cell.1 != a) else m.insertCell a v
  else m

/-- The canonical form from address `lo` up: addresses strictly rising and below 406, no zero listed. -/
def Memory.wfFrom : Nat → Memory → Bool
  | _, [] => true
  | lo, (k, v) :: m => decide (lo ≤ k) && decide (k < arenaSize) && v != 0 && Memory.wfFrom (k + 1) m

/-- The canonical form of the arena. -/
def Memory.wf (m : Memory) : Bool := Memory.wfFrom 0 m

/-- The big-endian number of the `n` nybbles from `a` (00_scope.md R10). -/
def Memory.readN (m : Memory) (a : Nat) : Nat → Nat
  | 0 => 0
  | n + 1 => m.readN a n * 16 + (m.get (a + n)).toNat

/-- The `n` low nybbles of `v` written big-endian from `a` (00_scope.md R10). -/
def Memory.writeN (m : Memory) (a : Nat) : Nat → Nat → Memory
  | 0, _ => m
  | n + 1, v => (m.writeN a n (v / 16)).set (a + n) (BitVec.ofNat 4 v)

/-- The nybbles `[a, a + n)` set to 0. -/
def Memory.zero (m : Memory) (a : Nat) : Nat → Memory
  | 0 => m
  | n + 1 => (m.zero a n).set (a + n) 0

/-- `for k from a+n-1 down to a: arena[k+sz] <- arena[k]` (43_program_memory.md R236). -/
def Memory.moveUp (m : Memory) (a sz : Nat) : Nat → Memory
  | 0 => m
  | n + 1 => (m.set (a + n + sz) (m.get (a + n))).moveUp a sz n

/-- `for k from a to a+n-1: arena[k] <- arena[k+sz]` (43_program_memory.md R238). -/
def Memory.moveDown (m : Memory) (a sz : Nat) : Nat → Memory
  | 0 => m
  | n + 1 => (m.moveDown a sz n).set (a + n) ((m.moveDown a sz n).get (a + n + sz))

/-- The nybbles below `hi` must exist (20_memory.md R50). -/
def requireArena (hi : Nat) : Attempt Unit :=
  require (hi ≤ arenaSize) (.fault (.noSuchNybble (hi - 1)))

/-- `MemRead(a, n)` (00_scope.md R10). -/
def memRead (m : Memory) (a n : Nat) : Attempt Nat := do
  requireArena (a + n)
  pure (m.readN a n)

/-- `MemWrite(a, n, v)` (00_scope.md R10). -/
def memWrite (m : Memory) (a n v : Nat) : Attempt Memory := do
  requireArena (a + n)
  pure (m.writeN a n v)

/-! ### Derived quantities -/

/-- `M`, the word mask (00_scope.md R9). -/
def State.mask (s : State) : Nat := 2 ^ s.ws - 1

/-- `npr`, the nybbles of one register slot (10_state.md R34, 00_scope.md R9). R7 speaks of 25 registers for word sizes
57 to 64; by this formula and R35 there are 27 at 57 to 60 and 25 at 61 to 64, and the formula is followed (DEDUCED,
notes/assumptions/20.md). -/
def State.npr (s : State) : Nat := (s.ws + 3) / 4

/-- `P`, the number of program nybbles (10_state.md R33). -/
def State.progSize (s : State) : Nat := 2 * s.lines + 2 * s.ext

/-- `regCount` (10_state.md R35). -/
def State.regCount (s : State) : Nat := (arenaSize - s.progSize) / s.npr

/-- The output port FLAGS (10_state.md R39): a view of C and G. It has a value in every state; the spec leaves it open
before the first command (R330), in an idle step, and after an error or a refusal (R300) (DESIGN CHOICE,
notes/assumptions/7.md). -/
def State.flagsPort (s : State) : Bool × Bool := (s.c, s.g)

/-- The output port DIRTY (10_state.md R39): a view of `dirty`. It has a value in every state; the spec leaves it open
before the first command (R330), in an idle step, and after an error or a refusal (R300) (DESIGN CHOICE,
notes/assumptions/7.md). -/
def State.dirtyPort (s : State) : Bool := s.dirty

/-- The lowest nybble of register slot `i` (20_memory.md R51). -/
def State.slotAddr (s : State) (i : Nat) : Nat := arenaSize - (i + 1) * s.npr

/-! ### Line addressing -/

/-- The width of the line starting at `a` (43_program_memory.md R230). -/
def lineWidth (m : Memory) (a : Nat) : Nat := if m.readN a 2 = 0xFF then 4 else 2

/-- The address `n` lines after the line starting at `a` (43_program_memory.md R231). -/
def lineAddrFrom (m : Memory) : Nat → Nat → Attempt Nat
  | 0, a => .ok a
  | n + 1, a => do
    requireArena (a + 2)
    lineAddrFrom m n (a + lineWidth m a)

/-- `addr(L)`, for `1 <= L <= lines + 1` (43_program_memory.md R231). -/
def State.lineAddr (s : State) (line : Nat) : Attempt Nat := lineAddrFrom s.arena (line - 1) 0

/-- `opcodeAt(L)`, for `1 <= L <= lines` (43_program_memory.md R233). -/
def State.opcodeAt (s : State) (line : Nat) : Attempt Opcode := do
  let a ← s.lineAddr line
  let b0 ← memRead s.arena a 2
  if b0 = 0xFF then
    let b1 ← memRead s.arena (a + 2) 2
    pure (opcodeOfBytes b0 b1)
  else pure (opcodeOfBytes b0 0)

/-- The loop of `resolve`: the cache moved forward `n` lines (43_program_memory.md R232). -/
def LineCache.advance (m : Memory) : Nat → LineCache → LineCache
  | 0, k => k
  | n + 1, k => LineCache.advance m n ⟨k.cLine + 1, k.cAddr + lineWidth m k.cAddr⟩

/-- The cache before any line is resolved (10_state.md R36). -/
def LineCache.start : LineCache := ⟨1, 0⟩

/-- The cache that `resolve(L)` leaves (43_program_memory.md R232); its `cAddr` is what `resolve` returns. -/
def State.resolve (s : State) (line : Nat) : LineCache :=
  let k := if line < s.cache.cLine then LineCache.start else s.cache
  k.advance s.arena (line - k.cLine)

/-- The cache moved by resolving a line (notes/assumptions/8.md: addresses come from `lineAddr`, the cache
only follows). -/
def State.touch (s : State) (line : Nat) : State := s.setCache (s.resolve line)

/-! ### Line increment and skip -/

/-- `inc(L)` (44_control_flow.md R260). -/
def State.inc (s : State) (line : Nat) : Nat := (line + 1) % (s.lines + 1)

/-- `doNextIf(cond)` (44_control_flow.md R262). -/
def State.doNextIf (s : State) (cond : Bool) : State :=
  if cond then s else s.setCur (s.inc s.cur)

end Sys2Proof.Machine
end

