-- ==== Sys2Proof/Machine/Binary64.lean ====
section
/-! DEFINITION. IEEE 754 binary64 patterns (ports DBL_IN and DBL_OUT, 10_state.md R38 and R39) as exact fractions,
the rounding of a fraction to a pattern and to 10 decimal digits, and the addition of ±1 that 40_value_bcd.md
R119 asks for. The two roundings are the ones spec/95_test_vectors.md (Conventions) uses
(notes/assumptions/3.md). -/

namespace Sys2Proof.Machine

/-! ### Fields -/

/-- The sign bit. -/
def dblNeg (d : Double) : Bool := d.msb

/-- The pattern without its sign: |d|. -/
def dblAbs (d : Double) : Double := BitVec.ofNat 64 (d.toNat % 2 ^ 63)

/-- The biased exponent field. -/
def dblExpField (d : Double) : Nat := d.toNat / 2 ^ 52 % 2 ^ 11

/-- The fraction field. -/
def dblFrac (d : Double) : Nat := d.toNat % 2 ^ 52

def dblIsNaN (d : Double) : Bool := dblExpField d == 0x7FF && dblFrac d != 0

def dblIsInf (d : Double) : Bool := dblExpField d == 0x7FF && dblFrac d == 0

def dblIsZero (d : Double) : Bool := d.toNat % 2 ^ 63 == 0

/-! ### A finite double as a fraction -/

/-- The significand as an integer. -/
def dblSignificand (d : Double) : Nat :=
  if dblExpField d = 0 then dblFrac d else 2 ^ 52 + dblFrac d

/-- The exponent of the significand's unit. -/
def dblScale (d : Double) : Int := (max (dblExpField d) 1 : Nat) - 1075

/-- The numerator of |d|. -/
def dblNum (d : Double) : Nat := dblSignificand d * 2 ^ (dblScale d).toNat

/-- The denominator of |d|. -/
def dblDen (d : Double) : Nat := 2 ^ (-dblScale d).toNat

/-- The exact value of a finite double. -/
def dblValue (d : Double) : Rat :=
  mkRat (if dblNeg d then -(dblNum d : Int) else dblNum d) (dblDen d)

/-! ### Rounding -/

/-- `n / d` rounded to the nearest integer, ties to even. -/
def roundEven (n d : Nat) : Nat :=
  let q := n / d
  let r := n % d
  if 2 * r < d then q
  else if d < 2 * r then q + 1
  else if q % 2 = 0 then q else q + 1

/-- `n / d >= b^e`. -/
def atLeastPow (b n d : Nat) (e : Int) : Bool :=
  d * b ^ e.toNat ≤ n * b ^ (-e).toNat

/-- `floor(log2(n / d))` for positive `n` and `d`. -/
def floorLog2 (n d : Nat) : Int :=
  let e : Int := (Nat.log2 n : Int) - Nat.log2 d
  if atLeastPow 2 n d e then e else e - 1

/-- The fraction `n / d`, with a sign, rounded to the nearest binary64, ties to even; beyond the largest finite
double it is infinity. -/
def roundToDouble (neg : Bool) (n d : Nat) : Double :=
  if n = 0 then 0
  else
    let e := max (floorLog2 n d - 52) (-1074)
    let m := roundEven (n * 2 ^ (-e).toNat) (d * 2 ^ e.toNat)
    let magnitude := min ((e + 1074).toNat * 2 ^ 52 + m) (0x7FF * 2 ^ 52)
    BitVec.ofNat 64 ((if neg then 2 ^ 63 else 0) + magnitude)

/-- One less than the number of decimal digits of `n`, looking at most `fuel` digits up. -/
def floorLog10Nat : Nat → Nat → Nat
  | 0, _ => 0
  | fuel + 1, n => if n < 10 then 0 else floorLog10Nat fuel (n / 10) + 1

/-- `floor(log10(n / d))` for positive `n` and `d` of at most 400 digits. -/
def floorLog10 (n d : Nat) : Int :=
  let e : Int := (floorLog10Nat 400 n : Int) - floorLog10Nat 400 d
  if atLeastPow 10 n d e then e else e - 1

/-- The fraction `n / d` to 10 significant decimal digits, to nearest, ties to even: `(m, e)` with `m` in
[10^9, 10^10) and value about `m · 10^(e-9)` (40_value_bcd.md R110). -/
def roundDecimal (n d : Nat) : Nat × Int :=
  let e := floorLog10 n d
  let m := roundEven (n * 10 ^ (9 - e).toNat) (d * 10 ^ (e - 9).toNat)
  if m = 10 ^ 10 then (10 ^ 9, e + 1) else (m, e)

/-! ### The parameters -/

/-- The parameter `TO_DOUBLE` as a function (40_value_bcd.md R109). -/
def toDouble (p : Params) (q : Rat) : Double :=
  match p.toDouble with
  | .standard => roundToDouble (q.num < 0) q.num.natAbs q.den
  | .other k => Config.toDouble k q

/-- The parameter `FROM_DOUBLE_ROUND` as a function of a finite non-zero |d| (40_value_bcd.md R110). -/
def fromDoubleRound (p : Params) (d : Double) : Nat × Int :=
  match p.fromDoubleRound with
  | .standard => roundDecimal (dblNum d) (dblDen d)
  | .other k => (10 ^ 9 + (Config.fromDoubleRound k d).1.val, (Config.fromDoubleRound k d).2)

/-- `d + k` for `k` = ±1, in binary64 rounded to nearest, ties to even (40_value_bcd.md R119). A NaN or an
infinity, which only a `TO_DOUBLE` other than the standard one gives, stays (notes/assumptions/18.md). -/
def dblAddUnit (d : Double) (k : Int) : Double :=
  if dblExpField d = 0x7FF then d
  else
    let n : Int := (if dblNeg d then -(dblNum d : Int) else dblNum d) + k * dblDen d
    roundToDouble (n < 0) n.natAbs (dblDen d)

end Sys2Proof.Machine
end

