-- ==== Sys2Proof/Machine/Bcd.lean ====
section
/-! DEFINITION. The BCD float format and its codec (40_value_bcd.md R102 to R114, R119, R120). -/

namespace Sys2Proof.Machine

/-! ### Fields (R102) -/

/-- Nybble `k` of a Value (00_scope.md R8). -/
def nyb (v : Value) (k : Nat) : Nat := v.toNat / 16 ^ k % 16

/-- `hi`, bits [67:56]. -/
def floatHi (v : Value) : Nat := v.toNat / 2 ^ 56

/-- `sgn`, bits [55:52]. -/
def floatSgn (v : Value) : Nat := nyb v 13

/-- `d_j`, the mantissa digit `j`, most significant first: bits [51-4j : 48-4j]. -/
def floatDigit (v : Value) (j : Nat) : Nat := nyb v (12 - j)

/-- The first `k` mantissa digits as a number. -/
def floatDigits (v : Value) : Nat → Nat
  | 0 => 0
  | k + 1 => floatDigits v k * 10 + floatDigit v k

/-- `mant(v)` (R103). -/
def mant (v : Value) : Nat := floatDigits v 10

/-- `exponent(v)` (R104); none where it raises error 6. -/
def floatExp? (v : Value) : Option Int :=
  let e2 := nyb v 2
  let e1 := nyb v 1
  let e0 := nyb v 0
  if e2 > 9 ∨ e1 > 9 ∨ e0 > 9 then none
  else
    let e := 100 * e2 + 10 * e1 + e0
    if e ≤ 99 then some e
    else if e ≥ 901 then some ((e : Int) - 1000)
    else none

/-- `isLegalFloat(v)` (R105). -/
def isLegalFloat (v : Value) : Bool :=
  floatHi v == 0
    && (List.range 10).all (fun j => floatDigit v j ≤ 9)
    && (floatExp? v).isSome
    && (mant v == 0 || floatSgn v == 0 || floatSgn v == 9)

/-- `floatValue(v)`, the exact rational of a legal float (R106). -/
def floatValue (v : Value) : Rat :=
  let e := (floatExp? v).getD 0 - 9
  let m : Int := if floatSgn v = 9 then -(mant v : Int) else mant v
  mkRat (m * 10 ^ e.toNat) (10 ^ (-e).toNat)

/-- `trunc(q)`, toward zero (00_scope.md R8). -/
def truncRat (q : Rat) : Int := q.num.tdiv q.den

/-! ### Checks -/

/-- The parameter `MATRIX_DESC` as a predicate (R108). -/
def isMatrixDesc (p : Params) (v : Value) : Bool :=
  decide (v ∈ p.matrixDesc)

/-- `checkFloat(v)` (R120). -/
def checkFloat (p : Params) (v : Value) : Attempt Unit := do
  require (!isMatrixDesc p v) (.refuse .matrixDescriptor)
  require (isLegalFloat v) (.err .badFloat)

/-- `exponent(v)` with its error (R104). -/
def floatExp (v : Value) : Attempt Int :=
  match floatExp? v with
  | some e => .ok e
  | none => .error (.err .badFloat)

/-! ### The codec -/

/-- `asDouble(v)` of a value that passed `checkFloat` (R109). -/
def asDouble (p : Params) (v : Value) : Double :=
  if mant v = 0 then 0 else toDouble p (floatValue v)

/-- The low `k` decimal digits of `n`, one a nybble, most significant first (R110: `bcd10`, `bcd3`). -/
def bcd : Nat → Nat → Nat
  | 0, _ => 0
  | k + 1, n => bcd k (n / 10) * 16 + n % 10

/-- `FLOAT_POS_INF` on a 68-bit port (R107). -/
def floatPosInf (p : Params) : Value := p.floatPosInf.setWidth 68

/-- `FLOAT_NEG_INF` on a 68-bit port (R107). -/
def floatNegInf (p : Params) : Value := p.floatNegInf.setWidth 68

/-- The float of sign nybble `sgn`, mantissa `m` and exponent field `e` (R110). -/
def packFloat (sgn m e : Nat) : Value :=
  BitVec.ofNat 68 (sgn * 2 ^ 52 + bcd 10 m * 2 ^ 12 + bcd 3 e)

/-- `fromDouble(d)` (R110). -/
def fromDouble (p : Params) (d : Double) : Value :=
  if dblIsNaN d then floatPosInf p
  else if dblIsInf d then (if dblNeg d then floatNegInf p else floatPosInf p)
  else if dblIsZero d then 0
  else
    let r := fromDoubleRound p (dblAbs d)
    if r.2 ≥ 100 then (if dblNeg d then floatNegInf p else floatPosInf p)
    else if r.2 ≤ -100 then 0
    else packFloat (if dblNeg d then 9 else 0) r.1 (if r.2 ≥ 0 then r.2 else 1000 + r.2).toNat

/-- `negateAsFloat(v)` (R111). -/
def negateAsFloat (v : Value) : Value :=
  if mant v = 0 then v
  else
    BitVec.ofNat 68
      (v.toNat - floatSgn v * 2 ^ 52 + (if floatSgn v = 0 then 9 else 0) * 2 ^ 52)

/-- `floatCompare(a, b)` (R112). -/
def floatCompare (a b : Value) : Ordering :=
  if floatValue a < floatValue b then .lt
  else if floatValue a = floatValue b then .eq
  else .gt

/-- `floatIsZero(v)` (R113). -/
def floatIsZero (v : Value) : Bool := mant v == 0

/-- `changeBitSize(v, 2^w - 1)` (R114). -/
def changeBitSize (v : Value) (w : Nat) : Value := BitVec.ofNat 68 (v.toNat % 2 ^ w)

/-- `floatIncr(v, k)` (R119). -/
def floatIncr (p : Params) (v : Value) (k : Int) : Value :=
  fromDouble p (dblAddUnit (toDouble p (floatValue v)) k)

end Sys2Proof.Machine
end

