-- ==== Sys2Proof/Machine/Operands.lean ====
section
/-! DEFINITION. The operand forms: the masked ports (41_signmode.md R140), the signed reading and the encoding of a
pattern (R141 to R144, R147), the ranges (10_state.md R22), the register index and the label taken from I
(42_registers.md R207, 44_control_flow.md R265) and the slot accesses (42_registers.md R200). -/

namespace Sys2Proof.Machine

/-! ### Integers -/

/-- `v & M` at width `w` (41_signmode.md R140). -/
def maskW (w : Nat) (v : Value) : Nat := v.toNat % 2 ^ w

/-- `toInt` at width `w` (41_signmode.md R141, R142). FLOAT has no integer reading (10_state.md R22) and no command
asks for one there. -/
def toIntW (mode : Mode) (w : Nat) (v : Nat) : Int :=
  let a := v % 2 ^ w
  match mode with
  | .uns => a
  | .twos => if 2 ^ (w - 1) ≤ a then (a : Int) - 2 ^ w else a
  | .ones => if 2 ^ (w - 1) ≤ a then (a : Int) - (2 ^ w - 1) else a
  | .float => a

/-- `encode` at width `w` (41_signmode.md R143, R144). -/
def encodeW (mode : Mode) (w : Nat) (n : Int) : Nat :=
  match mode with
  | .ones => if 0 ≤ n then (n % 2 ^ w).toNat else ((n - 1) % 2 ^ w).toNat
  | .uns | .twos | .float => (n % 2 ^ w).toNat

/-- The width of the index register (00_scope.md R5). -/
abbrev idxWidth : Nat := 68

/-- `X'`, the port X masked to the word (41_signmode.md R140). -/
def State.xWord (s : State) : Nat := maskW s.ws s.inp.x

/-- `Y'`, the port Y masked to the word (41_signmode.md R140). -/
def State.yWord (s : State) : Nat := maskW s.ws s.inp.y

/-- `toInt(v)` at the word size and mode of the state (41_signmode.md R141). -/
def State.toInt (s : State) (v : Nat) : Int := toIntW s.mode s.ws v

/-- `encode(n)` at the word size and mode of the state (41_signmode.md R143). -/
def State.encode (s : State) (n : Int) : Nat := encodeW s.mode s.ws n

/-- `min` of the integer modes (10_state.md R22). -/
def minInt (mode : Mode) (w : Nat) : Int :=
  match mode with
  | .uns | .float => 0
  | .ones => 1 - 2 ^ (w - 1)
  | .twos => -2 ^ (w - 1)

/-- `max` of the integer modes (10_state.md R22). -/
def maxInt (mode : Mode) (w : Nat) : Int :=
  match mode with
  | .uns | .float => 2 ^ w - 1
  | .ones | .twos => 2 ^ (w - 1) - 1

/-- `isZeroInt` at width `w` (41_signmode.md R147; at width 68 the zero test of 42_registers.md R208). -/
def isZeroW (mode : Mode) (w : Nat) (v : Nat) : Bool :=
  let a := v % 2 ^ w
  a == 0 || (mode == .ones && a == 2 ^ w - 1)

/-- The integer commands without a float meaning are refused in FLOAT mode (41_signmode.md R140). -/
def State.requireInteger (s : State) : Attempt Unit :=
  require (s.mode != .float) (.refuse .floatArithmetic)

/-- A number as a Value on a port. -/
abbrev val (n : Nat) : Value := BitVec.ofNat 68 n

/-! ### Taken from I -/

/-- `iaddr()` (42_registers.md R207); none is OUT. -/
def State.iaddr (s : State) : Attempt (Option Nat) := do
  let q ←
    if s.mode = .float then do
      checkFloat s.params s.ireg
      pure (truncRat (floatValue s.ireg))
    else pure (toIntW s.mode idxWidth s.ireg.toNat)
  pure (if 0 ≤ q ∧ q < s.params.iaddrLimit then some q.toNat else none)

/-- `labelFromI()` (44_control_flow.md R265). -/
def State.labelFromI (s : State) : Attempt Label :=
  if s.mode = .float then do
    checkFloat s.params s.ireg
    let q := floatValue s.ireg
    require (0 ≤ q ∧ q < 16) (.err .progAddr)
    pure (BitVec.ofInt 4 (truncRat q))
  else do
    let q := toIntW s.mode idxWidth s.ireg.toNat
    require (0 ≤ q ∧ q ≤ 15) (.err .progAddr)
    pure (BitVec.ofInt 4 q)

/-! ### Register slots -/

/-- `checkReg(i)` (42_registers.md R200). -/
def State.checkReg (s : State) (i : Option Nat) : Attempt Nat :=
  match i with
  | some i => if i < s.regCount then .ok i else .error (.err .regAddr)
  | none => .error (.err .regAddr)

/-- `slotRead(i)` (42_registers.md R200). -/
def State.slotRead (s : State) (i : Nat) : Attempt Nat := memRead s.arena (s.slotAddr i) s.npr

/-- `slotWrite(i, v)` (42_registers.md R200). -/
def State.slotWrite (s : State) (i v : Nat) : Attempt State := do
  let m ← memWrite s.arena (s.slotAddr i) s.npr v
  pure (s.setArena m)

end Sys2Proof.Machine
end

