-- ==== Sys2Proof/Machine/Flags.lean ====
section
/-! DEFINITION. The adder and every flag computation (41_signmode.md R145, R148, R153, R156). -/

namespace Sys2Proof.Machine

/-- A result pattern with the carry and the overflow that go with it. -/
structure Sum where
  r : Nat
  c : Bool
  g : Bool
deriving DecidableEq, Repr

/-- Same-sign operands and a result of the other sign at width `w` (41_signmode.md R148). -/
def signOverflow (w a b r : Nat) : Bool :=
  let signMask := 2 ^ (w - 1)
  (a &&& signMask) == (b &&& signMask) && (r &&& signMask) != (a &&& signMask)

/-- `addw(a, b)` (41_signmode.md R148). FLOAT never reaches it (R140). -/
def addw (mode : Mode) (w a b : Nat) : Sum :=
  let s := a + b
  let mask := 2 ^ w - 1
  let c := decide (s > mask)
  match mode with
  | .uns | .float => ⟨s % 2 ^ w, c, c⟩
  | .twos => ⟨s % 2 ^ w, c, signOverflow w a b (s % 2 ^ w)⟩
  | .ones =>
    let r := if c then s - mask else s
    ⟨r, c, signOverflow w a b r⟩

/-- The carry of a composed subtraction under the parameter `SUB_CARRY` (41_signmode.md R153). -/
def subCarry (p : Params) (carry : Bool) (x y : Nat) : Bool :=
  match p.subCarry with
  | .adder => carry
  | .borrow => y < x

/-- `Y' - X'` with its flags (41_signmode.md R153). FLOAT never reaches it (R140). -/
def subw (p : Params) (mode : Mode) (w x y : Nat) : Sum :=
  let mask := 2 ^ w - 1
  match mode with
  | .uns | .float =>
    if x ≤ y then ⟨y - x, false, false⟩ else ⟨y + 2 ^ w - x, true, true⟩
  | .ones =>
    let a := addw .ones w (x ^^^ mask) y
    ⟨a.r, subCarry p a.c x y, a.g⟩
  | .twos =>
    let a := addw .twos w ((2 ^ w - x) % 2 ^ w) y
    ⟨a.r, subCarry p a.c x y, a.g⟩

/-- The integer arms of NEG: the result and G (41_signmode.md R156). -/
def negw (mode : Mode) (w x : Nat) : Nat × Bool :=
  match mode with
  | .uns | .float => (x, true)
  | .ones => (if x = 0 then 0 else x ^^^ (2 ^ w - 1), false)
  | .twos => ((2 ^ w - x) % 2 ^ w, x == 2 ^ (w - 1))

/-- G of STORE: the number is outside the range of the mode (41_signmode.md R145). -/
def storeOverflow (mode : Mode) (w : Nat) (n : Int) : Bool :=
  n < minInt mode w || maxInt mode w < n

end Sys2Proof.Machine
end

