-- ==== Sys2Proof/Machine/Arith.lean ====
section
/-! DEFINITION. The commands of 41_signmode.md: ADD, SUB, NEG, CMP, INC, DEC, ISZ, STORE, TOINT, TRUNC, SETWS,
SETMODE, WFLAG. -/

namespace Sys2Proof.Machine

/-- ADD: Y + X (R150). -/
def execAdd (s : State) : Host.Outcome State Fault Refusal :=
  perform (fun s => Ending.of s do
    s.requireInteger
    let a := addw s.mode s.ws s.xWord s.yWord
    pure (((s.setC a.c).setG a.g).setOut { Outputs.absent with r := some (val a.r) })) s

/-- SUB: Y − X (R153). -/
def execSub (s : State) : Host.Outcome State Fault Refusal :=
  perform (fun s => Ending.of s do
    s.requireInteger
    let a := subw s.params s.mode s.ws s.xWord s.yWord
    pure (((s.setC a.c).setG a.g).setOut { Outputs.absent with r := some (val a.r) })) s

/-- NEG (R156). -/
def execNeg (s : State) : Host.Outcome State Fault Refusal :=
  perform (fun s => Ending.of s do
    if s.mode = .float then do
      checkFloat s.params s.inp.x
      pure (s.setOut { Outputs.absent with r := some (negateAsFloat s.inp.x) })
    else
      let a := negw s.mode s.ws s.xWord
      pure ((s.setG a.2).setOut { Outputs.absent with r := some (val a.1) })) s

/-- CMP (R159). -/
def execCmp (s : State) : Host.Outcome State Fault Refusal :=
  perform (fun s => Ending.of s do
    if s.mode = .float then do
      checkFloat s.params s.inp.x
      checkFloat s.params s.inp.y
      pure (s.setOut { Outputs.absent with ord := some (floatCompare s.inp.x s.inp.y) })
    else
      let a := s.toInt s.inp.x.toNat
      let b := s.toInt s.inp.y.toNat
      let o := if a < b then Ordering.lt else if a = b then .eq else .gt
      pure (s.setOut { Outputs.absent with ord := some o })) s

/-- The stepped value of INC and DEC, for `k` = ±1 (R161, R162): the result of a command on port X. -/
def stepX (k : Int) (s : State) : Ending :=
  Ending.of s do
    if s.mode = .float then do
      checkFloat s.params s.inp.x
      pure (s.setOut { Outputs.absent with r := some (floatIncr s.params s.inp.x k) })
    else
      pure (s.setOut { Outputs.absent with r := some (val (s.encode (s.toInt s.inp.x.toNat + k))) })

/-- INC (R161). -/
def execInc (s : State) : Host.Outcome State Fault Refusal := perform (stepX 1) s

/-- DEC (R162). -/
def execDec (s : State) : Host.Outcome State Fault Refusal := perform (stepX (-1)) s

/-- ISZ (R164). -/
def execIsz (s : State) : Host.Outcome State Fault Refusal :=
  perform (fun s => Ending.of s do
    if s.mode = .float then do
      checkFloat s.params s.inp.x
      pure (s.setOut { Outputs.absent with z := some (floatIsZero s.inp.x) })
    else
      pure (s.setOut { Outputs.absent with z := some (isZeroW s.mode s.ws s.inp.x.toNat) })) s

/-- STORE (R145). -/
def execStore (s : State) : Host.Outcome State Fault Refusal :=
  perform (fun s => Ending.of s do
    s.requireInteger
    pure ((s.setG (storeOverflow s.mode s.ws s.inp.n)).setOut
      { Outputs.absent with r := some (val (s.encode s.inp.n)) })) s

/-- TOINT (R146). -/
def execToint (s : State) : Host.Outcome State Fault Refusal :=
  perform (fun s => Ending.of s do
    s.requireInteger
    pure (s.setOut { Outputs.absent with int := some (s.toInt s.inp.x.toNat) })) s

/-- TRUNC (R166). -/
def execTrunc (s : State) : Host.Outcome State Fault Refusal :=
  perform (fun s => .ok (s.setOut { Outputs.absent with r := some (changeBitSize s.inp.x s.ws) })) s

/-- SETWS (R170). -/
def execSetws (w : BitVec 7) (s : State) : Host.Outcome State Fault Refusal :=
  perform (fun s => Ending.of s do
    require (s.mode != .float) (.refuse .wordSizeInFloat)
    require (1 ≤ w.toNat ∧ w.toNat ≤ 64) (.err .bitIndex)
    pure (s.setWs w.toNat)) s

/-- SETMODE (R171). -/
def execSetmode (m : Mode) (s : State) : Host.Outcome State Fault Refusal :=
  perform (fun s => .ok (if m = .float then (s.setMode m).setWs 56 else s.setMode m)) s

/-- WFLAG (R175). -/
def execWflag (f : Flag) (v : Bool) (s : State) : Host.Outcome State Fault Refusal :=
  perform (fun s => .ok (match f with
    | .c => s.setC v
    | .g => s.setG v)) s

end Sys2Proof.Machine
end

