-- ==== Sys2Proof/Machine/Codec.lean ====
section
/-! DEFINITION. The codec commands of 40_value_bcd.md: FENC, FDEC, FEXP, FCHK. They act in every mode. -/

namespace Sys2Proof.Machine

/-- FENC (R115). -/
def execFenc (s : State) : Host.Outcome State Fault Refusal :=
  perform (fun s => .ok (s.setOut { Outputs.absent with r := some (fromDouble s.params s.inp.dblIn) })) s

/-- FDEC (R116). -/
def execFdec (s : State) : Host.Outcome State Fault Refusal :=
  perform (fun s => Ending.of s do
    checkFloat s.params s.inp.x
    pure (s.setOut { Outputs.absent with dblOut := some (asDouble s.params s.inp.x) })) s

/-- FEXP (R117). -/
def execFexp (s : State) : Host.Outcome State Fault Refusal :=
  perform (fun s => Ending.of s do
    let e ← floatExp s.inp.x
    pure (s.setOut { Outputs.absent with exp := some e })) s

/-- FCHK (R118). -/
def execFchk (s : State) : Host.Outcome State Fault Refusal :=
  perform (fun s => Ending.of s do
    checkFloat s.params s.inp.x
    pure (s.setOut { Outputs.absent with z := some true })) s

end Sys2Proof.Machine
end

