-- ==== Sys2Proof/Machine/Program.lean ====
section
/-! DEFINITION. The commands of 43_program_memory.md: PRESET, INSERT, DELETE, SETLINE, READLINE; and how a test
places one line where the next run step fetches it. -/

namespace Sys2Proof.Machine

/-- The stored size of a line's bytes in nybbles (R234). -/
def storedSize (bs : List Byte) : Nat := 2 * bs.length

/-- The bytes of a line written from `a`, each high nybble first (20_memory.md R56). -/
def writeBytes (m : Memory) : Nat → List Byte → Attempt Memory
  | _, [] => .ok m
  | a, b :: bs => do
    let m' ← memWrite m a 2 b.toNat
    writeBytes m' (a + 2) bs

/-- The program with a line's bytes put in at address `a` (R236): the tail moves up, the bytes are written, the
counts and the cache follow. -/
def insertAt (s : State) (a : Nat) (bs : List Byte) : Attempt State := do
  let m ← writeBytes (s.arena.moveUp a (storedSize bs) (s.progSize - a)) a bs
  let ext := if storedSize bs = 4 then s.ext + 1 else s.ext
  pure ((((s.setArena m).setLines (s.lines + 1)).setExt ext).setCache LineCache.start)

/-- The line INSERT puts its opcode on: the one after the cursor. With the cursor past the last line R231 gives that
line no address, and INSERT takes the cursor to be on a free line of 0..lines, so that the new line is one of
1..lines+1: R231 has every edit keep the lines whole (DESIGN CHOICE, notes/assumptions/9.md). -/
def State.insertPoint (s : State) : Nat :=
  if s.cur ≤ s.lines then s.cur + 1 else 1 + Config.staleLine s.freeCtr % (s.lines + 1)

/-- The line DELETE takes out: the one the cursor is on. R231 gives line `lines + 1` the address `P`; past that it
gives none, and DELETE takes the cursor to be on a free line of 1..lines (DESIGN CHOICE,
notes/assumptions/9.md). -/
def State.deletePoint (s : State) : Nat :=
  if s.cur ≤ s.lines + 1 then s.cur else 1 + Config.staleLine s.freeCtr % s.lines

/-- The counter after an edit: with the cursor past the last line an edit uses up one free value. -/
def State.ctrAfterEdit (s : State) : Nat := if s.cur ≤ s.lines then s.freeCtr else s.freeCtr + 1

/-- INSERT (R236). The cursor goes to the new line, which is the line after it. -/
def insertLine (opc : Opcode) (s : State) : Attempt State := do
  require (opc.toNat ≤ 0x1FE) (.refuse .reservedEncoding)
  let bs := storedBytes opc
  require (s.progSize + storedSize bs ≤ arenaSize) (.err .progAddr)
  let a ← s.lineAddr s.insertPoint
  let t ← insertAt s a bs
  pure (((t.setCur s.insertPoint).setDirty true).setFreeCtr s.ctrAfterEdit)

/-- INSERT opc (R236). -/
def execInsert (opc : Opcode) (s : State) : Host.Outcome State Fault Refusal :=
  perform (fun s => Ending.of s (insertLine opc s)) s

/-- The width of the line at `a`, as DELETE reads it (R238). At `P = 406` the byte that says it is not there, and
the width is a free one (DESIGN CHOICE, notes/assumptions/9.md). -/
def State.deleteWidth (s : State) (a : Nat) : Nat :=
  if a + 2 ≤ arenaSize then lineWidth s.arena a else if Config.staleWidth s.freeCtr then 4 else 2

/-- The program without the line at address `a` (R238): the tail moves down, the vacated nybbles are zeroed, the
counts and the cache follow. The line at `gone` leaves the count `ext`. It is the line at `a`, but that with the cursor
on line `lines + 1` it is the last line, because R231 has every edit keep `ext` exact (10_state.md R29); and there the
zero-fill starts at 0 where `P - sz` is negative (DESIGN CHOICE for both, notes/assumptions/9.md). -/
def deleteAt (s : State) (a gone : Nat) : State :=
  let sz := s.deleteWidth a
  let p := s.progSize
  let m := (s.arena.moveDown a sz (p - sz - a)).zero (p - sz) (p - (p - sz))
  let ext := if lineWidth s.arena gone = 4 then s.ext - 1 else s.ext
  (((s.setArena m).setLines (s.lines - 1)).setExt ext).setCache LineCache.start

/-- DELETE (R238). The cursor goes to the line before the one taken out. -/
def deleteLine (s : State) : Attempt State := do
  require (s.lines != 0 && s.cur != 0) (.err .progAddr)
  requireArena s.progSize
  let a ← s.lineAddr s.deletePoint
  let gone ← s.lineAddr (min s.deletePoint s.lines)
  pure ((((deleteAt s a gone).setCur (s.deletePoint - 1)).setDirty true).setFreeCtr s.ctrAfterEdit)

/-- DELETE (R238). -/
def execDelete (s : State) : Host.Outcome State Fault Refusal :=
  perform (fun s => Ending.of s (deleteLine s)) s

/-- The program and the return stack emptied: what PRESET (R240) does to them, but for the arena. -/
def State.clearProgram (s : State) : State :=
  (((((s.setLines 0).setExt 0).setCur 0).setRsp (-1)).setRs (List.replicate s.params.cap 0)).setCache
    LineCache.start

/-- PRESET (R240). -/
def execPreset (s : State) : Host.Outcome State Fault Refusal :=
  perform (fun s => Ending.of s do
    requireArena s.progSize
    pure ((s.setArena (s.arena.zero 0 s.progSize)).clearProgram.setDirty true)) s

/-- SETLINE (R242). -/
def execSetline (n : BitVec 8) (s : State) : Host.Outcome State Fault Refusal :=
  perform (fun s => Ending.of s do
    require (n.toNat ≤ s.lines) (.err .progAddr)
    pure (s.setCur n.toNat)) s

/-- READLINE (R244). The resolution moves the cache (R232). -/
def execReadline (n : BitVec 8) (s : State) : Host.Outcome State Fault Refusal :=
  perform (fun s => Ending.of s do
    require (1 ≤ n.toNat ∧ n.toNat ≤ s.lines) (.err .progAddr)
    let op ← s.opcodeAt n.toNat
    pure ((s.touch n.toNat).setOut { Outputs.absent with opc := some op })) s

/-- The bytes of the line whose first byte is `b0`; `b1` is its second byte if it has one. -/
def lineBytes (b0 b1 : Nat) : List Byte :=
  if BitVec.ofNat 8 b0 = 0xFF then [0xFF, BitVec.ofNat 8 b1] else [BitVec.ofNat 8 b0]

/-- One line's bytes placed where the next RUNSTEP fetches it: after the cursor, or, where they do not fit there,
as the only line of the program (notes/assumptions/11.md). -/
def State.placeLine (s : State) (bs : List Byte) : State :=
  let atCursor : Attempt State := do
    require (decide (s.cur ≤ s.lines) && decide (s.progSize + storedSize bs ≤ arenaSize)) (.err .progAddr)
    let a ← s.lineAddr (s.cur + 1)
    insertAt s a bs
  match atCursor with
  | .ok t => t
  | .error _ =>
    let e := (((s.setArena (s.arena.zero 0 (min s.progSize arenaSize))).setLines 0).setExt 0).setCur 0
    match insertAt e 0 bs with
    | .ok t => t
    | .error _ => s

end Sys2Proof.Machine
end

