-- ==== Sys2Proof/Machine/Control.lean ====
section
/-! DEFINITION. The commands of 44_control_flow.md: STEP, SKIPIF, SKIPFLAG, GOTO, GOSUB and their I forms, RTN, RUN,
RUNSTEP; and the stored lines RUNSTEP executes. -/

namespace Sys2Proof.Machine

/-! ### Cursor and skips -/

/-- STEP (R261). -/
def execStep (s : State) : Host.Outcome State Fault Refusal :=
  perform (fun s => .ok (s.setCur (s.inc s.cur))) s

/-- SKIPIF b (R262). -/
def execSkipif (b : Bool) (s : State) : Host.Outcome State Fault Refusal :=
  perform (fun s => .ok (s.doNextIf b)) s

/-- SKIPFLAG f (R263). -/
def execSkipflag (f : Flag) (s : State) : Host.Outcome State Fault Refusal :=
  perform (fun s => .ok (s.doNextIf (match f with
    | .c => s.c
    | .g => s.g))) s

/-! ### Labels -/

/-- Candidate `k` of the label scan, for `lines >= 1` (R266): `((cur + k - 1) mod lines) + 1`. -/
def State.candidate (s : State) (k : Nat) : Nat := (s.cur + k + s.lines - 1) % s.lines + 1

/-- The scan over `n` candidates from candidate `k` (R266). -/
def scanFrom (s : State) (lbl : Label) : Nat → Nat → Attempt Nat
  | 0, _ => .error (.err .progAddr)
  | n + 1, k => do
    let op ← s.opcodeAt (s.candidate k)
    if s.params.classOf op = .label lbl then pure (s.candidate k)
    else scanFrom s lbl n (k + 1)

/-- `scan(n)` (R266): candidates 0..lines, none when the program is empty. -/
def State.scan (s : State) (lbl : Label) : Attempt Nat :=
  if s.lines = 0 then .error (.err .progAddr) else scanFrom s lbl (s.lines + 1) 0

/-- `cur <- scan(n)` (R267); the resolution of the line moves the cache (43_program_memory.md R232). -/
def State.jump (s : State) (lbl : Label) : Attempt State := do
  let l ← s.scan lbl
  pure ((s.touch l).setCur l)

/-- GOTO with its label given by `target` (R267). -/
def gotoTarget (target : State → Attempt Label) (s : State) : Ending :=
  Ending.of s do
    let n ← target s
    s.jump n

/-- The push of GOSUB (R268, R276): from underflow nothing is recorded. -/
def State.pushCall (s : State) : State :=
  if s.rsp = -1 then s.setRsp 0
  else (s.setRsp (s.rsp + 1)).setRs (s.rs.set (s.rsp + 1).toNat s.cur)

/-- GOSUB with its label given by `target` (R268): the push stays when the label is not found. -/
def gosubTarget (target : State → Attempt Label) (s : State) : Ending :=
  if s.rsp = (s.params.cap : Int) - 1 then .err .stackOverflow s
  else gotoTarget target s.pushCall

/-- GOTO lbl (R267). -/
def execGoto (lbl : Label) (s : State) : Host.Outcome State Fault Refusal :=
  perform (gotoTarget (fun _ => .ok lbl)) s

/-- GOTO I (R265, R267). -/
def execGotoI (s : State) : Host.Outcome State Fault Refusal :=
  perform (gotoTarget State.labelFromI) s

/-- GOSUB lbl (R268). -/
def execGosub (lbl : Label) (s : State) : Host.Outcome State Fault Refusal :=
  perform (gosubTarget (fun _ => .ok lbl)) s

/-- GOSUB I (R265, R268). -/
def execGosubI (s : State) : Host.Outcome State Fault Refusal :=
  perform (gosubTarget State.labelFromI) s

/-! ### Return and run -/

/-- RTN (R269, R276). The saved line is popped as it stands, past the last line too: so in the pseudocode and in vector
18 of V-CF, from reset with `rs[1] = 3` (R340; notes/assumptions/9.md). -/
def returnCall (s : State) : Ending :=
  if 0 < s.rsp then .ok ((s.setCur (s.rs.getD s.rsp.toNat 0)).setRsp (s.rsp - 1))
  else .ok (((s.setCur 0).setRsp (-1)).setOut { Outputs.absent with halt := some true })

/-- RTN (R269). -/
def execRtn (s : State) : Host.Outcome State Fault Refusal := perform returnCall s

/-- RUN (R270). -/
def execRun (s : State) : Host.Outcome State Fault Refusal :=
  perform (fun s => .ok (if s.rsp = -1 then s.setRsp 0 else s)) s

/-! ### Stored lines (R272)

Each is the execution of the line at the cursor; RUNSTEP moves the cursor there first. -/

/-- LBL n: nothing. -/
def lineLbl (_n : Label) (s : State) : Ending := .ok s

/-- GTO n: GOTO with `ind = 0` (R267). -/
def lineGto (n : Label) (s : State) : Ending := gotoTarget (fun _ => .ok n) s

/-- GSB n: GOSUB with `ind = 0` (R268). -/
def lineGsb (n : Label) (s : State) : Ending := gosubTarget (fun _ => .ok n) s

/-- RTN (R269). -/
def lineRtn (s : State) : Ending := returnCall s

/-- GTO I: GOTO with `ind = 1` (R267). -/
def lineGtoI (s : State) : Ending := gotoTarget State.labelFromI s

/-- GSB I: GOSUB with `ind = 1` (R268). -/
def lineGsbI (s : State) : Ending := gosubTarget State.labelFromI s

/-- An Other line: its opcode goes to the host (R272, R274). -/
def dispatchOpcode (op : Opcode) (s : State) : Ending :=
  .ok (s.setOut { Outputs.absent with opc := some op, dispatch := some true })

/-- OP (PM1): the opcode is the byte (30_encoding.md R76). -/
def lineOpPM1 (o : Byte) (s : State) : Ending := dispatchOpcode (BitVec.ofNat 9 o.toNat) s

/-- OP (PM2): the opcode is 0xFF and the operand byte (30_encoding.md R76). -/
def lineOpPM2 (o : Byte) (s : State) : Ending := dispatchOpcode (BitVec.ofNat 9 (0xFF + o.toNat)) s

def execLblN (n : Label) (s : State) : Host.Outcome State Fault Refusal := perform (lineLbl n) s

def execGtoN (n : Label) (s : State) : Host.Outcome State Fault Refusal := perform (lineGto n) s

def execGsbN (n : Label) (s : State) : Host.Outcome State Fault Refusal := perform (lineGsb n) s

def execRtnStored (s : State) : Host.Outcome State Fault Refusal := perform lineRtn s

def execGtoStoredI (s : State) : Host.Outcome State Fault Refusal := perform lineGtoI s

def execGsbStoredI (s : State) : Host.Outcome State Fault Refusal := perform lineGsbI s

def execOpPM1 (o : Byte) (s : State) : Host.Outcome State Fault Refusal := perform (lineOpPM1 o) s

def execOpPM2 (o : Byte) (s : State) : Host.Outcome State Fault Refusal := perform (lineOpPM2 o) s

/-! ### Run step -/

/-- The execution of a line whose opcode is `op`, by its class (R271, R272). -/
def runLine (op : Opcode) (s : State) : Ending :=
  match s.params.classOf op with
  | .label n => lineLbl n s
  | .goto n => lineGto n s
  | .gosub n => lineGsb n s
  | .gotoI => lineGtoI s
  | .gosubI => lineGsbI s
  | .rtn => lineRtn s
  | .other =>
    if op.toNat ≤ 0xFE then lineOpPM1 (BitVec.ofNat 8 op.toNat) s
    else lineOpPM2 (BitVec.ofNat 8 (op.toNat - 0xFF)) s

/-- A failing command leaves the cache as it was (notes/assumptions/8.md). -/
def Ending.restoreCache (k : LineCache) : Ending → Ending
  | .err c t => .err c (t.setCache k)
  | .ok t => .ok t
  | .refuse r => .refuse r
  | .fault f => .fault f

/-- RUNSTEP's effect (R272, R273): the increment, which stays when the line fails, then the phantom RTN at line 0
or the line at the cursor. -/
def runStep (s : State) : Ending :=
  let t := s.setCur (s.inc s.cur)
  if t.cur = 0 then lineRtn t
  else
    match t.opcodeAt t.cur with
    | .error e => Ending.of t (.error e)
    | .ok op => (runLine op (t.touch t.cur)).restoreCache s.cache

/-- RUNSTEP (R272). -/
def execRunstep (s : State) : Host.Outcome State Fault Refusal := perform runStep s

end Sys2Proof.Machine
end

