-- ==== Sys2Proof/Machine/Registers.lean ====
section
/-! DEFINITION. The commands of 42_registers.md: RREG, WREG and their (i) forms, RI, WI, CLRREG, ISZI, DSZI, ISZIND,
DSZIND. -/

namespace Sys2Proof.Machine

/-- RREG after the index is known (R201). -/
def readRegister (s : State) (i : Option Nat) : Attempt State := do
  let i ← s.checkReg i
  let v ← s.slotRead i
  if s.mode = .float then checkFloat s.params (val v)
  pure (s.setOut { Outputs.absent with r := some (val (v % 2 ^ s.ws)) })

/-- WREG after the index is known (R202). -/
def writeRegister (s : State) (i : Option Nat) : Attempt State := do
  let i ← s.checkReg i
  let t ← s.slotWrite i s.xWord
  pure (t.setDirty true)

/-- RREG idx (R201). -/
def execRreg (idx : BitVec 9) (s : State) : Host.Outcome State Fault Refusal :=
  perform (fun s => Ending.of s (readRegister s (some idx.toNat))) s

/-- RREG (i) (R201, R203). -/
def execRregI (s : State) : Host.Outcome State Fault Refusal :=
  perform (fun s => Ending.of s do
    let i ← s.iaddr
    readRegister s i) s

/-- WREG idx (R202). -/
def execWreg (idx : BitVec 9) (s : State) : Host.Outcome State Fault Refusal :=
  perform (fun s => Ending.of s (writeRegister s (some idx.toNat))) s

/-- WREG (i) (R202, R203). -/
def execWregI (s : State) : Host.Outcome State Fault Refusal :=
  perform (fun s => Ending.of s do
    let i ← s.iaddr
    writeRegister s i) s

/-- RI (R204). -/
def execRi (s : State) : Host.Outcome State Fault Refusal :=
  perform (fun s => .ok (s.setOut { Outputs.absent with r := some (changeBitSize s.ireg s.ws) })) s

/-- What WI puts in I (R205). -/
def State.indexOfX (s : State) : Value :=
  if s.mode = .float then changeBitSize s.inp.x 56
  else val (encodeW s.mode idxWidth (s.toInt s.inp.x.toNat))

/-- WI (R205). -/
def execWi (s : State) : Host.Outcome State Fault Refusal :=
  perform (fun s => .ok ((s.setIreg s.indexOfX).setDirty true)) s

/-- CLRREG (R206). -/
def execClrreg (s : State) : Host.Outcome State Fault Refusal :=
  perform (fun s =>
    .ok (((s.setArena (s.arena.zero s.progSize (arenaSize - s.progSize))).setIreg 0).setDirty true)) s

/-- ISZI and DSZI, for `k` = ±1 (R208, R209). -/
def stepIndex (k : Int) (s : State) : Ending :=
  Ending.of s do
    if s.mode = .float then do
      checkFloat s.params s.ireg
      let i := floatIncr s.params s.ireg k
      pure (((s.setIreg i).setDirty true).doNextIf (!floatIsZero i))
    else
      let i := encodeW s.mode idxWidth (toIntW s.mode idxWidth s.ireg.toNat + k)
      pure (((s.setIreg (val i)).setDirty true).doNextIf (!isZeroW s.mode idxWidth i))

/-- ISZI (R208). -/
def execIszi (s : State) : Host.Outcome State Fault Refusal := perform (stepIndex 1) s

/-- DSZI (R209). -/
def execDszi (s : State) : Host.Outcome State Fault Refusal := perform (stepIndex (-1)) s

/-- ISZIND and DSZIND, for `k` = ±1 (R210, R211). -/
def stepIndirect (k : Int) (s : State) : Ending :=
  Ending.of s do
    let i ← s.iaddr
    let i ← s.checkReg i
    let v ← s.slotRead i
    if s.mode = .float then do
      checkFloat s.params (val v)
      let v' := floatIncr s.params (val v) k
      let t ← s.slotWrite i (v'.toNat % 2 ^ s.ws)
      pure ((t.setDirty true).doNextIf (!floatIsZero v'))
    else
      let v' := s.encode (s.toInt v + k)
      let t ← s.slotWrite i (v' % 2 ^ s.ws)
      pure ((t.setDirty true).doNextIf (!isZeroW s.mode s.ws v'))

/-- ISZIND (R210). -/
def execIszind (s : State) : Host.Outcome State Fault Refusal := perform (stepIndirect 1) s

/-- DSZIND (R211). -/
def execDszind (s : State) : Host.Outcome State Fault Refusal := perform (stepIndirect (-1)) s

end Sys2Proof.Machine
end

