-- ==== Sys2Proof/Machine/Dispatch.lean ====
section
/-! DEFINITION. The dispatch: each instruction's one meaning. -/

namespace Sys2Proof.Machine

def exec (i : Instr) (s : State) : Host.Outcome State Fault Refusal :=
  match i with
  | .add => Sys2Proof.Machine.execAdd s
  | .sub => Sys2Proof.Machine.execSub s
  | .neg => Sys2Proof.Machine.execNeg s
  | .cmp => Sys2Proof.Machine.execCmp s
  | .inc => Sys2Proof.Machine.execInc s
  | .dec => Sys2Proof.Machine.execDec s
  | .isz => Sys2Proof.Machine.execIsz s
  | .store => Sys2Proof.Machine.execStore s
  | .toint => Sys2Proof.Machine.execToint s
  | .trunc => Sys2Proof.Machine.execTrunc s
  | .setws w => Sys2Proof.Machine.execSetws w s
  | .setmode m => Sys2Proof.Machine.execSetmode m s
  | .wflag f v => Sys2Proof.Machine.execWflag f v s
  | .skipflag f => Sys2Proof.Machine.execSkipflag f s
  | .fenc => Sys2Proof.Machine.execFenc s
  | .fdec => Sys2Proof.Machine.execFdec s
  | .fexp => Sys2Proof.Machine.execFexp s
  | .fchk => Sys2Proof.Machine.execFchk s
  | .rreg idx => Sys2Proof.Machine.execRreg idx s
  | .rregI => Sys2Proof.Machine.execRregI s
  | .wreg idx => Sys2Proof.Machine.execWreg idx s
  | .wregI => Sys2Proof.Machine.execWregI s
  | .ri => Sys2Proof.Machine.execRi s
  | .wi => Sys2Proof.Machine.execWi s
  | .clrreg => Sys2Proof.Machine.execClrreg s
  | .iszi => Sys2Proof.Machine.execIszi s
  | .dszi => Sys2Proof.Machine.execDszi s
  | .iszind => Sys2Proof.Machine.execIszind s
  | .dszind => Sys2Proof.Machine.execDszind s
  | .preset => Sys2Proof.Machine.execPreset s
  | .insert opc => Sys2Proof.Machine.execInsert opc s
  | .delete => Sys2Proof.Machine.execDelete s
  | .setline n => Sys2Proof.Machine.execSetline n s
  | .readline n => Sys2Proof.Machine.execReadline n s
  | .step => Sys2Proof.Machine.execStep s
  | .skipif b => Sys2Proof.Machine.execSkipif b s
  | .goto lbl => Sys2Proof.Machine.execGoto lbl s
  | .gotoI => Sys2Proof.Machine.execGotoI s
  | .gosub lbl => Sys2Proof.Machine.execGosub lbl s
  | .gosubI => Sys2Proof.Machine.execGosubI s
  | .rtn => Sys2Proof.Machine.execRtn s
  | .run => Sys2Proof.Machine.execRun s
  | .runstep => Sys2Proof.Machine.execRunstep s
  | .lblN n => Sys2Proof.Machine.execLblN n s
  | .gtoN n => Sys2Proof.Machine.execGtoN n s
  | .gsbN n => Sys2Proof.Machine.execGsbN n s
  | .rtnStored => Sys2Proof.Machine.execRtnStored s
  | .gtoStoredI => Sys2Proof.Machine.execGtoStoredI s
  | .gsbStoredI => Sys2Proof.Machine.execGsbStoredI s
  | .opPM1 o => Sys2Proof.Machine.execOpPM1 o s
  | .opPM2 o => Sys2Proof.Machine.execOpPM2 o s

end Sys2Proof.Machine
end

