-- ==== Sys2Proof/Machine/Persist.lean ====
section
/-! DEFINITION. The persistence interface: LOAD and SAVE (70_reset_and_hazards.md R333 to R336), and Value JSON, the
format for a host (R337). -/

namespace Sys2Proof.Machine

/-! ### Hexadecimal text -/

/-- The value of a hexadecimal digit, in either case (R333). -/
def hexDigit? (ch : Char) : Option Nat :=
  let n := ch.toNat
  if 48 ≤ n ∧ n ≤ 57 then some (n - 48)
  else if 65 ≤ n ∧ n ≤ 70 then some (n - 55)
  else if 97 ≤ n ∧ n ≤ 102 then some (n - 87)
  else none

/-- The digits of a text, none where a character is no hexadecimal digit. -/
def hexDigits? : Text → Option (List Nat)
  | [] => some []
  | ch :: t =>
    match hexDigit? ch, hexDigits? t with
    | some d, some ds => some (d :: ds)
    | _, _ => none

/-- The big-endian value of hexadecimal digits. -/
def hexValue (ds : List Nat) : Nat := ds.foldl (fun n d => 16 * n + d) 0

/-- The uppercase character of a digit (R336). -/
def hexChar (d : Nat) : Char := Char.ofNat (if d < 10 then 48 + d else 55 + d)

/-- The low `k` hexadecimal digits of `n`, most significant first. -/
def hexDigitsOf : Nat → Nat → List Nat
  | 0, _ => []
  | k + 1, n => hexDigitsOf k (n / 16) ++ [n % 16]

/-- `n` below 2^68 in uppercase hexadecimal without leading zeros, "0" for zero (R336). -/
def hexText (n : Nat) : Text :=
  match (hexDigitsOf 17 n).dropWhile (· == 0) with
  | [] => ['0']
  | ds => ds.map hexChar

/-- The arena of a list of nybbles from address `a` up, in canonical form. -/
def Memory.ofNybbles : Nat → List Nat → Memory
  | _, [] => []
  | a, d :: ds =>
    if d % 16 = 0 then Memory.ofNybbles (a + 1) ds
    else (a, BitVec.ofNat 4 d) :: Memory.ofNybbles (a + 1) ds

/-! ### LOAD -/

/-- An integer field within bounds (R334). -/
def JsonNum.within (lo hi : Int) : JsonNum → Option Int
  | .int n => if lo ≤ n ∧ n ≤ hi then some n else none
  | .notInt => none

/-- The replay of `n` lines from address `a` with `e` extended lines so far (R334): the address after them and
the count, none where a line does not fit in the arena. -/
def replay (m : Memory) : Nat → Nat → Nat → Option (Nat × Nat)
  | 0, a, e => some (a, e)
  | n + 1, a, e =>
    if arenaSize < a + 2 then none
    else if lineWidth m a = 4 then
      if arenaSize < a + 4 then none else replay m n (a + 4) (e + 1)
    else replay m n (a + 2) e

/-- The return stack of an image: `CAP` integers, each in 0..203 (R334). -/
def stackOf (cap : Nat) (xs : List JsonNum) : Option (List Nat) :=
  if xs.length = cap then
    xs.mapM (fun x => (x.within 0 maxLines).map Int.toNat)
  else none

/-- `lines`, `ext`, `currentLine`, `returnStack` and `returnStackPos` of a valid program, none where
`validProgram` is false (R334). -/
def validProgram (p : Params) (m : Memory) (img : Image) : Option (Nat × Nat × Nat × List Nat × Int) := do
  let lines ← img.lines.within 0 maxLines
  let (_, e) ← replay m lines.toNat 0 0
  let cur ← img.currentLine.within 0 lines
  let rsp ← img.returnStackPos.within (-1) ((p.cap : Int) - 1)
  let xs ← img.returnStack
  let rs ← stackOf p.cap xs
  pure (lines.toNat, e, cur.toNat, rs, rsp)

/-- The two stages of LOAD after the raw strings are read (R333, R334): the program, or the rollback. -/
def loadProgram (img : Image) (s : State) : State :=
  match validProgram s.params s.arena img with
  | some (lines, ext, cur, rs, rsp) =>
    (((((((s.setLines lines).setExt ext).setCur cur).setRs rs).setRsp rsp).setCache LineCache.start).setDirty
      false).setOut { Outputs.absent with load := some .loaded }
  | none =>
    (s.clearProgram.setDirty true).setOut { Outputs.absent with load := some .rolledBack }

/-- LOAD(img) (R333). -/
def loadImage (img : Image) (s : State) : State :=
  match hexDigits? img.storage, hexDigits? img.index with
  | some ds, some is =>
    if ds.length = arenaSize ∧ 1 ≤ is.length ∧ is.length ≤ 17 then
      loadProgram img ((s.setArena (Memory.ofNybbles 0 ds)).setIreg (BitVec.ofNat 68 (hexValue is)))
    else s.setOut { Outputs.absent with load := some .rejected }
  | _, _ => s.setOut { Outputs.absent with load := some .rejected }

/-! ### SAVE -/

/-- The persisted image of a state (R336). -/
def State.image (s : State) : Image where
  storage := (List.range arenaSize).map (fun a => hexChar (s.arena.get a).toNat)
  lines := .int s.lines
  currentLine := .int s.cur
  returnStack := some (s.rs.map fun l : Nat => JsonNum.int l)
  returnStackPos := .int s.rsp
  index := hexText s.ireg.toNat

/-- SAVE() (R336). -/
def saveImage (s : State) : State :=
  (s.setDirty false).setOut { Outputs.absent with image := some s.image }

/-! ### Value JSON -/

/-- A Value as a plain hexadecimal string (R337): uppercase, without leading zeros (DESIGN CHOICE,
notes/assumptions/13.md). -/
def valueToJson (v : Value) : Text := hexText v.toNat

/-- A Value JSON string read under a maximum (R337), in either case: none where it is rejected. The empty string is
rejected (DESIGN CHOICE, notes/assumptions/13.md). -/
def valueOfJson (maximum : Nat) (t : Text) : Option Nat :=
  match hexDigits? t with
  | some [] => none
  | some ds => if hexValue ds ≤ maximum then some (hexValue ds) else none
  | none => none

end Sys2Proof.Machine
end

