-- ==== Sys2Proof/Machine/Step.lean ====
section
/-! DEFINITION. One step of the machine: the host's next operation (10_state.md R38, 20_memory.md R61), and the
placing of one instruction where the next step runs it. -/

namespace Sys2Proof.Machine

/-- The command on port CMD: decoded first (60_exceptions.md R306), refused where it is no instruction
(30_encoding.md R73), executed otherwise. -/
def stepCommand (s : State) : Host.Outcome State Fault Refusal :=
  match decodeCommand s.inp.cmd with
  | .ok i => exec i s
  | .error _ => .next (s.reportRefusal .reservedEncoding)

/-- One step. With nothing pending the state is held and the outputs, valid for one step (10_state.md R39), are
gone (notes/assumptions/4.md). -/
def step (s : State) : Host.Outcome State Fault Refusal :=
  match s.pending with
  | [] => .next (s.setOut Outputs.absent)
  | .command p :: rest => stepCommand ((s.setPending rest).setInp p)
  | .load img :: rest => .next (loadImage img (s.setPending rest))
  | .save :: rest => .next (saveImage (s.setPending rest))

/-- The next operation of the host: this command, on the operand ports as they are. -/
def State.issue (s : State) (w : CmdWord) : State :=
  s.setPending (.command { s.inp with cmd := w } :: s.pending)

/-- The state with the instruction numbered `w` (spec/opcode_table.json) where the next step runs it. A command
word is the host's next command. A stored line is placed after the cursor and the host's next command is
RUNSTEP, which fetches and executes it (notes/assumptions/11.md, notes/assumptions/12.md). -/
def State.withFetchWord (s : State) (nbits w : Nat) : State :=
  if nbits ≤ 8 then (s.placeLine (lineBytes w 0)).issue 0xC8000000
  else if nbits ≤ 16 then (s.placeLine (lineBytes (w / 2 ^ 8) w)).issue 0xC8000000
  else s.issue (BitVec.ofNat 32 w)

end Sys2Proof.Machine
end

