-- ==== Sys2Proof/Safety.lean ====
section
/-! DEFINITION. What claims say of a state and of a run: the invariants of 10_state.md R41, their parts, and the
states that differ in hidden state only. The invariants are decidable, so that a concrete state can be checked. -/

namespace Sys2Proof.Machine

/-! ### Parts of R41 -/

/-- The word size is in 1..64, and is 56 in FLOAT mode (R41). -/
abbrev State.WordOk (s : State) : Prop :=
  1 ≤ s.ws ∧ s.ws ≤ 64 ∧ (s.mode = .float → s.ws = 56)

/-- The return stack has CAP entries, with CAP at least 1, and its pointer is in -1..CAP-1 (R31, R41). -/
abbrev State.StackOk (s : State) : Prop :=
  1 ≤ s.params.cap ∧ s.rs.length = s.params.cap ∧ -1 ≤ s.rsp ∧ s.rsp < s.params.cap

/-- The arena is in canonical form, and the program fits in it (R41: `P <= 406`). -/
abbrev State.ArenaOk (s : State) : Prop :=
  s.arena.wf = true ∧ s.progSize ≤ arenaSize

/-- The stored program is `lines` lines from address 0, of which `ext` are extended, and ends at `P`
(R28, R29; 43_program_memory.md R231). -/
abbrev State.ProgramOk (s : State) : Prop :=
  s.lines ≤ maxLines ∧ replay s.arena s.lines 0 0 = some (s.progSize, s.ext)

/-- The cache holds the address of a line in 1..lines+1 (R36). -/
abbrev State.CacheOk (s : State) : Prop :=
  1 ≤ s.cache.cLine ∧ s.cache.cLine ≤ s.lines + 1 ∧ s.lineAddr s.cache.cLine = .ok s.cache.cAddr

/-! ### Invariants -/

/-- What every step keeps from every state: the word size, the mode, the return-stack pointer, the canonical arena
and the program's size. -/
abbrev State.BoundsOk (s : State) : Prop := s.WordOk ∧ s.StackOk ∧ s.ArenaOk

/-- R41 with R29, R36 and the canonical form, but for `cur <= lines`, which a return to a stale line breaks
(notes/assumptions/9.md). -/
abbrev State.StoreOk (s : State) : Prop :=
  s.BoundsOk ∧ s.ProgramOk ∧ s.CacheOk ∧ ∀ l ∈ s.rs, l ≤ maxLines

/-- R41 whole, with R29, R36 and the canonical form. -/
abbrev State.Inv (s : State) : Prop := s.StoreOk ∧ s.cur ≤ s.lines

/-- The next operation of the host returns to the line `l` that the top of the return stack holds. -/
def State.ReturnsTo (s : State) (l : Nat) : Prop :=
  0 < s.rsp ∧ s.rs[s.rsp.toNat]? = some l ∧
    ∃ p rest, s.pending = .command p :: rest ∧
      (decodeCommand p.cmd = .ok .rtn ∨ decodeCommand p.cmd = .ok .runstep)

/-! ### Words claims use -/

/-- A float that passes `checkFloat` (40_value_bcd.md R120). -/
abbrev FloatOk (p : Params) (v : Value) : Prop :=
  isMatrixDesc p v = false ∧ isLegalFloat v = true

/-- A legality fault of a float: no matrix descriptor, and not legal (40_value_bcd.md R120). -/
abbrev FloatBad (p : Params) (v : Value) : Prop :=
  isMatrixDesc p v = false ∧ isLegalFloat v = false

/-- `r` is the binary64 pattern that `q` rounds to, to nearest, ties to even (40_value_bcd.md R119): it is finite,
no finite pattern is nearer to `q`, and where another value is as near the pattern is even. -/
def IsNearest (r : Double) (q : Rat) : Prop :=
  dblExpField r ≠ 0x7FF ∧
    ∀ d : Double, dblExpField d ≠ 0x7FF →
      |dblValue r - q| ≤ |dblValue d - q| ∧
      (|dblValue r - q| = |dblValue d - q| → dblValue d = dblValue r ∨ r.toNat % 2 = 0)

/-- `r` is `a` stepped by `k` at width `w` (41_signmode.md R161, R162): the next number of the mode, or, past an
end of the range, the pattern the step wraps to. A result of zero is the pattern 0. -/
abbrev Stepped (mode : Mode) (w : Nat) (k : Int) (a r : Nat) : Prop :=
  r < 2 ^ w ∧
  (minInt mode w ≤ toIntW mode w a + k ∧ toIntW mode w a + k ≤ maxInt mode w →
    toIntW mode w r = toIntW mode w a + k ∧ (toIntW mode w a + k = 0 → r = 0)) ∧
  (maxInt mode w < toIntW mode w a + k → r = if mode = .uns then 0 else 2 ^ (w - 1)) ∧
  (toIntW mode w a + k < minInt mode w → r = if mode = .uns then 2 ^ w - 1 else 2 ^ (w - 1) - 1)

/-- The number I denotes as a register address or a label (42_registers.md R207, 44_control_flow.md R265): in an
integer mode its signed reading, in FLOAT mode its value truncated. -/
abbrev State.IndexReads (s : State) (q : Int) : Prop :=
  (s.mode ≠ .float ∧ q = toIntW s.mode 68 s.ireg.toNat) ∨
  (s.mode = .float ∧ FloatOk s.params s.ireg ∧ q = truncRat (floatValue s.ireg))

/-- I names register `i` (42_registers.md R207). -/
abbrev State.NamesRegister (s : State) (i : Nat) : Prop :=
  s.IndexReads i ∧ i < s.params.iaddrLimit

/-- I names label `n` (44_control_flow.md R265); in FLOAT mode a negative value names none, even one that truncates
to 0. -/
abbrev State.NamesLabel (s : State) (n : Label) : Prop :=
  s.IndexReads n.toNat ∧ (s.mode = .float → 0 ≤ floatValue s.ireg)

/-- I names no label (44_control_flow.md R265): its number is outside 0..15. -/
abbrev State.NamesNoLabel (s : State) : Prop :=
  (s.mode ≠ .float ∧ (toIntW s.mode 68 s.ireg.toNat < 0 ∨ 15 < toIntW s.mode 68 s.ireg.toNat)) ∨
  (s.mode = .float ∧ FloatOk s.params s.ireg ∧ (floatValue s.ireg < 0 ∨ 16 ≤ floatValue s.ireg))

/-- The number in register slot `i` (20_memory.md R52). -/
abbrev State.slotValue (s : State) (i : Nat) : Nat := s.arena.readN (arenaSize - (i + 1) * s.npr) s.npr

/-- Candidate `k` of the label scan (44_control_flow.md R266). -/
def State.scanLine (s : State) (k : Nat) : Nat :=
  (((s.cur : Int) + k - 1) % s.lines + 1).toNat

/-- Line `l` carries label `n` (44_control_flow.md R264). -/
def State.LabelAt (s : State) (l : Nat) (n : Label) : Prop :=
  ∃ op, s.opcodeAt l = .ok op ∧ s.params.classOf op = .label n

/-- Line `l` is the first candidate of the scan that carries label `n` (44_control_flow.md R266). -/
def State.FoundAt (s : State) (n : Label) (l : Nat) : Prop :=
  1 ≤ s.lines ∧ ∃ k, k ≤ s.lines ∧ l = s.scanLine k ∧ s.LabelAt l n ∧
    ∀ j, j < k → ¬ s.LabelAt (s.scanLine j) n

/-- No line of the program carries label `n`. -/
def State.NoLabel (s : State) (n : Label) : Prop :=
  ∀ l, 1 ≤ l → l ≤ s.lines → ¬ s.LabelAt l n

/-! ### Hidden state -/

/-- The state without its hidden cache: two states that agree here differ in the cache only (R36). -/
def State.visible (s : State) : State := s.setCache LineCache.start

end Sys2Proof.Machine
end

