-- ==== Sys2Proof/Certificates/Slice0/Obligations.lean ====
section
/-! DEFINITION. The statements for the provers, in the order of OBLIGATIONS.json. Each docstring names the rules of
spec/ it formalises. A result is stated as the whole next state, `{ s with … }`: every field not named there is
unchanged, and that is the instruction's frame. -/

open Sys2Proof Sys2Proof.Machine

/-! ### Encoding (30_encoding.md) -/

/-- R71, R72, R75, R78: decoding the code of a well-formed instruction gives it back. -/
def Obligations.DecodeOfEncode : Prop :=
  ∀ i : Instr, i.wf = true → decode (encode i) = .ok i

/-- R71 to R76: what decodes is the code of the instruction it decodes to, which is well-formed. No two codes
share an instruction and no reserved code has one. -/
def Obligations.EncodeOfDecode : Prop :=
  ∀ (k : Code) (i : Instr), decode k = .ok i → i.wf = true ∧ encode i = k

/-- R73, R74: a word decodes exactly when it is a row of the opcode table, whose match and mask columns stand
here. -/
def Obligations.DecoderFollowsOpcodeTable : Prop :=
  ∀ w : CmdWord,
    (∃ i, decodeCommand w = .ok i) ↔
    (w ∈ ([0x04000000, 0x08000000, 0x0C000000, 0x10000000, 0x14000000, 0x18000000, 0x1C000000, 0x20000000,
        0x24000000, 0x28000000, 0x40000000, 0x44000000, 0x48000000, 0x4C000000, 0x62000000, 0x66000000,
        0x68000000, 0x6C000000, 0x70000000, 0x74000000, 0x78000000, 0x7C000000, 0x80000000, 0x90000000,
        0x98000000, 0xB0000000, 0xBA000000, 0xBE000000, 0xC0000000, 0xC4000000, 0xC8000000] : List CmdWord) ∨
      w &&& 0xFFFFFF80 = 0x2C000000 ∨ w &&& 0xFFFFFFFC = 0x30000000 ∨ w &&& 0xFFFFFFFC = 0x34000000 ∨
      w &&& 0xFFFFFFFE = 0x38000000 ∨ w &&& 0xFFFFFE00 = 0x60000000 ∨ w &&& 0xFFFFFE00 = 0x64000000 ∨
      w &&& 0xFFFFFE00 = 0x94000000 ∨ w &&& 0xFFFFFF00 = 0x9C000000 ∨ w &&& 0xFFFFFF00 = 0xA0000000 ∨
      w &&& 0xFFFFFFFE = 0xB4000000 ∨ w &&& 0xFFFFFFF0 = 0xB8000000 ∨ w &&& 0xFFFFFFF0 = 0xBC000000)

/-- R72's examples, and one line of each stored form of R78. -/
def Obligations.SampleCodesDecode : Prop :=
  decode (.command 0x04000000) = .ok .add ∧
  decode (.command 0x2C000004) = .ok (.setws 4) ∧
  decode (.command 0x64000001) = .ok (.wreg 1) ∧
  decode (.command 0x66000000) = .ok .wregI ∧
  decode (.command 0xB8000002) = .ok (.goto 2) ∧
  decode (.command 0xBE000000) = .ok .gosubI ∧
  decode (.command 0x940001FE) = .ok (.insert 0x1FE) ∧
  decode (.line [0x0F]) = .ok (.lblN 15) ∧
  decode (.line [0x12]) = .ok (.gtoN 2) ∧
  decode (.line [0x23]) = .ok (.gsbN 3) ∧
  decode (.line [0x30]) = .ok .rtnStored ∧
  decode (.line [0x31]) = .ok .gtoStoredI ∧
  decode (.line [0x32]) = .ok .gsbStoredI ∧
  decode (.line [0x40]) = .ok (.opPM1 0x40) ∧
  decode (.line [0xFF, 0xFF]) = .ok (.opPM2 0xFF) ∧
  decode (.command 0x62000001) = .error .indField

/-! ### The step -/

/-- R61, R306: a step takes the host's next command, latches its ports, and executes the instruction its word
decodes to; a word that is no instruction is refused (R73). -/
def Obligations.StepRunsDecodedCommand : Prop :=
  ∀ (s : State) (p : InPorts) (rest : List HostOp), s.pending = .command p :: rest →
    (∀ i, decodeCommand p.cmd = .ok i → step s = exec i { s with pending := rest, inp := p }) ∧
    (∀ e, decodeCommand p.cmd = .error e →
      step s = .next { s with
        pending := rest
        inp := p
        out := { Outputs.absent with refused := some .reservedEncoding } })

/-- R76, R77, R272: a run step at a position other than line 0 runs, on the incremented cursor, the instruction of
the line there: under any opcode map the one the class of its opcode says, and under the reference map the one its
bytes decode to. The increment stays when the line fails; a refusal leaves the state it found (R303), and an error
the cache it found (notes/assumptions/8.md). -/
def Obligations.RunstepRunsStoredLine : Prop :=
  ∀ (s : State) (i : Instr), s.inc s.cur ≠ 0 →
    ((∃ op, s.opcodeAt (s.inc s.cur) = .ok op ∧
        ((∃ n, s.params.classOf op = .label n ∧ i = .lblN n) ∨
          (∃ n, s.params.classOf op = .goto n ∧ i = .gtoN n) ∨
          (∃ n, s.params.classOf op = .gosub n ∧ i = .gsbN n) ∨
          (s.params.classOf op = .gotoI ∧ i = .gtoStoredI) ∨
          (s.params.classOf op = .gosubI ∧ i = .gsbStoredI) ∨
          (s.params.classOf op = .rtn ∧ i = .rtnStored) ∨
          (s.params.classOf op = .other ∧ op.toNat ≤ 0xFE ∧ i = .opPM1 (BitVec.ofNat 8 op.toNat)) ∨
          (s.params.classOf op = .other ∧ 0xFE < op.toNat ∧ i = .opPM2 (BitVec.ofNat 8 (op.toNat - 0xFF))))) ∨
      (s.params.opcodeMap = .standard ∧ ∃ a more, s.lineAddr (s.inc s.cur) = .ok a ∧
        (if s.arena.readN a 2 = 0xFF then a + 4 else a + 2) ≤ 406 ∧
        decodeLine [BitVec.ofNat 8 (s.arena.readN a 2), BitVec.ofNat 8 (s.arena.readN (a + 2) 2)] =
          .ok (i, more))) →
    ∀ t, exec i { s with cur := s.inc s.cur, cache := s.resolve (s.inc s.cur) } = .next t →
      exec .runstep s = .next
        (if t.out.refused.isSome then { s with out := t.out }
         else if t.out.err.isSome then { t with cache := s.cache }
         else t)

/-- R305: STOPREQ changes nothing a command does; only the port itself differs. -/
def Obligations.StopRequestIsUnread : Prop :=
  ∀ (i : Instr) (s : State) (b : Bool),
    (∀ t, exec i s = .next t →
      exec i { s with inp := { s.inp with stopReq := b } } = .next { t with inp := { t.inp with stopReq := b } }) ∧
    (∀ f, exec i s = .fault f → exec i { s with inp := { s.inp with stopReq := b } } = .fault f)

/-- R330: the reset value of every element of state. -/
def Obligations.ResetValues : Prop :=
  State.reset.ws = 16 ∧ State.reset.mode = .twos ∧ State.reset.c = false ∧ State.reset.g = false ∧
  (∀ a, State.reset.arena.get a = 0) ∧ State.reset.ireg = 0 ∧ State.reset.lines = 0 ∧ State.reset.ext = 0 ∧
  State.reset.cur = 0 ∧ State.reset.rs = List.replicate State.reset.params.cap 0 ∧ State.reset.rsp = -1 ∧
  State.reset.cache = ⟨1, 0⟩ ∧ State.reset.dirty = false

/-! ### Invariants (10_state.md R41) -/

/-- R332: from reset every invariant of R41 holds. -/
def Obligations.ResetMeetsInvariant : Prop := State.reset.Inv

/-- R41, the part every step keeps from every state: the word size, the mode, the return-stack pointer, the
canonical arena and `P <= 406`; and no step writes a parameter (R40). -/
def Obligations.StepKeepsBounds : Prop :=
  ∀ s t : State, s.BoundsOk → step s = .next t → t.BoundsOk ∧ t.params = s.params

/-- R41 with the `ext` and cache invariants (R29, R36) and `cur <= 203` in the place of `cur <= lines`: every step keeps
it. The cursor is on a line afterwards unless it was past the last one already or a return went to a saved line past
the last one (R269, R340). That the rules break `cur <= lines` there, and that an edit past the last line keeps the
rest, is the model's reading and choice (notes/assumptions/9.md). -/
def Obligations.StepKeepsStoredProgram : Prop :=
  ∀ s t : State, s.StoreOk → s.cur ≤ maxLines → step s = .next t →
    t.StoreOk ∧ t.cur ≤ maxLines ∧
    (s.cur ≤ s.lines → t.cur ≤ t.lines ∨
      (s.ReturnsTo t.cur ∧ t.rsp = s.rsp - 1 ∧ t.lines = s.lines ∧ t.arena = s.arena))

/-- R342: each command is one step. From a state that meets R41, with the cursor anywhere, a step never stops. -/
def Obligations.EveryStepEnds : Prop :=
  ∀ s : State, s.StoreOk → ∃ t, step s = .next t

/-- R36: no output depends on the cache, and nothing else does. -/
def Obligations.CacheIsUnobservable : Prop :=
  ∀ s s' t : State, s.visible = s'.visible → step s = .next t →
    ∃ t', step s' = .next t' ∧ t'.visible = t.visible

/-- R232: resolving a line through the cache returns the line's address, and leaves the cache at it. -/
def Obligations.ResolveReturnsLineAddress : Prop :=
  ∀ (s : State) (l : Nat), s.ProgramOk → s.CacheOk → 1 ≤ l → l ≤ s.lines + 1 →
    (s.resolve l).cLine = l ∧ s.lineAddr l = .ok (s.resolve l).cAddr

/-- R33, R231: the lines lie back to back from address 0 to `P`; each is as wide as its first byte says. -/
def Obligations.LinesLieBackToBack : Prop :=
  ∀ s : State, s.ProgramOk →
    s.lineAddr 1 = .ok 0 ∧ s.lineAddr (s.lines + 1) = .ok (2 * s.lines + 2 * s.ext) ∧
    ∀ l, 1 ≤ l → l ≤ s.lines → ∃ a, s.lineAddr l = .ok a ∧
      s.lineAddr (l + 1) = .ok (a + if s.arena.readN a 2 = 0xFF then 4 else 2) ∧
      (a + if s.arena.readN a 2 = 0xFF then 4 else 2) ≤ s.progSize

/-- R303: a refused command changes no state. -/
def Obligations.RefusedCommandsChangeNothing : Prop :=
  ∀ (i : Instr) (s t : State) (r : RefuseReason), exec i s = .next t → t.out.refused = some r →
    t = { s with out := { Outputs.absent with refused := some r } }

/-- R302: a command that raises an error makes none of its writes, but that GOSUB keeps its push and RUNSTEP its
increment, with the push of a GOSUB it runs. -/
def Obligations.FailingCommandsKeepNothing : Prop :=
  ∀ (i : Instr) (s t : State) (e : ErrCode), exec i s = .next t → t.out.err = some e →
    t = { s with out := { Outputs.absent with err := some e } } ∨
    ((i = .gosubI ∨ i = .gsbStoredI ∨ ∃ n, i = .gosub n ∨ i = .gsbN n) ∧
      t = { s.pushCall with out := { Outputs.absent with err := some e } }) ∨
    (i = .runstep ∧
      (t = { s with cur := s.inc s.cur, out := { Outputs.absent with err := some e } } ∨
       t = { ({ s with cur := s.inc s.cur } : State).pushCall with
             out := { Outputs.absent with err := some e } }))

/-- R20, R21, R24, R25, R26, R27, R37, R40: which commands write the word size, the mode, the flags, I, the arena and
`dirty`; none clears `dirty`, and no command writes a parameter or a port. -/
def Obligations.StateWrittenOnlyByNamedCommands : Prop :=
  ∀ (i : Instr) (s t : State), exec i s = .next t →
    ((∀ w, i ≠ .setws w) → i ≠ .setmode .float → t.ws = s.ws) ∧
    ((∀ m, i ≠ .setmode m) → t.mode = s.mode) ∧
    ((∀ f v, i ≠ .wflag f v) → i ≠ .add → i ≠ .sub → t.c = s.c) ∧
    ((∀ f v, i ≠ .wflag f v) → i ≠ .add → i ≠ .sub → i ≠ .neg → i ≠ .store → t.g = s.g) ∧
    (i ≠ .wi → i ≠ .clrreg → i ≠ .iszi → i ≠ .dszi → t.ireg = s.ireg) ∧
    ((∀ n, i ≠ .wreg n) → i ≠ .wregI → i ≠ .clrreg → i ≠ .iszind → i ≠ .dszind → (∀ o, i ≠ .insert o) →
      i ≠ .delete → i ≠ .preset → t.arena = s.arena) ∧
    (s.dirty = true → t.dirty = true) ∧
    ((∀ n, i ≠ .wreg n) → i ≠ .wregI → i ≠ .wi → i ≠ .clrreg → i ≠ .iszi → i ≠ .dszi → i ≠ .iszind →
      i ≠ .dszind → (∀ o, i ≠ .insert o) → i ≠ .delete → i ≠ .preset → t.dirty = s.dirty) ∧
    t.params = s.params ∧ t.inp = s.inp ∧ t.pending = s.pending

/-! ### Arithmetic (41_signmode.md) -/

/-- R148, R150, R153: ADD and SUB in UNS mode. -/
def Obligations.UnsignedAddSub : Prop :=
  ∀ (s : State) (x y : Nat), s.mode = .uns → s.WordOk →
    x = s.inp.x.toNat % 2 ^ s.ws → y = s.inp.y.toNat % 2 ^ s.ws →
    exec .add s = .next { s with
      c := decide (2 ^ s.ws ≤ x + y)
      g := decide (2 ^ s.ws ≤ x + y)
      out := { Outputs.absent with r := some (val ((x + y) % 2 ^ s.ws)) } } ∧
    exec .sub s = .next { s with
      c := decide (y < x)
      g := decide (y < x)
      out := { Outputs.absent with r := some (val ((y + 2 ^ s.ws - x) % 2 ^ s.ws)) } }

/-- R178, R148, R150: ADD in TWOS and ONES mode. G says whether the true sum is out of range, C is the carry out
of the unsigned sum, which ONES adds back in. -/
def Obligations.SignedAdd : Prop :=
  ∀ (s : State) (x y : Nat) (n : Int), s.WordOk →
    x = s.inp.x.toNat % 2 ^ s.ws → y = s.inp.y.toNat % 2 ^ s.ws →
    n = s.toInt s.inp.x.toNat + s.toInt s.inp.y.toNat →
    (s.mode = .twos →
      exec .add s = .next { s with
        c := decide (2 ^ s.ws ≤ x + y)
        g := decide (n < -2 ^ (s.ws - 1) ∨ 2 ^ (s.ws - 1) - 1 < n)
        out := { Outputs.absent with r := some (val ((y + x) % 2 ^ s.ws)) } }) ∧
    (s.mode = .ones →
      ∃ r : Nat, r = (if 2 ^ s.ws ≤ x + y then x + y - (2 ^ s.ws - 1) else x + y) ∧ r < 2 ^ s.ws ∧
        exec .add s = .next { s with
          c := decide (2 ^ s.ws ≤ x + y)
          g := decide (n < 1 - 2 ^ (s.ws - 1) ∨ 2 ^ (s.ws - 1) - 1 < n)
          out := { Outputs.absent with r := some (val r) } } ∧
        (1 - 2 ^ (s.ws - 1) ≤ n → n ≤ 2 ^ (s.ws - 1) - 1 → s.toInt r = n))

/-- R153: SUB in TWOS mode, as the addition of the negated subtrahend `z`; the carry follows `SUB_CARRY`. -/
def Obligations.TwosSub : Prop :=
  ∀ (s : State) (x y z : Nat) (n : Int), s.mode = .twos → s.WordOk →
    x = s.inp.x.toNat % 2 ^ s.ws → y = s.inp.y.toNat % 2 ^ s.ws → z = (2 ^ s.ws - x) % 2 ^ s.ws →
    n = s.toInt z + s.toInt y →
    exec .sub s = .next { s with
      c := (match s.params.subCarry with
        | .adder => decide (2 ^ s.ws ≤ z + y)
        | .borrow => decide (y < x))
      g := decide (n < -2 ^ (s.ws - 1) ∨ 2 ^ (s.ws - 1) - 1 < n)
      out := { Outputs.absent with r := some (val ((y + 2 ^ s.ws - x) % 2 ^ s.ws)) } }

/-- R153: SUB in ONES mode, as the addition of the complemented subtrahend: G says whether the true difference is
out of range, and under ADDER the carry is set exactly when Y' > X'. -/
def Obligations.OnesSub : Prop :=
  ∀ (s : State) (x y : Nat) (n : Int), s.mode = .ones → s.WordOk →
    x = s.inp.x.toNat % 2 ^ s.ws → y = s.inp.y.toNat % 2 ^ s.ws →
    n = s.toInt s.inp.y.toNat - s.toInt s.inp.x.toNat →
    exec .sub s = .next { s with
      c := (match s.params.subCarry with
        | .adder => decide (x < y)
        | .borrow => decide (y < x))
      g := decide (n < 1 - 2 ^ (s.ws - 1) ∨ 2 ^ (s.ws - 1) - 1 < n)
      out := { Outputs.absent with r := some (val (if x < y then y - x else 2 ^ s.ws - 1 - x + y)) } }

/-- R156: NEG in the integer modes. -/
def Obligations.IntegerNeg : Prop :=
  ∀ (s : State) (x : Nat), s.WordOk → x = s.inp.x.toNat % 2 ^ s.ws →
    (s.mode = .uns → exec .neg s = .next { s with
      g := true
      out := { Outputs.absent with r := some (val x) } }) ∧
    (s.mode = .ones → exec .neg s = .next { s with
      g := false
      out := { Outputs.absent with r := some (val (if x = 0 then 0 else 2 ^ s.ws - 1 - x)) } }) ∧
    (s.mode = .twos → exec .neg s = .next { s with
      g := decide (x = 2 ^ (s.ws - 1))
      out := { Outputs.absent with r := some (val (if x = 0 then 0 else 2 ^ s.ws - x)) } })

/-- R111, R179: NEG applied to its own result gives the operand back, but for the ONES all-ones pattern, which
gives 0; in TWOS negating S gives S and sets G. -/
def Obligations.NegTwice : Prop :=
  ∀ (s : State) (v : Value), s.WordOk → s.inp.x = v →
    (s.mode = .ones → v.toNat < 2 ^ s.ws → ∃ t r, exec .neg s = .next t ∧ t.out.r = some r ∧
      ∃ u, exec .neg { t with inp := { t.inp with x := r } } = .next u ∧
        u.out.r = some (if v.toNat = 2 ^ s.ws - 1 then 0 else v)) ∧
    (s.mode = .twos → v.toNat < 2 ^ s.ws → ∃ t r, exec .neg s = .next t ∧ t.out.r = some r ∧
      (v.toNat = 2 ^ (s.ws - 1) → r = v ∧ t.g = true) ∧
      ∃ u, exec .neg { t with inp := { t.inp with x := r } } = .next u ∧ u.out.r = some v) ∧
    (s.mode = .float → FloatOk s.params v → ∃ t r, exec .neg s = .next t ∧ t.out.r = some r ∧
      (isMatrixDesc s.params r = false →
        ∃ u, exec .neg { t with inp := { t.inp with x := r } } = .next u ∧ u.out.r = some v))

/-- R145: STORE. -/
def Obligations.StoreResult : Prop :=
  ∀ s : State, s.WordOk →
    (s.mode = .float →
      exec .store s = .next { s with out := { Outputs.absent with refused := some .floatArithmetic } }) ∧
    (s.mode = .uns → exec .store s = .next { s with
      g := decide (s.inp.n < 0 ∨ 2 ^ s.ws - 1 < s.inp.n)
      out := { Outputs.absent with r := some (val (s.inp.n % 2 ^ s.ws).toNat) } }) ∧
    (s.mode = .twos → exec .store s = .next { s with
      g := decide (s.inp.n < -2 ^ (s.ws - 1) ∨ 2 ^ (s.ws - 1) - 1 < s.inp.n)
      out := { Outputs.absent with r := some (val (s.inp.n % 2 ^ s.ws).toNat) } }) ∧
    (s.mode = .ones → exec .store s = .next { s with
      g := decide (s.inp.n < 1 - 2 ^ (s.ws - 1) ∨ 2 ^ (s.ws - 1) - 1 < s.inp.n)
      out := { Outputs.absent with
        r := some (val ((if 0 ≤ s.inp.n then s.inp.n else s.inp.n - 1) % 2 ^ s.ws).toNat) } })

/-- R177: STORE then TOINT gives an in-range number back with G = 0, and TOINT then STORE a pattern, but for the
ONES all-ones pattern, which gives 0. -/
def Obligations.StoreTointRoundTrip : Prop :=
  ∀ (s : State), s.WordOk → s.mode ≠ .float →
    (minInt s.mode s.ws ≤ s.inp.n → s.inp.n ≤ maxInt s.mode s.ws →
      ∃ t r, exec .store s = .next t ∧ t.g = false ∧ t.out.r = some r ∧
        ∃ u, exec .toint { t with inp := { t.inp with x := r } } = .next u ∧ u.out.int = some s.inp.n) ∧
    (s.inp.x.toNat < 2 ^ s.ws →
      ∃ t n, exec .toint s = .next t ∧ t.out.int = some n ∧
        ∃ u, exec .store { t with inp := { t.inp with n := n } } = .next u ∧ u.g = false ∧
          u.out.r = some (if s.mode = .ones ∧ s.inp.x.toNat = 2 ^ s.ws - 1 then 0 else s.inp.x))

/-- R159, R112: CMP compares the signed readings, or the exact float values. -/
def Obligations.CmpResult : Prop :=
  ∀ s : State,
    (s.mode ≠ .float → exec .cmp s = .next { s with
      out := { Outputs.absent with ord := some (compare (s.toInt s.inp.x.toNat) (s.toInt s.inp.y.toNat)) } }) ∧
    (s.mode = .float → FloatOk s.params s.inp.x → FloatOk s.params s.inp.y →
      ∃ o, exec .cmp s = .next { s with out := { Outputs.absent with ord := some o } } ∧
        (o = .lt ↔ floatValue s.inp.x < floatValue s.inp.y) ∧
        (o = .eq ↔ floatValue s.inp.x = floatValue s.inp.y) ∧
        (o = .gt ↔ floatValue s.inp.y < floatValue s.inp.x))

/-- R161, R162: INC and DEC in the integer modes. -/
def Obligations.IntegerIncDec : Prop :=
  ∀ s : State, s.WordOk → s.mode ≠ .float →
    (∃ r, exec .inc s = .next { s with out := { Outputs.absent with r := some (val r) } } ∧
      Stepped s.mode s.ws 1 s.inp.x.toNat r) ∧
    (∃ r, exec .dec s = .next { s with out := { Outputs.absent with r := some (val r) } } ∧
      Stepped s.mode s.ws (-1) s.inp.x.toNat r)

/-- R141, R146, R147, R164, R166: TOINT and ISZ in the integer modes, TRUNC in every mode. -/
def Obligations.TointIszTrunc : Prop :=
  ∀ (s : State) (x : Nat), s.WordOk → x = s.inp.x.toNat % 2 ^ s.ws →
    (s.mode ≠ .float → exec .toint s = .next { s with
      out := { Outputs.absent with
        int := some (if s.mode = .uns ∨ x < 2 ^ (s.ws - 1) then (x : Int)
          else if s.mode = .twos then (x : Int) - 2 ^ s.ws else (x : Int) - (2 ^ s.ws - 1)) } }) ∧
    (s.mode ≠ .float → exec .isz s = .next { s with
      out := { Outputs.absent with z := some (decide (x = 0 ∨ (s.mode = .ones ∧ x = 2 ^ s.ws - 1))) } }) ∧
    exec .trunc s = .next { s with out := { Outputs.absent with r := some (val x) } }

/-- R111, R113, R119, R156, R161, R162, R164: the FLOAT arms of NEG, INC, DEC and ISZ on a legal float. NEG
changes the sign nybble only, and not that of a zero; no flag is written. The sum that INC and DEC encode, here and in
the statements of ISZI, DSZI, ISZIND and DSZIND, is the binary64 pattern nearest to the exact one, ties to even. -/
def Obligations.FloatArms : Prop :=
  (∀ s : State, s.mode = .float → FloatOk s.params s.inp.x →
    (∃ r, exec .neg s = .next { s with out := { Outputs.absent with r := some r } } ∧
      (mant s.inp.x = 0 → r = s.inp.x) ∧
      (mant s.inp.x ≠ 0 → floatSgn r = (if floatSgn s.inp.x = 0 then 9 else 0) ∧
        ∀ k, k ≠ 13 → nyb r k = nyb s.inp.x k)) ∧
    exec .inc s = .next { s with out := { Outputs.absent with
      r := some (fromDouble s.params (dblAddUnit (toDouble s.params (floatValue s.inp.x)) 1)) } } ∧
    exec .dec s = .next { s with out := { Outputs.absent with
      r := some (fromDouble s.params (dblAddUnit (toDouble s.params (floatValue s.inp.x)) (-1))) } } ∧
    exec .isz s = .next { s with out := { Outputs.absent with z := some (decide (mant s.inp.x = 0)) } }) ∧
  (∀ (d : Double) (k : Int), dblExpField d ≠ 0x7FF → (k = 1 ∨ k = -1) →
    IsNearest (dblAddUnit d k) (dblValue d + k))

/-- R120, R201, R301: a float operand that is not legal, on a port, in I or in the register read, raises error 6
and nothing changes; CMP checks X before Y. -/
def Obligations.IllegalFloatRaisesSix : Prop :=
  ∀ (s : State) (i : Instr),
    ((FloatBad s.params s.inp.x ∧
        (i = .fdec ∨ i = .fchk ∨
          (s.mode = .float ∧ (i = .neg ∨ i = .cmp ∨ i = .inc ∨ i = .dec ∨ i = .isz)))) ∨
      (s.mode = .float ∧ i = .cmp ∧ FloatOk s.params s.inp.x ∧ FloatBad s.params s.inp.y) ∨
      (s.mode = .float ∧ FloatBad s.params s.ireg ∧
        (i = .iszi ∨ i = .dszi ∨ i = .iszind ∨ i = .dszind ∨ i = .rregI ∨ i = .wregI ∨ i = .gotoI ∨
          i = .gtoStoredI)) ∨
      (s.mode = .float ∧ ∃ k, k < s.regCount ∧ FloatBad s.params (val (s.slotValue k)) ∧
        ((∃ idx : BitVec 9, i = .rreg idx ∧ idx.toNat = k) ∨
          (s.NamesRegister k ∧ (i = .rregI ∨ i = .iszind ∨ i = .dszind))))) →
    exec i s = .next { s with out := { Outputs.absent with err := some .badFloat } }

/-- R108, R120, R140, R201, R210, R211, R303: in FLOAT mode ADD, SUB, STORE and TOINT are refused, and so is a command
whose operand on a port, in I or in the register read is a matrix descriptor; the flags stay as they were. -/
def Obligations.FloatModeRefusals : Prop :=
  ∀ (s : State) (i : Instr), s.mode = .float →
    ((i = .add ∨ i = .sub ∨ i = .store ∨ i = .toint) →
      exec i s = .next { s with out := { Outputs.absent with refused := some .floatArithmetic } }) ∧
    ((isMatrixDesc s.params s.inp.x = true ∧ (i = .neg ∨ i = .cmp ∨ i = .inc ∨ i = .dec ∨ i = .isz)) ∨
      (i = .cmp ∧ FloatOk s.params s.inp.x ∧ isMatrixDesc s.params s.inp.y = true) ∨
      (isMatrixDesc s.params s.ireg = true ∧ (i = .iszi ∨ i = .dszi ∨ i = .iszind ∨ i = .dszind ∨ i = .rregI ∨
        i = .wregI ∨ i = .gotoI ∨ i = .gtoStoredI)) ∨
      (∃ k, k < s.regCount ∧ isMatrixDesc s.params (val (s.slotValue k)) = true ∧
        ((∃ idx : BitVec 9, i = .rreg idx ∧ idx.toNat = k) ∨
          (s.NamesRegister k ∧ (i = .rregI ∨ i = .iszind ∨ i = .dszind)))) →
      exec i s = .next { s with out := { Outputs.absent with refused := some .matrixDescriptor } })

/-- R170: SETWS. -/
def Obligations.SetwsResult : Prop :=
  ∀ (s : State) (w : BitVec 7),
    (s.mode = .float → exec (.setws w) s =
      .next { s with out := { Outputs.absent with refused := some .wordSizeInFloat } }) ∧
    (s.mode ≠ .float → (w.toNat < 1 ∨ 64 < w.toNat) →
      exec (.setws w) s = .next { s with out := { Outputs.absent with err := some .bitIndex } }) ∧
    (s.mode ≠ .float → 1 ≤ w.toNat → w.toNat ≤ 64 →
      exec (.setws w) s = .next { s with ws := w.toNat, out := Outputs.absent })

/-- R171, R175: SETMODE and WFLAG. -/
def Obligations.SetmodeWflagResult : Prop :=
  ∀ (s : State) (m : Mode) (v : Bool),
    exec (.setmode m) s =
      .next { s with mode := m, ws := if m = .float then 56 else s.ws, out := Outputs.absent } ∧
    exec (.wflag .c v) s = .next { s with c := v, out := Outputs.absent } ∧
    exec (.wflag .g v) s = .next { s with g := v, out := Outputs.absent }

/-! ### Float codec (40_value_bcd.md) -/

/-- R110: the result of FENC is always legal and normalised, given infinities that are. -/
def Obligations.FencIsLegalAndNormalised : Prop :=
  ∀ s : State,
    isLegalFloat (floatPosInf s.params) = true → floatDigit (floatPosInf s.params) 0 ≠ 0 →
    isLegalFloat (floatNegInf s.params) = true → floatDigit (floatNegInf s.params) 0 ≠ 0 →
    ∃ r, exec .fenc s = .next { s with out := { Outputs.absent with r := some r } } ∧
      isLegalFloat r = true ∧ (r = 0 ∨ floatDigit r 0 ≠ 0)

/-- R110, R115: FENC of NaN, the infinities and the zeros; of a double whose rounding overflows (`e >= 100`) or
underflows (`e <= -100`); and which doubles those are under the standard rounding, which is the model's choice of
`FROM_DOUBLE_ROUND` (notes/assumptions/3.md). -/
def Obligations.FencSpecials : Prop :=
  ∀ (s : State) (r : Value) (d : Double), s.inp.dblIn = d →
    ((d.toNat / 2 ^ 52 % 2 ^ 11 = 0x7FF ∧ d.toNat % 2 ^ 52 ≠ 0 ∧ r = floatPosInf s.params) ∨
      (d = 0x7FF0000000000000 ∧ r = floatPosInf s.params) ∨
      (d = 0xFFF0000000000000 ∧ r = floatNegInf s.params) ∨
      ((d = 0 ∨ d = 0x8000000000000000) ∧ r = 0) ∨
      (d.toNat / 2 ^ 52 % 2 ^ 11 ≠ 0x7FF ∧ d.toNat % 2 ^ 63 ≠ 0 ∧
        ((100 ≤ (fromDoubleRound s.params (dblAbs d)).2 ∧
            r = (if d.msb then floatNegInf s.params else floatPosInf s.params)) ∨
          ((fromDoubleRound s.params (dblAbs d)).2 ≤ -100 ∧ r = 0))) ∨
      (s.params.fromDoubleRound = .standard ∧ d.toNat / 2 ^ 52 % 2 ^ 11 ≠ 0x7FF ∧
        ((99999999995 * (10 : Rat) ^ (89 : Int) ≤ |dblValue d| ∧
            r = (if d.msb then floatNegInf s.params else floatPosInf s.params)) ∨
          (|dblValue d| < 99999999995 * (10 : Rat) ^ (-110 : Int) ∧ r = 0)))) →
    exec .fenc s = .next { s with out := { Outputs.absent with r := some r } }

/-- R110 with the rounding of spec/95_test_vectors.md, Conventions (Parameters), which is the model's standard
`FROM_DOUBLE_ROUND` (notes/assumptions/3.md): the result of FENC on a finite double that neither overflows nor
underflows is within half a unit of its last digit. -/
def Obligations.FencRoundsToTenDigits : Prop :=
  ∀ s : State, s.params.fromDoubleRound = .standard →
    s.inp.dblIn.toNat / 2 ^ 52 % 2 ^ 11 ≠ 0x7FF →
    99999999995 * (10 : Rat) ^ (-110 : Int) ≤ |dblValue s.inp.dblIn| →
    |dblValue s.inp.dblIn| < 99999999995 * (10 : Rat) ^ (89 : Int) →
    ∃ r e, exec .fenc s = .next { s with out := { Outputs.absent with r := some r } } ∧
      floatExp? r = some e ∧ 2 * |floatValue r - dblValue s.inp.dblIn| ≤ (10 : Rat) ^ (e - 9)

/-- R105, R109, R116, R118, R120: FCHK accepts exactly the legal floats and FDEC decodes them; a matrix descriptor
is refused before that. The standard `TO_DOUBLE`, the model's choice (notes/assumptions/3.md), is to the nearest
double, ties to even. -/
def Obligations.FchkFdecResult : Prop :=
  ∀ (s : State) (v : Value) (e : Nat), s.inp.x = v →
    e = 100 * nyb v 2 + 10 * nyb v 1 + nyb v 0 →
    (isMatrixDesc s.params v = true → ∀ i, (i = .fchk ∨ i = .fdec) →
      exec i s = .next { s with out := { Outputs.absent with refused := some .matrixDescriptor } }) ∧
    (isMatrixDesc s.params v = false →
      (v.toNat < 2 ^ 56 ∧ (∀ j, j < 10 → nyb v (12 - j) ≤ 9) ∧
        nyb v 2 ≤ 9 ∧ nyb v 1 ≤ 9 ∧ nyb v 0 ≤ 9 ∧ (e ≤ 99 ∨ 901 ≤ e) ∧
        (mant v = 0 ∨ nyb v 13 = 0 ∨ nyb v 13 = 9)) →
      exec .fchk s = .next { s with out := { Outputs.absent with z := some true } } ∧
      exec .fdec s = .next { s with out := { Outputs.absent with
        dblOut := some (if mant v = 0 then 0 else toDouble s.params (floatValue v)) } } ∧
      (s.params.toDouble = .standard → IsNearest (toDouble s.params (floatValue v)) (floatValue v))) ∧
    (isMatrixDesc s.params v = false →
      ¬ (v.toNat < 2 ^ 56 ∧ (∀ j, j < 10 → nyb v (12 - j) ≤ 9) ∧
        nyb v 2 ≤ 9 ∧ nyb v 1 ≤ 9 ∧ nyb v 0 ≤ 9 ∧ (e ≤ 99 ∨ 901 ≤ e) ∧
        (mant v = 0 ∨ nyb v 13 = 0 ∨ nyb v 13 = 9)) →
      ∀ i, (i = .fchk ∨ i = .fdec) →
        exec i s = .next { s with out := { Outputs.absent with err := some .badFloat } })

/-- R103, R104, R106, R117: FEXP reads the three exponent digits, bits [11:0], and nothing else of X; and the
value of a legal float is its sign, its mantissa digits and that exponent. -/
def Obligations.FexpResult : Prop :=
  ∀ (s : State) (d2 d1 d0 e : Nat), s.inp.x.toNat % 2 ^ 12 = 256 * d2 + 16 * d1 + d0 →
    d2 < 16 → d1 < 16 → d0 < 16 → e = 100 * d2 + 10 * d1 + d0 →
    (d2 ≤ 9 → d1 ≤ 9 → d0 ≤ 9 → e ≤ 99 →
      exec .fexp s = .next { s with out := { Outputs.absent with exp := some (e : Int) } }) ∧
    (d2 ≤ 9 → d1 ≤ 9 → d0 ≤ 9 → 901 ≤ e →
      exec .fexp s = .next { s with out := { Outputs.absent with exp := some ((e : Int) - 1000) } }) ∧
    (9 < d2 ∨ 9 < d1 ∨ 9 < d0 ∨ (99 < e ∧ e < 901) →
      exec .fexp s = .next { s with out := { Outputs.absent with err := some .badFloat } }) ∧
    (isLegalFloat s.inp.x = true → ∀ q : Int, q = (if e ≤ 99 then (e : Int) else e - 1000) →
      floatValue s.inp.x =
        (if nyb s.inp.x 13 = 9 then -1 else 1) *
          ((List.range 10).map (fun j => (nyb s.inp.x (12 - j) : Rat) * 10 ^ (9 - j))).sum *
          (10 : Rat) ^ (q - 9))

/-! ### Registers (42_registers.md) -/

/-- R51, R52, R201, R203, R207: RREG, direct and through I, on a register that exists: bit `j` of the result is
bit `j` of the slot, below the word size. In FLOAT mode the slot must hold a legal float. -/
def Obligations.RregResult : Prop :=
  ∀ (s : State) (i : Instr) (k : Nat), s.WordOk → k < s.regCount →
    ((∃ idx : BitVec 9, i = .rreg idx ∧ idx.toNat = k) ∨ (i = .rregI ∧ s.NamesRegister k)) →
    (s.mode = .float → FloatOk s.params (val (s.slotValue k))) →
    ∃ r, exec i s = .next { s with out := { Outputs.absent with r := some (val r) } } ∧ r < 2 ^ s.ws ∧
      ∀ j, j < s.ws → r.testBit j = (s.arena.get (405 - k * s.npr - j / 4)).toNat.testBit (j % 4)

/-- R51, R52, R202, R203: WREG, direct and through I, on a register that exists: the slot's nybbles are those of
X', every other nybble is as before. -/
def Obligations.WregResult : Prop :=
  ∀ (s : State) (i : Instr) (k : Nat), k < s.regCount →
    ((∃ idx : BitVec 9, i = .wreg idx ∧ idx.toNat = k) ∨ (i = .wregI ∧ s.NamesRegister k)) →
    ∃ m, exec i s = .next { s with arena := m, dirty := true, out := Outputs.absent } ∧
      (∀ j, j < s.npr → (m.get (405 - k * s.npr - j)).toNat =
        s.inp.x.toNat % 2 ^ s.ws / 16 ^ j % 16) ∧
      (∀ a, a < 406 - (k + 1) * s.npr ∨ 406 - k * s.npr ≤ a → m.get a = s.arena.get a)

/-- R201, R202: a register reads back what was written to it, masked to the word, and writing it changes no other
register. -/
def Obligations.RegisterReadsBackWrite : Prop :=
  ∀ (s : State) (idx : BitVec 9), s.WordOk → idx.toNat < s.regCount →
    (s.mode = .float → FloatOk s.params (val (s.inp.x.toNat % 2 ^ s.ws))) →
    ∃ t u, exec (.wreg idx) s = .next t ∧ exec (.rreg idx) t = .next u ∧
      u.out.r = some (val (s.inp.x.toNat % 2 ^ s.ws)) ∧
      ∀ j, j ≠ idx.toNat → j < s.regCount → t.slotValue j = s.slotValue j

/-- R200, R201, R202, R207, R210, R211, R306: a register that does not exist raises error 3 and nothing changes;
so does an I that denotes no register. -/
def Obligations.RegisterIndexErrors : Prop :=
  ∀ s : State,
    (∀ idx : BitVec 9, s.regCount ≤ idx.toNat →
      exec (.rreg idx) s = .next { s with out := { Outputs.absent with err := some .regAddr } } ∧
      exec (.wreg idx) s = .next { s with out := { Outputs.absent with err := some .regAddr } }) ∧
    (∀ (q : Int) (i : Instr), s.IndexReads q → (q < 0 ∨ s.params.iaddrLimit ≤ q ∨ s.regCount ≤ q) →
      (i = .rregI ∨ i = .wregI ∨ i = .iszind ∨ i = .dszind) →
      exec i s = .next { s with out := { Outputs.absent with err := some .regAddr } })

/-- R54, R212: what a register written at word size 16 reads as at word sizes 4 and 8, and at 16 again. -/
def Obligations.WordSizeView : Prop :=
  ∀ s : State, s.mode ≠ .float → s.ws = 16 → s.progSize ≤ 402 →
    ∃ t t4 t8 t16, exec (.wreg 0) s = .next t ∧ exec (.setws 4) t = .next t4 ∧
      exec (.setws 8) t4 = .next t8 ∧ exec (.setws 16) t8 = .next t16 ∧
      t4.arena = t.arena ∧ t8.arena = t.arena ∧ t16.arena = t.arena ∧
      (∃ u, exec (.rreg 0) t4 = .next u ∧ u.out.r = some (val (s.inp.x.toNat % 16))) ∧
      (∃ u, exec (.rreg 1) t4 = .next u ∧ u.out.r = some (val (s.inp.x.toNat / 16 % 16))) ∧
      (∃ u, exec (.rreg 0) t8 = .next u ∧ u.out.r = some (val (s.inp.x.toNat % 256))) ∧
      (∃ u, exec (.rreg 1) t8 = .next u ∧ u.out.r = some (val (s.inp.x.toNat / 256 % 256))) ∧
      (∃ u, exec (.rreg 0) t16 = .next u ∧ u.out.r = some (val (s.inp.x.toNat % 65536)))

/-- R204, R205: WI puts X in I, in an integer mode the same number at width 68, in FLOAT mode its low 56 bits; RI
reads I masked to the word. -/
def Obligations.WiRiResult : Prop :=
  ∀ s : State, s.WordOk →
    (s.mode ≠ .float → ∃ i, exec .wi s = .next { s with ireg := i, dirty := true, out := Outputs.absent } ∧
      toIntW s.mode 68 i.toNat = s.toInt s.inp.x.toNat ∧ (s.toInt s.inp.x.toNat = 0 → i = 0)) ∧
    (s.mode = .float → exec .wi s =
      .next { s with ireg := val (s.inp.x.toNat % 2 ^ 56), dirty := true, out := Outputs.absent }) ∧
    exec .ri s = .next { s with out := { Outputs.absent with r := some (val (s.ireg.toNat % 2 ^ s.ws)) } }

/-- R206: CLRREG. -/
def Obligations.ClrregResult : Prop :=
  ∀ s : State, ∃ m, exec .clrreg s =
      .next { s with arena := m, ireg := 0, dirty := true, out := Outputs.absent } ∧
    (∀ a, a < s.progSize → m.get a = s.arena.get a) ∧
    (∀ a, s.progSize ≤ a → a ≤ 405 → m.get a = 0)

/-- R208, R209, R119: ISZI and DSZI step I at width 68, in FLOAT mode by the sum that FloatArms fixes, and skip when
the result is zero. -/
def Obligations.IndexStepResult : Prop :=
  ∀ (s : State) (i : Instr) (k : Int), ((i = .iszi ∧ k = 1) ∨ (i = .dszi ∧ k = -1)) →
    (s.mode ≠ .float → ∃ r, Stepped s.mode 68 k s.ireg.toNat r ∧
      exec i s = .next { s with
        ireg := val r
        dirty := true
        cur := if toIntW s.mode 68 r = 0 then (s.cur + 1) % (s.lines + 1) else s.cur
        out := Outputs.absent }) ∧
    (s.mode = .float → FloatOk s.params s.ireg →
      ∃ r, r = fromDouble s.params (dblAddUnit (toDouble s.params (floatValue s.ireg)) k) ∧
      exec i s = .next { s with
        ireg := r
        dirty := true
        cur := if mant r = 0 then (s.cur + 1) % (s.lines + 1) else s.cur
        out := Outputs.absent })

/-- R210, R211, R119: ISZIND and DSZIND step the register I names, in FLOAT mode by the sum that FloatArms fixes, and
skip when the result is zero; no other nybble changes. -/
def Obligations.IndirectStepResult : Prop :=
  ∀ (s : State) (i : Instr) (k : Int) (j : Nat), ((i = .iszind ∧ k = 1) ∨ (i = .dszind ∧ k = -1)) →
    s.WordOk → s.NamesRegister j → j < s.regCount →
    (s.mode ≠ .float → ∃ m r, Stepped s.mode s.ws k (s.slotValue j) r ∧
      exec i s = .next { s with
        arena := m
        dirty := true
        cur := if toIntW s.mode s.ws r = 0 then (s.cur + 1) % (s.lines + 1) else s.cur
        out := Outputs.absent } ∧
      m.readN (406 - (j + 1) * s.npr) s.npr = r ∧
      (∀ a, a < 406 - (j + 1) * s.npr ∨ 406 - j * s.npr ≤ a → m.get a = s.arena.get a)) ∧
    (s.mode = .float → FloatOk s.params (val (s.slotValue j)) →
      ∃ m r, r = fromDouble s.params (dblAddUnit (toDouble s.params (floatValue (val (s.slotValue j)))) k) ∧
      exec i s = .next { s with
        arena := m
        dirty := true
        cur := if mant r = 0 then (s.cur + 1) % (s.lines + 1) else s.cur
        out := Outputs.absent } ∧
      m.readN (406 - (j + 1) * s.npr) s.npr = r.toNat % 2 ^ s.ws ∧
      (∀ a, a < 406 - (j + 1) * s.npr ∨ 406 - j * s.npr ≤ a → m.get a = s.arena.get a))

/-! ### Program memory (43_program_memory.md) -/

/-- R234, R236: INSERT puts its opcode on the line after the cursor and moves the cursor there; the lines before
keep their opcodes, the lines after move one up, and the arena above the grown program is as before. With the cursor
past the last line the new line is some line of 1..lines+1, whichever the free value names, the cursor moves to that
one, and the model's own counter moves on (notes/assumptions/9.md). -/
def Obligations.InsertResult : Prop :=
  ∀ (s : State) (opc : Opcode) (sz : Nat), s.StoreOk → opc.toNat ≤ 0x1FE →
    sz = (if opc.toNat ≤ 0xFE then 2 else 4) → s.progSize + sz ≤ 406 →
    ∃ m t a L, 1 ≤ L ∧ L ≤ s.lines + 1 ∧ (s.cur ≤ s.lines → L = s.cur + 1) ∧
      t = { s with
        arena := m
        lines := s.lines + 1
        ext := if sz = 4 then s.ext + 1 else s.ext
        cur := L
        cache := ⟨1, 0⟩
        dirty := true
        freeCtr := if s.cur ≤ s.lines then s.freeCtr else s.freeCtr + 1
        out := Outputs.absent } ∧
      exec (.insert opc) s = .next t ∧
      s.lineAddr L = .ok a ∧
      (∀ b, b < a → m.get b = s.arena.get b) ∧
      (∀ b, a ≤ b → b < s.progSize → m.get (b + sz) = s.arena.get b) ∧
      (∀ b, s.progSize + sz ≤ b → m.get b = s.arena.get b) ∧
      t.opcodeAt L = .ok opc ∧
      (∀ l, 1 ≤ l → l < L → t.opcodeAt l = s.opcodeAt l) ∧
      (∀ l, L ≤ l → l ≤ s.lines → t.opcodeAt (l + 1) = s.opcodeAt l)

/-- R231, R238: DELETE takes the current line out and moves the cursor one back; the lines before keep their opcodes,
the lines after move one down, the vacated nybbles are zero and the arena above the program is as before. On line
`lines + 1`, whose address is `P`, nothing moves, and the nybbles of one line below `P` are zeroed, of the width that the
byte at `P` says. The model's choices (notes/assumptions/9.md): the line that `ext` loses there is the last line, the
width there is free where `P = 406`, further past the last line the line that goes is some line of the program,
whichever the free value names, and the model's own counter moves on. -/
def Obligations.DeleteResult : Prop :=
  ∀ s : State, s.StoreOk → 1 ≤ s.lines → 1 ≤ s.cur →
    (s.cur ≠ s.lines + 1 →
      ∃ m t a w L, 1 ≤ L ∧ L ≤ s.lines ∧ (s.cur ≤ s.lines → L = s.cur) ∧
        s.lineAddr L = .ok a ∧ w = (if s.arena.readN a 2 = 0xFF then 4 else 2) ∧
        t = { s with
          arena := m
          lines := s.lines - 1
          ext := if w = 4 then s.ext - 1 else s.ext
          cur := L - 1
          cache := ⟨1, 0⟩
          dirty := true
          freeCtr := if s.cur ≤ s.lines then s.freeCtr else s.freeCtr + 1
          out := Outputs.absent } ∧
        exec .delete s = .next t ∧
        (∀ b, b < a → m.get b = s.arena.get b) ∧
        (∀ b, a ≤ b → b + w < s.progSize → m.get b = s.arena.get (b + w)) ∧
        (∀ b, s.progSize ≤ b + w → b < s.progSize → m.get b = 0) ∧
        (∀ b, s.progSize ≤ b → m.get b = s.arena.get b) ∧
        (∀ l, 1 ≤ l → l < L → t.opcodeAt l = s.opcodeAt l) ∧
        (∀ l, L ≤ l → l < s.lines → t.opcodeAt l = s.opcodeAt (l + 1))) ∧
    (s.cur = s.lines + 1 →
      ∃ m w b, (w = 2 ∨ w = 4) ∧
        (s.progSize ≤ 404 → w = if s.arena.readN s.progSize 2 = 0xFF then 4 else 2) ∧
        s.lineAddr s.lines = .ok b ∧
        exec .delete s = .next { s with
          arena := m
          lines := s.lines - 1
          ext := if s.arena.readN b 2 = 0xFF then s.ext - 1 else s.ext
          cur := s.lines
          cache := ⟨1, 0⟩
          dirty := true
          freeCtr := s.freeCtr + 1
          out := Outputs.absent } ∧
        (∀ c, s.progSize ≤ c + w → c < s.progSize → m.get c = 0) ∧
        (∀ c, c + w < s.progSize ∨ s.progSize ≤ c → m.get c = s.arena.get c))

/-- R246 (1): INSERT followed by DELETE restores the program, the counts and the cursor, and leaves the nybbles the
line took at zero; where they were zero before, the whole arena is restored. -/
def Obligations.InsertThenDelete : Prop :=
  ∀ (s : State) (opc : Opcode) (sz : Nat), s.Inv → opc.toNat ≤ 0x1FE →
    sz = (if opc.toNat ≤ 0xFE then 2 else 4) → s.progSize + sz ≤ 406 →
    ∃ t m, exec (.insert opc) s = .next t ∧
      exec .delete t = .next { s with arena := m, cache := ⟨1, 0⟩, dirty := true, out := Outputs.absent } ∧
      (∀ a, a < s.progSize → m.get a = s.arena.get a) ∧
      (∀ a, s.progSize ≤ a → a < s.progSize + sz → m.get a = 0) ∧
      (∀ a, s.progSize + sz ≤ a → m.get a = s.arena.get a) ∧
      ((∀ a, s.progSize ≤ a → a < s.progSize + sz → s.arena.get a = 0) → m = s.arena)

/-- R236, R238, R242, R244, R301, R306: when the program commands fail or are refused, with nothing changed. -/
def Obligations.ProgramCommandErrors : Prop :=
  ∀ s : State,
    exec (.insert 0x1FF) s = .next { s with out := { Outputs.absent with refused := some .reservedEncoding } } ∧
    (∀ opc : Opcode, opc.toNat ≤ 0x1FE → 406 < s.progSize + (if opc.toNat ≤ 0xFE then 2 else 4) →
      exec (.insert opc) s = .next { s with out := { Outputs.absent with err := some .progAddr } }) ∧
    (s.lines = 0 ∨ s.cur = 0 →
      exec .delete s = .next { s with out := { Outputs.absent with err := some .progAddr } }) ∧
    (∀ n : BitVec 8, s.lines < n.toNat →
      exec (.setline n) s = .next { s with out := { Outputs.absent with err := some .progAddr } }) ∧
    (∀ n : BitVec 8, n.toNat < 1 ∨ s.lines < n.toNat →
      exec (.readline n) s = .next { s with out := { Outputs.absent with err := some .progAddr } })

/-- R233, R240, R242, R244: PRESET, SETLINE and READLINE. READLINE changes no state but the hidden cache
(notes/assumptions/8.md). -/
def Obligations.PresetSetlineReadline : Prop :=
  ∀ s : State, s.progSize ≤ 406 →
    (∃ m, exec .preset s = .next { s with
        arena := m
        lines := 0
        ext := 0
        cur := 0
        rsp := -1
        rs := List.replicate s.params.cap 0
        cache := ⟨1, 0⟩
        dirty := true
        out := Outputs.absent } ∧
      (∀ a, a < s.progSize → m.get a = 0) ∧ (∀ a, s.progSize ≤ a → m.get a = s.arena.get a)) ∧
    (∀ n : BitVec 8, n.toNat ≤ s.lines →
      exec (.setline n) s = .next { s with cur := n.toNat, out := Outputs.absent }) ∧
    (∀ n : BitVec 8, s.ProgramOk → 1 ≤ n.toNat → n.toNat ≤ s.lines →
      ∃ a op, s.lineAddr n.toNat = .ok a ∧
        op.toNat = (if s.arena.readN a 2 = 0xFF then 0xFF + s.arena.readN (a + 2) 2 else s.arena.readN a 2) ∧
        exec (.readline n) s = .next { s with
          cache := s.resolve n.toNat
          out := { Outputs.absent with opc := some op } })

/-! ### Control flow (44_control_flow.md) -/

/-- R260, R261, R262, R263: STEP, SKIPIF and SKIPFLAG. -/
def Obligations.StepAndSkips : Prop :=
  ∀ s : State,
    exec .step s = .next { s with cur := (s.cur + 1) % (s.lines + 1), out := Outputs.absent } ∧
    (∀ b : Bool, exec (.skipif b) s = .next { s with
      cur := if b then s.cur else (s.cur + 1) % (s.lines + 1)
      out := Outputs.absent }) ∧
    exec (.skipflag .c) s = .next { s with
      cur := if s.c then s.cur else (s.cur + 1) % (s.lines + 1)
      out := Outputs.absent } ∧
    exec (.skipflag .g) s = .next { s with
      cur := if s.g then s.cur else (s.cur + 1) % (s.lines + 1)
      out := Outputs.absent }

/-- R265, R266, R267, R272: GOTO, direct and through I, as a command and as a stored line: the cursor goes to the
first candidate of the scan that carries the label; with no such line, or no label in I, error 4. -/
def Obligations.GotoResult : Prop :=
  ∀ (s : State) (i : Instr), s.ProgramOk →
    (∀ n : Label,
      (i = .goto n ∨ i = .gtoN n ∨ ((i = .gotoI ∨ i = .gtoStoredI) ∧ s.NamesLabel n)) →
      (∀ l, s.FoundAt n l →
        exec i s = .next { s with cur := l, cache := s.resolve l, out := Outputs.absent }) ∧
      (s.NoLabel n → exec i s = .next { s with out := { Outputs.absent with err := some .progAddr } })) ∧
    ((i = .gotoI ∨ i = .gtoStoredI) →
      s.NamesNoLabel →
      exec i s = .next { s with out := { Outputs.absent with err := some .progAddr } })

/-- R268, R272, R276, R302, R306: GOSUB, direct and through I, as a command and as a stored line: a full stack raises
error 5 before anything else, in every state and whatever I holds; from underflow nothing is recorded, from a deeper
level the cursor is; and the push stays when the label is not found. That the hidden cache moves to the label's line is
the model's choice (notes/assumptions/8.md). -/
def Obligations.GosubResult : Prop :=
  ∀ (s : State) (i : Instr),
    ((i = .gosubI ∨ i = .gsbStoredI ∨ ∃ n, i = .gosub n ∨ i = .gsbN n) → s.rsp = s.params.cap - 1 →
      exec i s = .next { s with out := { Outputs.absent with err := some .stackOverflow } }) ∧
    (∀ n : Label, s.ProgramOk → s.StackOk →
      (i = .gosub n ∨ i = .gsbN n ∨ ((i = .gosubI ∨ i = .gsbStoredI) ∧ s.NamesLabel n)) →
      (s.rsp = -1 →
        (∀ l, s.FoundAt n l →
          exec i s = .next { s with rsp := 0, cur := l, cache := s.resolve l, out := Outputs.absent }) ∧
        (s.NoLabel n →
          exec i s = .next { s with rsp := 0, out := { Outputs.absent with err := some .progAddr } })) ∧
      (0 ≤ s.rsp → s.rsp < s.params.cap - 1 →
        ∃ rs, rs.length = s.rs.length ∧ rs[(s.rsp + 1).toNat]? = some s.cur ∧
          (∀ k, k ≠ (s.rsp + 1).toNat → rs[k]? = s.rs[k]?) ∧
          (∀ l, s.FoundAt n l →
            exec i s = .next { s with
              rsp := s.rsp + 1, rs := rs, cur := l, cache := s.resolve l, out := Outputs.absent }) ∧
          (s.NoLabel n →
            exec i s = .next { s with
              rsp := s.rsp + 1, rs := rs, out := { Outputs.absent with err := some .progAddr } })))

/-- R265, R268, R302, R303: GOSUB I, as a command and as a stored line, below a full stack: an I that names no
label, and an I that is no legal float, raise their error and the push stays; a matrix descriptor in I is
refused and no push stays (notes/assumptions/6.md). -/
def Obligations.IndirectCallErrors : Prop :=
  ∀ (s : State) (i : Instr), (i = .gosubI ∨ i = .gsbStoredI) → s.rsp ≠ s.params.cap - 1 →
    (s.NamesNoLabel →
      exec i s = .next { s.pushCall with out := { Outputs.absent with err := some .progAddr } }) ∧
    (s.mode = .float → FloatBad s.params s.ireg →
      exec i s = .next { s.pushCall with out := { Outputs.absent with err := some .badFloat } }) ∧
    (s.mode = .float → isMatrixDesc s.params s.ireg = true →
      exec i s = .next { s with out := { Outputs.absent with refused := some .matrixDescriptor } })

/-- R269, R270, R276: RTN, as a command and as a stored line, and RUN. -/
def Obligations.RtnRunResult : Prop :=
  ∀ s : State, s.StackOk →
    (∀ i, (i = .rtn ∨ i = .rtnStored) →
      (∀ l, 0 < s.rsp → s.rs[s.rsp.toNat]? = some l →
        exec i s = .next { s with cur := l, rsp := s.rsp - 1, out := Outputs.absent }) ∧
      (s.rsp ≤ 0 → exec i s = .next { s with
        cur := 0
        rsp := -1
        out := { Outputs.absent with halt := some true } })) ∧
    exec .run s = .next { s with rsp := if s.rsp = -1 then 0 else s.rsp, out := Outputs.absent }

/-- R271, R272, R273: RUNSTEP at the phantom line 0, on a label line, and on an Other line under any opcode map;
and the stored LBL and OP lines themselves. -/
def Obligations.RunstepResult : Prop :=
  ∀ s : State, s.ProgramOk → s.StackOk →
    (s.inc s.cur = 0 →
      (∀ l, 0 < s.rsp → s.rs[s.rsp.toNat]? = some l →
        exec .runstep s = .next { s with cur := l, rsp := s.rsp - 1, out := Outputs.absent }) ∧
      (s.rsp ≤ 0 → exec .runstep s = .next { s with
        cur := 0
        rsp := -1
        out := { Outputs.absent with halt := some true } })) ∧
    (∀ l op, l = s.inc s.cur → l ≠ 0 → s.opcodeAt l = .ok op →
      (∀ n, s.params.classOf op = .label n →
        exec .runstep s = .next { s with cur := l, cache := s.resolve l, out := Outputs.absent }) ∧
      (s.params.classOf op = .other →
        exec .runstep s = .next { s with
          cur := l
          cache := s.resolve l
          out := { Outputs.absent with opc := some op, dispatch := some true } })) ∧
    (∀ n, exec (.lblN n) s = .next { s with out := Outputs.absent }) ∧
    (∀ o : Byte, exec (.opPM1 o) s = .next { s with
      out := { Outputs.absent with opc := some (BitVec.ofNat 9 o.toNat), dispatch := some true } }) ∧
    (∀ o : Byte, exec (.opPM2 o) s = .next { s with
      out := { Outputs.absent with opc := some (BitVec.ofNat 9 (0xFF + o.toNat)), dispatch := some true } })

/-! ### Persistence (70_reset_and_hazards.md) -/

/-- R333 to R336, R65: SAVE clears `dirty` and changes nothing else, and its image holds the arena as 406 uppercase
hexadecimal digits in address order, the counts, the return stack, and I as digits without leading zeros, "0" for
zero. LOAD of that image, in any state of a block with the same CAP, brings back the arena, I, the program's counts,
the cursor and the return stack, and leaves the word size, the mode and the flags. LOAD of an image whose strings are
malformed changes nothing; of one whose strings are good and whose program is not valid, it keeps the loaded arena
and I, empties the program and the return stack, and sets `dirty`. The image is typed data, the model's choice
(notes/assumptions/13.md). -/
def Obligations.SaveThenLoad : Prop :=
  ∀ (s u : State) (more more' : List HostOp), s.Inv → s.pending = .save :: more →
    u.params.cap = s.params.cap →
    ∃ img digits, digits = ['0', '1', '2', '3', '4', '5', '6', '7', '8', '9', 'A', 'B', 'C', 'D', 'E', 'F'] ∧
      step s = .next { s with
        pending := more
        dirty := false
        out := { Outputs.absent with image := some img } } ∧
      img.storage.length = 406 ∧
      (∀ a, a < 406 → img.storage[a]? = digits[(s.arena.get a).toNat]?) ∧
      img.lines = .int s.lines ∧ img.currentLine = .int s.cur ∧ img.returnStackPos = .int s.rsp ∧
      img.returnStack = some (s.rs.map fun l => .int l) ∧
      (∃ ds : List Nat, (∀ d ∈ ds, d < 16) ∧ img.index = ds.map (fun d => digits.getD d '0') ∧
        ds.foldl (fun n d => 16 * n + d) 0 = s.ireg.toNat ∧ 1 ≤ ds.length ∧ ds.length ≤ 17 ∧
        (ds.head? = some 0 → ds = [0])) ∧
      (u.pending = .load img :: more' →
        step u = .next { u with
          pending := more'
          arena := s.arena
          ireg := s.ireg
          lines := s.lines
          ext := s.ext
          cur := s.cur
          rs := s.rs
          rsp := s.rsp
          cache := ⟨1, 0⟩
          dirty := false
          out := { Outputs.absent with load := some .loaded } }) ∧
      (∀ bad : Image, u.pending = .load bad :: more' →
        ((bad.storage.length ≠ 406 ∨ bad.index.length < 1 ∨ 17 < bad.index.length ∨
            ∃ ch ∈ bad.storage ++ bad.index, hexDigit? ch = none) →
          step u = .next { u with
            pending := more'
            out := { Outputs.absent with load := some .rejected } }) ∧
        (∀ (m : Memory) (ds : List Nat), m.wf = true → bad.storage.length = 406 →
          (∀ a, a < 406 → bad.storage[a]?.bind hexDigit? = some (m.get a).toNat) →
          bad.index.map hexDigit? = ds.map some → 1 ≤ ds.length → ds.length ≤ 17 →
          ((∀ n, bad.lines = .int n → n < 0 ∨ 203 < n) ∨
            (∃ n l a : Nat, bad.lines = .int n ∧ 1 ≤ l ∧ l ≤ n ∧
              ({ u with arena := m } : State).lineAddr l = .ok a ∧
              406 < a + (if m.readN a 2 = 0xFF then 4 else 2)) ∨
            (∃ n, bad.lines = .int n ∧ ∀ c, bad.currentLine = .int c → c < 0 ∨ n < c) ∨
            (∀ p, bad.returnStackPos = .int p → p < -1 ∨ (u.params.cap : Int) - 1 < p) ∨
            bad.returnStack = none ∨
            (∃ xs, bad.returnStack = some xs ∧
              (xs.length ≠ u.params.cap ∨ ∃ x ∈ xs, ∀ n, x = .int n → n < 0 ∨ 203 < n))) →
          step u = .next { u with
            pending := more'
            arena := m
            ireg := val (ds.foldl (fun n d => 16 * n + d) 0)
            lines := 0
            ext := 0
            cur := 0
            rs := List.replicate u.params.cap 0
            rsp := -1
            cache := ⟨1, 0⟩
            dirty := true
            out := { Outputs.absent with load := some .rolledBack } }))
end

