-- ==== Sys2Proof/Laws/Binary64.lean ====
section
/-! SUPPORT. What rounding a fraction to binary64 gives: a finite double nearest to it, ties to even. -/

namespace Sys2Proof.Machine

/-! ### Powers of two in Nat and in Rat -/

/-- `atLeastPow` for base 2, as a comparison of rationals. -/
theorem atLeastPow_two {n d : Nat} (hd : 0 < d) {e : Int} :
    atLeastPow 2 n d e = true ↔ (2 : Rat) ^ e ≤ (n : Rat) / d := by
  have hdq : (0 : Rat) < d := by exact_mod_cast hd
  simp only [atLeastPow, decide_eq_true_eq]
  rw [le_div_iff₀ hdq]
  rcases le_total 0 e with h | h
  · obtain ⟨k, rfl⟩ := Int.eq_ofNat_of_zero_le h
    rw [show (-(k : Int)).toNat = 0 by omega, Int.toNat_natCast, pow_zero, mul_one, zpow_natCast, mul_comm]
    exact_mod_cast Iff.rfl
  · obtain ⟨k, hk⟩ := Int.eq_ofNat_of_zero_le (show 0 ≤ -e by omega)
    rw [show e = -(k : Int) by omega, show (-(k : Int)).toNat = 0 by omega, neg_neg, Int.toNat_natCast, pow_zero,
      mul_one, zpow_neg, zpow_natCast, inv_mul_le_iff₀ (by positivity), mul_comm]
    exact_mod_cast Iff.rfl

/-- The exponent of a positive fraction's leading bit. -/
theorem floorLog2_bounds {n d : Nat} (hn : 0 < n) (hd : 0 < d) :
    (2 : Rat) ^ floorLog2 n d ≤ (n : Rat) / d ∧ (n : Rat) / d < 2 ^ (floorLog2 n d + 1) := by
  have hdq : (0 : Rat) < d := by exact_mod_cast hd
  have a1 : (2 : Rat) ^ (Nat.log2 n) ≤ n := by exact_mod_cast Nat.log2_self_le hn.ne'
  have a2 : (n : Rat) < 2 ^ (Nat.log2 n + 1) := by exact_mod_cast Nat.lt_log2_self
  have b1 : (2 : Rat) ^ (Nat.log2 d) ≤ d := by exact_mod_cast Nat.log2_self_le hd.ne'
  have b2 : (d : Rat) < 2 ^ (Nat.log2 d + 1) := by exact_mod_cast Nat.lt_log2_self
  simp only [floorLog2]
  generalize Nat.log2 n = a at *
  generalize Nat.log2 d = b at *
  have lo : (2 : Rat) ^ ((a : Int) - b - 1) ≤ (n : Rat) / d := by
    rw [le_div_iff₀ hdq]
    calc (2 : Rat) ^ ((a : Int) - b - 1) * d ≤ 2 ^ ((a : Int) - b - 1) * 2 ^ (b + 1) :=
          mul_le_mul_of_nonneg_left b2.le (by positivity)
      _ = 2 ^ a := by rw [← zpow_natCast, ← zpow_add₀ (by norm_num), ← zpow_natCast]; congr 1; push_cast; ring
      _ ≤ n := a1
  have hi : (n : Rat) / d < 2 ^ ((a : Int) - b + 1) := by
    rw [div_lt_iff₀ hdq]
    calc (n : Rat) < 2 ^ (a + 1) := a2
      _ = 2 ^ ((a : Int) - b + 1) * 2 ^ b := by
          rw [← zpow_natCast, ← zpow_natCast, ← zpow_add₀ (by norm_num)]; congr 1; push_cast; ring
      _ ≤ _ := mul_le_mul_of_nonneg_left b1 (by positivity)
  split
  · rename_i h; exact ⟨(atLeastPow_two hd).1 h, hi⟩
  · rename_i h
    rw [atLeastPow_two hd] at h
    exact ⟨lo, by rw [sub_add_cancel]; exact not_le.1 h⟩

/-- A fraction scaled by a power of two, in Nat. -/
theorem scaled_two (n d : Nat) (e : Int) :
    ((n * 2 ^ (-e).toNat : Nat) : Rat) / ((d * 2 ^ e.toNat : Nat) : Rat) = (n : Rat) / d / 2 ^ e := by
  rcases le_total 0 e with h | h
  · obtain ⟨k, rfl⟩ := Int.eq_ofNat_of_zero_le h
    rw [show (-(k : Int)).toNat = 0 by omega, Int.toNat_natCast, zpow_natCast]
    push_cast
    rw [mul_one, div_mul_eq_div_div]
  · obtain ⟨k, hk⟩ := Int.eq_ofNat_of_zero_le (show 0 ≤ -e by omega)
    rw [show e = -(k : Int) by omega, show (-(k : Int)).toNat = 0 by omega, neg_neg, Int.toNat_natCast, zpow_neg,
      zpow_natCast]
    push_cast
    rw [mul_one, div_inv_eq_mul, mul_div_right_comm]

/-! ### Rounding to an integer -/

/-- `roundEven` is within a half, and even at a half. -/
theorem roundEven_near {n d : Nat} (hd : 0 < d) :
    2 * |(roundEven n d : Rat) - (n : Rat) / d| ≤ 1 ∧
      (2 * |(roundEven n d : Rat) - (n : Rat) / d| = 1 → roundEven n d % 2 = 0) := by
  have hdq : (0 : Rat) < d := by exact_mod_cast hd
  have h1 : (n : Rat) / d = (n / d : Nat) + ((n % d : Nat) : Rat) / d := by
    rw [eq_comm, add_div_eq_mul_add_div _ _ hdq.ne']; congr 1; exact_mod_cast Nat.div_add_mod' n d
  have h2 := Nat.mod_lt n hd
  have hr : 2 * (n % d) < d ∨ 2 * (n % d) = d ∨ d < 2 * (n % d) := by omega
  have hf0 : (0 : Rat) ≤ ((n % d : Nat) : Rat) / d := by positivity
  have hf1 : ((n % d : Nat) : Rat) / d < 1 := by rw [div_lt_one hdq]; exact_mod_cast h2
  have c1 : 2 * (n % d) < d → 2 * (((n % d : Nat) : Rat) / d) < 1 := fun h => by
    rw [mul_div_assoc', div_lt_one hdq]; exact_mod_cast h
  have c2 : 2 * (n % d) = d → 2 * (((n % d : Nat) : Rat) / d) = 1 := fun h => by
    rw [mul_div_assoc', div_eq_one_iff_eq hdq.ne']; exact_mod_cast h
  have c3 : d < 2 * (n % d) → 1 < 2 * (((n % d : Nat) : Rat) / d) := fun h => by
    rw [mul_div_assoc', one_lt_div hdq]; exact_mod_cast h
  rw [h1]
  simp only [roundEven]
  generalize ((n % d : Nat) : Rat) / d = f at *
  have dn : |((n / d : Nat) : Rat) - (((n / d : Nat) : Rat) + f)| = f := by
    rw [sub_add_cancel_left, abs_neg, abs_of_nonneg hf0]
  have up : |((n / d + 1 : Nat) : Rat) - (((n / d : Nat) : Rat) + f)| = 1 - f := by
    push_cast; rw [add_sub_add_left_eq_sub, abs_of_nonneg (by linarith)]
  split
  · rename_i h; have := c1 h; rw [dn]; exact ⟨this.le, fun h' => absurd h' this.ne⟩
  · split
    · rename_i h; have := c3 h; rw [up]; exact ⟨by linarith, fun h' => by linarith⟩
    · have := c2 (by omega)
      split
      · rename_i h; rw [dn]; exact ⟨this.le, fun _ => h⟩
      · rename_i h; rw [up]; exact ⟨by linarith, fun _ => by omega⟩

/-- No integer is nearer to `x` than one within a half, and another as near makes it a tie. -/
theorem near_int {m : Nat} {x : Rat} (h : 2 * |(m : Rat) - x| ≤ 1) (j : Int) :
    |(m : Rat) - x| ≤ |(j : Rat) - x| ∧
      (|(m : Rat) - x| = |(j : Rat) - x| → j = m ∨ 2 * |(m : Rat) - x| = 1) := by
  by_cases hj : j = m
  · subst hj; exact ⟨le_rfl, fun _ => .inl rfl⟩
  · have h1 : (1 : Rat) ≤ |(j : Rat) - m| := by
      have : (1 : Int) ≤ |j - m| := Int.one_le_abs (sub_ne_zero.2 hj)
      exact_mod_cast this
    have h2 : |(j : Rat) - m| ≤ |(j : Rat) - x| + |(m : Rat) - x| := by
      calc |(j : Rat) - m| = |((j : Rat) - x) - (m - x)| := by ring_nf
        _ ≤ _ := abs_sub _ _
    exact ⟨by linarith, fun h3 => .inr (by linarith)⟩

/-! ### Finite doubles -/

/-- The value of a double, by its sign, significand and scale. -/
theorem dblValue_eq (d : Double) :
    dblValue d = (if dblNeg d then -1 else 1) * ((dblSignificand d : Rat) * 2 ^ dblScale d) := by
  have : (dblNum d : Rat) / dblDen d = (dblSignificand d : Rat) * 2 ^ dblScale d := by
    have h := scaled_two (dblSignificand d) 1 (-dblScale d)
    simp only [neg_neg, one_mul, Nat.cast_one, div_one] at h
    simp only [dblNum, dblDen]
    rw [h, zpow_neg, div_inv_eq_mul]
  simp only [dblValue, Rat.mkRat_eq_div]
  split <;> push_cast <;> rw [← this] <;> ring

/-- A finite double's significand and scale. -/
theorem dblSignificand_lt (d : Double) : dblSignificand d < 2 ^ 53 ∧ -1074 ≤ dblScale d := by
  constructor
  · have : dblFrac d < 2 ^ 52 := Nat.mod_lt _ (by norm_num)
    simp only [dblSignificand]; split <;> omega
  · simp only [dblScale]; omega

/-- The largest finite double bounds every finite double. -/
theorem abs_dblValue_le {d : Double} (h : dblExpField d ≠ 0x7FF) :
    |dblValue d| ≤ (2 ^ 53 - 1) * 2 ^ (971 : Int) := by
  have h2 : dblScale d ≤ 971 := by
    have : dblExpField d < 2 ^ 11 := Nat.mod_lt _ (by norm_num)
    simp only [dblScale]; omega
  have h3 : (dblSignificand d : Rat) ≤ 2 ^ 53 - 1 := by
    have : ((dblSignificand d : Rat)) + 1 ≤ 2 ^ 53 := by exact_mod_cast (dblSignificand_lt d).1
    linarith
  have hs : |(if dblNeg d = true then -1 else 1 : Rat)| = 1 := by split <;> simp
  rw [dblValue_eq, abs_mul, hs, one_mul, abs_of_nonneg (by positivity)]
  exact mul_le_mul h3 (zpow_le_zpow_right₀ (by norm_num) h2) (by positivity) (by norm_num)

/-- The pattern of a magnitude `m · 2^e`: its value, its parity, and that it is finite. -/
theorem dblValue_pattern {neg : Bool} {m : Nat} {e : Int} {r : Double} (he : -1074 ≤ e) (hm : m ≤ 2 ^ 53)
    (hn : -1074 < e → 2 ^ 52 ≤ m) (hf : (e + 1074).toNat * 2 ^ 52 + m < 0x7FF * 2 ^ 52)
    (hr : r = BitVec.ofNat 64 ((if neg then 2 ^ 63 else 0) + ((e + 1074).toNat * 2 ^ 52 + m))) :
    dblExpField r ≠ 0x7FF ∧ r.toNat % 2 = m % 2 ∧
      dblValue r = (if neg then -1 else 1) * ((m : Rat) * 2 ^ e) := by
  obtain ⟨k, hk⟩ := Int.eq_ofNat_of_zero_le (show 0 ≤ e + 1074 by omega)
  have hk' : (e + 1074).toNat = k := by omega
  rw [hk'] at hf hr
  have hv : r.toNat = (if neg then 2 ^ 63 else 0) + (k * 2 ^ 52 + m) := by
    rw [hr, BitVec.toNat_ofNat]; apply Nat.mod_eq_of_lt; split <;> omega
  have hneg : dblNeg r = neg := by
    simp only [dblNeg, BitVec.msb_eq_decide, hv]
    split <;> rename_i h <;> simp only [h, decide_eq_true_eq, decide_eq_false_iff_not] <;> omega
  have hexp : dblExpField r = (k * 2 ^ 52 + m) / 2 ^ 52 := by
    simp only [dblExpField, hv]; cases neg <;> simp only [if_true, Bool.false_eq_true, if_false] <;> omega
  have hfrac : dblFrac r = (k * 2 ^ 52 + m) % 2 ^ 52 := by
    simp only [dblFrac, hv]; cases neg <;> simp only [if_true, Bool.false_eq_true, if_false] <;> omega
  refine ⟨by omega, by rw [hv]; split <;> omega, ?_⟩
  rw [dblValue_eq, hneg]
  congr 1
  simp only [dblSignificand, dblScale, hexp, hfrac]
  rcases Nat.lt_or_ge m (2 ^ 52) with h | h
  · have : k = 0 := by
      rcases Nat.eq_zero_or_pos k with h0 | h0
      · exact h0
      · have := hn (by omega); omega
    subst this
    rw [if_pos (by omega)]
    congr 2
    · omega
    · omega
  · rcases Nat.lt_or_ge m (2 ^ 53) with h' | h'
    · rw [if_neg (by omega)]
      congr 2
      · omega
      · omega
    · have hm' : m = 2 ^ 53 := by omega
      have h1 : (k * 2 ^ 52 + m) / 2 ^ 52 = k + 2 := by omega
      have h2 : (k * 2 ^ 52 + m) % 2 ^ 52 = 0 := by omega
      rw [h1, h2, if_neg (by omega), show ((max (k + 2) 1 : Nat) : Int) - 1075 = e + 1 by omega, hm',
        zpow_add₀ (by norm_num)]
      push_cast; ring

/-- Among the doubles, `m · 2^e` is nearest to a positive `q` when `m` is the integer nearest to `q / 2^e` and the
unit `2^e` is that of `q`. -/
theorem near_double {m : Nat} {q : Rat} {e : Int} (h : 2 * |(m : Rat) - q / 2 ^ e| ≤ 1)
    (he : e = -1074 ∨ (2 : Rat) ^ (e + 52) ≤ q)
    {s : Int} {k : Int} (hs : |s| < 2 ^ 53) (hk : -1074 ≤ k) :
    |(m : Rat) * 2 ^ e - q| ≤ |(s : Rat) * 2 ^ k - q| ∧
      (|(m : Rat) * 2 ^ e - q| = |(s : Rat) * 2 ^ k - q| →
        (s : Rat) * 2 ^ k = m * 2 ^ e ∨ 2 * |(m : Rat) - q / 2 ^ e| = 1) := by
  have hp : (0 : Rat) < 2 ^ e := by positivity
  have scale : ∀ j : Int, |(j : Rat) * 2 ^ e - q| = |(j : Rat) - q / 2 ^ e| * 2 ^ e := fun j => by
    have : (j : Rat) * 2 ^ e - q = ((j : Rat) - q / 2 ^ e) * 2 ^ e := by rw [sub_mul, div_mul_cancel₀ _ hp.ne']
    rw [this, abs_mul, abs_of_pos hp]
  have scm : |(m : Rat) * 2 ^ e - q| = |(m : Rat) - q / 2 ^ e| * 2 ^ e := by have := scale m; exact_mod_cast this
  have near := near_int h
  have mult : ∀ j : Int, |(m : Rat) * 2 ^ e - q| ≤ |(j : Rat) * 2 ^ e - q| := fun j => by
    rw [scm, scale]; exact mul_le_mul_of_nonneg_right (near j).1 hp.le
  by_cases hek : e ≤ k
  · -- a multiple of the unit
    obtain ⟨i, hi⟩ := Int.eq_ofNat_of_zero_le (show 0 ≤ k - e by omega)
    have hj : (s : Rat) * 2 ^ k = ((s * 2 ^ i : Int) : Rat) * 2 ^ e := by
      rw [show k = (i : Int) + e by omega, zpow_add₀ (by norm_num), zpow_natCast]; push_cast; ring
    rw [hj]
    refine ⟨mult _, fun h' => ?_⟩
    rw [scm, scale] at h'
    rcases (near (s * 2 ^ i)).2 (mul_right_cancel₀ hp.ne' h') with h'' | h''
    · left; rw [h'']; push_cast; rfl
    · exact .inr h''
  · -- below the unit: 2^52 units lie between
    have hq' : (2 : Rat) ^ (e + 52) ≤ q := by
      rcases he with h' | h'
      · omega
      · exact h'
    have hs' : (s : Rat) * 2 ^ k < 2 ^ (e + 52) := by
      calc (s : Rat) * 2 ^ k ≤ |(s : Rat)| * 2 ^ k := mul_le_mul_of_nonneg_right (le_abs_self _) (by positivity)
        _ < 2 ^ 53 * 2 ^ k := mul_lt_mul_of_pos_right (by exact_mod_cast hs) (by positivity)
        _ ≤ 2 ^ 53 * 2 ^ (e - 1) :=
            mul_le_mul_of_nonneg_left (zpow_le_zpow_right₀ (by norm_num) (by omega)) (by norm_num)
        _ = 2 ^ (e + 52) := by
            rw [← zpow_natCast, ← zpow_add₀ (by norm_num)]; congr 1; push_cast; ring
    have h1 : |(m : Rat) * 2 ^ e - q| ≤ q - 2 ^ (e + 52) := by
      have := mult (2 ^ 52)
      rwa [show ((2 ^ 52 : Int) : Rat) * 2 ^ e = 2 ^ (e + 52) by
        rw [zpow_add₀ (by norm_num)]; push_cast; rw [mul_comm], abs_of_nonpos (sub_nonpos.2 hq'), neg_sub]
        at this
    have h2 : |(s : Rat) * 2 ^ k - q| = q - s * 2 ^ k := by
      rw [abs_of_neg (by linarith), neg_sub]
    rw [h2]
    exact ⟨by linarith, fun h' => by linarith⟩

/-- A fraction below the overflow threshold rounds to a finite double nearest to it, ties to even. -/
theorem roundToDouble_nearest (neg : Bool) {n d : Nat} (hd : 0 < d)
    (hb : (n : Rat) / d + 2 ^ (970 : Int) < 2 ^ (1024 : Int)) :
    IsNearest (roundToDouble neg n d) ((if neg then -1 else 1) * ((n : Rat) / d)) := by
  have hdq : (0 : Rat) < d := by exact_mod_cast hd
  rcases Nat.eq_zero_or_pos n with rfl | hn
  · have h0 : dblValue (roundToDouble neg 0 d) = 0 := by simp [roundToDouble]; decide +kernel
    refine ⟨by simp [roundToDouble]; decide, fun x _ => ?_⟩
    simp only [h0, Nat.cast_zero, zero_div, mul_zero, sub_zero, abs_zero]
    exact ⟨abs_nonneg _, fun h => .inl (abs_eq_zero.1 h.symm)⟩
  obtain ⟨l1, l2⟩ := floorLog2_bounds hn hd
  have hq : (0 : Rat) < (n : Rat) / d := by positivity
  have hP : (0 : Rat) < 2 ^ (970 : Int) := by positivity
  have hL : floorLog2 n d ≤ 1023 := by
    by_contra hc
    have h1 : (2 : Rat) ^ (1024 : Int) ≤ 2 ^ floorLog2 n d := zpow_le_zpow_right₀ (by norm_num) (by omega)
    exact absurd (h1.trans l1) (not_le.2 ((lt_add_of_pos_right _ hP).trans hb))
  obtain ⟨e, hedef⟩ : ∃ e, e = max (floorLog2 n d - 52) (-1074) := ⟨_, rfl⟩
  obtain ⟨m, hmdef⟩ : ∃ m, m = roundEven (n * 2 ^ (-e).toNat) (d * 2 ^ e.toNat) := ⟨_, rfl⟩
  have near := roundEven_near (n := n * 2 ^ (-e).toNat) (d := d * 2 ^ e.toNat) (by positivity)
  rw [← hmdef, scaled_two] at near
  have hval : roundToDouble neg n d = BitVec.ofNat 64 ((if neg then 2 ^ 63 else 0) +
      min ((e + 1074).toNat * 2 ^ 52 + m) (0x7FF * 2 ^ 52)) := by
    simp only [roundToDouble, if_neg hn.ne', ← hedef, ← hmdef]
  generalize (n : Rat) / d = q at *
  have hp : (0 : Rat) < 2 ^ e := by positivity
  have he1 : e = -1074 ∨ (2 : Rat) ^ (e + 52) ≤ q := by
    rcases max_choice (floorLog2 n d - 52) (-1074) with h | h
    · right; rw [hedef, h, sub_add_cancel]; exact l1
    · left; rw [hedef, h]
  have hx := abs_le.1 (show |(m : Rat) - q / 2 ^ e| ≤ 1 / 2 by linarith [near.1])
  have hm : m ≤ 2 ^ 53 := by
    have h1 : q < 2 ^ (e + 53) := l2.trans_le (zpow_le_zpow_right₀ (by norm_num) (by omega))
    have h2 : q / 2 ^ e < 2 ^ 53 := by
      rw [div_lt_iff₀ hp]; rw [zpow_add₀ (by norm_num), mul_comm] at h1; exact_mod_cast h1
    by_contra hc
    have : (2 : Rat) ^ 53 + 1 ≤ m := by exact_mod_cast (show 2 ^ 53 + 1 ≤ m by omega)
    linarith
  have hm2 : -1074 < e → 2 ^ 52 ≤ m := fun h => by
    have h1 : (2 : Rat) ^ (e + 52) ≤ q := by
      rcases he1 with h' | h'
      · omega
      · exact h'
    have h2 : (2 : Rat) ^ 52 ≤ q / 2 ^ e := by
      rw [le_div_iff₀ hp]; rw [zpow_add₀ (by norm_num), mul_comm] at h1; exact_mod_cast h1
    by_contra hc
    have : (m : Rat) + 1 ≤ 2 ^ 52 := by exact_mod_cast (show m + 1 ≤ 2 ^ 52 by omega)
    linarith
  have hf : (e + 1074).toNat * 2 ^ 52 + m < 0x7FF * 2 ^ 52 := by
    by_cases h : e ≤ 970
    · omega
    · have he : e = 971 := by omega
      have h2 : q / 2 ^ e < 2 ^ 53 - 1 / 2 := by
        rw [he, div_lt_iff₀ (by positivity)]
        have h3 : (2 : Rat) ^ (971 : Int) = 2 ^ (970 : Int) * 2 := zpow_add_one₀ (by norm_num) 970
        have h4 : (2 : Rat) ^ (1024 : Int) = 2 ^ (970 : Int) * 2 ^ 54 := by
          rw [show (1024 : Int) = 970 + (54 : Nat) by norm_num, zpow_add₀ (by norm_num), zpow_natCast]
        rw [h3]; rw [h4] at hb
        linarith
      have : m < 2 ^ 53 := by
        by_contra hc
        have : (2 : Rat) ^ 53 ≤ m := by exact_mod_cast (show 2 ^ 53 ≤ m by omega)
        linarith
      omega
  rw [min_eq_left hf.le] at hval
  obtain ⟨f1, f2, f3⟩ := dblValue_pattern (by omega) hm hm2 hf hval
  refine ⟨f1, fun x _ => ?_⟩
  obtain ⟨x1, x2⟩ := dblSignificand_lt x
  -- the case of a negative sum is the positive one mirrored
  have key := fun (s : Int) (hs : |s| < 2 ^ 53) => near_double near.1 he1 hs x2
  obtain ⟨s, hs, hsx⟩ : ∃ s : Int, |s| < 2 ^ 53 ∧
      dblValue x = (if neg then -1 else 1) * ((s : Rat) * 2 ^ dblScale x) := by
    refine ⟨(if dblNeg x = neg then 1 else -1) * dblSignificand x, ?_, ?_⟩
    · rw [abs_mul, Nat.abs_cast]; split <;> simp <;> exact_mod_cast x1
    · rw [dblValue_eq]; cases dblNeg x <;> cases neg <;> simp
  have mirror : ∀ a b : Rat, |(if neg then -1 else 1) * a - (if neg then -1 else 1) * b| = |a - b| := fun a b => by
    cases neg <;> simp [abs_sub_comm, neg_add_eq_sub]
  rw [f3, hsx, mirror, mirror, f2]
  obtain ⟨k1, k2⟩ := key s hs
  refine ⟨k1, fun h => ?_⟩
  rcases k2 h with h' | h'
  · left; rw [h']
  · right; exact near.2 h'

end Sys2Proof.Machine
end

