-- ==== Sys2Proof/Laws/Memory.lean ====
section
/-! SUPPORT. The arena: what a read gives after each operation, and that every operation keeps the canonical form. -/

namespace Sys2Proof.Machine

/-! ### One cell -/

theorem Memory.get_insertCell (m : Memory) (a : Nat) (v : Nybble) (b : Nat) :
    (m.insertCell a v).get b = if b = a then v else m.get b := by
  induction m with
  | nil => simp only [insertCell, get, @eq_comm Nat b a]
  | cons cell m ih =>
    obtain ⟨k, w⟩ := cell
    simp only [insertCell]
    split
    · by_cases h : b = a
      · simp [get, h]
      · simp [get, h, Ne.symm h]
    · split
      · subst_vars
        by_cases h : b = k
        · simp [get, h]
        · simp [get, h, Ne.symm h]
      · rename_i h1 h2
        simp only [get, ih]
        by_cases h : b = a
        · subst h; rw [if_pos rfl, if_neg (Ne.symm h2), if_pos rfl]
        · simp [h]

theorem Memory.get_filter_ne (m : Memory) (a b : Nat) :
    Memory.get (m.filter (fun cell => cell.1 != a)) b = if b = a then 0 else m.get b := by
  induction m with
  | nil => simp [get]
  | cons cell m ih =>
    obtain ⟨k, w⟩ := cell
    by_cases hk : k = a
    · subst hk
      simp only [List.filter, bne_self_eq_false, ih, get]
      by_cases hb : b = k
      · simp [hb]
      · simp [hb, Ne.symm hb]
    · have : (k != a) = true := by simpa using hk
      simp only [List.filter, this, get, ih]
      split
      · subst_vars; simp [hk]
      · rfl

/-- What a read gives after a write. -/
theorem Memory.get_set (m : Memory) (a : Nat) (v : Nybble) (b : Nat) :
    (m.set a v).get b = if b = a ∧ a < arenaSize then v else m.get b := by
  unfold set
  by_cases ha : a < arenaSize
  · by_cases hv : v = 0
    · simp [ha, hv, get_filter_ne]
    · rw [if_pos ha, if_neg hv, get_insertCell]
      simp [ha]
  · simp [ha]

theorem Memory.get_set_same (m : Memory) {a : Nat} (v : Nybble) (h : a < arenaSize) :
    (m.set a v).get a = v := by simp [get_set, h]

theorem Memory.get_set_ne (m : Memory) {a b : Nat} (v : Nybble) (h : b ≠ a) :
    (m.set a v).get b = m.get b := by simp [get_set, h]

/-! ### Canonical form -/

theorem Memory.wfFrom_mono {lo lo' : Nat} (h : lo' ≤ lo) {m : Memory} (hm : m.wfFrom lo = true) :
    m.wfFrom lo' = true := by
  cases m with
  | nil => rfl
  | cons cell m =>
    obtain ⟨k, w⟩ := cell
    simp only [wfFrom, Bool.and_eq_true, decide_eq_true_eq] at hm ⊢
    exact ⟨⟨⟨by omega, hm.1.1.2⟩, hm.1.2⟩, hm.2⟩

theorem Memory.wfFrom_insertCell {m : Memory} {lo a : Nat} {v : Nybble} (hm : m.wfFrom lo = true)
    (hlo : lo ≤ a) (ha : a < arenaSize) (hv : v ≠ 0) : (m.insertCell a v).wfFrom lo = true := by
  induction m generalizing lo with
  | nil =>
    simp only [insertCell, wfFrom, Bool.and_eq_true, decide_eq_true_eq, bne_iff_ne]
    exact ⟨⟨⟨hlo, ha⟩, hv⟩, trivial⟩
  | cons cell m ih =>
    obtain ⟨k, w⟩ := cell
    simp only [wfFrom, Bool.and_eq_true, decide_eq_true_eq] at hm
    obtain ⟨⟨⟨h1, h2⟩, h3⟩, h4⟩ := hm
    simp only [insertCell]
    split
    · rename_i hk
      simp only [wfFrom, Bool.and_eq_true, decide_eq_true_eq]
      exact ⟨⟨⟨hlo, ha⟩, by simpa using hv⟩, ⟨⟨by omega, h2⟩, h3⟩, h4⟩
    · split
      · subst_vars
        simp only [wfFrom, Bool.and_eq_true, decide_eq_true_eq]
        exact ⟨⟨⟨hlo, ha⟩, by simpa using hv⟩, h4⟩
      · simp only [wfFrom, Bool.and_eq_true, decide_eq_true_eq]
        exact ⟨⟨⟨h1, h2⟩, h3⟩, ih h4 (by omega)⟩

theorem Memory.wfFrom_filter {m : Memory} {lo : Nat} (p : Nat × Nybble → Bool) (hm : m.wfFrom lo = true) :
    Memory.wfFrom lo (m.filter p) = true := by
  induction m generalizing lo with
  | nil => rfl
  | cons cell m ih =>
    obtain ⟨k, w⟩ := cell
    simp only [wfFrom, Bool.and_eq_true, decide_eq_true_eq] at hm
    obtain ⟨⟨⟨h1, h2⟩, h3⟩, h4⟩ := hm
    simp only [List.filter]
    split
    · simp only [wfFrom, Bool.and_eq_true, decide_eq_true_eq]
      exact ⟨⟨⟨h1, h2⟩, h3⟩, ih h4⟩
    · exact wfFrom_mono (by omega) (ih h4)

theorem Memory.wf_set {m : Memory} (a : Nat) (v : Nybble) (hm : m.wf = true) : (m.set a v).wf = true := by
  unfold set
  split
  · split
    · exact wfFrom_filter _ hm
    · exact wfFrom_insertCell hm (Nat.zero_le _) ‹_› ‹_›
  · exact hm

theorem Memory.get_of_wfFrom {m : Memory} {lo a : Nat} (hm : m.wfFrom lo = true) (ha : a < lo ∨ arenaSize ≤ a) :
    m.get a = 0 := by
  induction m generalizing lo with
  | nil => rfl
  | cons cell m ih =>
    obtain ⟨k, w⟩ := cell
    simp only [wfFrom, Bool.and_eq_true, decide_eq_true_eq] at hm
    obtain ⟨⟨⟨h1, h2⟩, h3⟩, h4⟩ := hm
    simp only [get]
    rw [if_neg (by omega), ih h4 (by omega)]

/-- In canonical form a nybble that does not exist reads as 0. -/
theorem Memory.get_of_wf {m : Memory} {a : Nat} (hm : m.wf = true) (ha : arenaSize ≤ a) : m.get a = 0 :=
  get_of_wfFrom hm (.inr ha)

theorem Memory.ext_wfFrom {m m' : Memory} {lo : Nat} (hm : m.wfFrom lo = true) (hm' : m'.wfFrom lo = true)
    (h : ∀ a, m.get a = m'.get a) : m = m' := by
  induction m generalizing m' lo with
  | nil =>
    cases m' with
    | nil => rfl
    | cons cell m' =>
      obtain ⟨k, w⟩ := cell
      simp only [wfFrom, Bool.and_eq_true, bne_iff_ne] at hm'
      have := h k
      simp only [get, if_true] at this
      exact absurd this.symm hm'.1.2
  | cons cell m ih =>
    obtain ⟨k, w⟩ := cell
    simp only [wfFrom, Bool.and_eq_true, decide_eq_true_eq, bne_iff_ne] at hm
    obtain ⟨⟨⟨h1, h2⟩, h3⟩, h4⟩ := hm
    cases m' with
    | nil =>
      have := h k
      simp only [get, if_true] at this
      exact absurd this h3
    | cons cell' m' =>
      obtain ⟨k', w'⟩ := cell'
      simp only [wfFrom, Bool.and_eq_true, decide_eq_true_eq, bne_iff_ne] at hm'
      obtain ⟨⟨⟨h1', h2'⟩, h3'⟩, h4'⟩ := hm'
      have hk : k = k' := by
        rcases Nat.lt_trichotomy k k' with hlt | heq | hgt
        · have := h k
          simp only [get, if_true, if_neg (show ¬ k' = k by omega)] at this
          rw [get_of_wfFrom h4' (.inl (by omega))] at this
          exact absurd this h3
        · exact heq
        · have := h k'
          simp only [get, if_true, if_neg (show ¬ k = k' by omega)] at this
          rw [get_of_wfFrom h4 (.inl (by omega))] at this
          exact absurd this.symm h3'
      subst hk
      have hw : w = w' := by simpa [get] using h k
      subst hw
      congr 1
      refine ih h4 h4' fun a => ?_
      by_cases ha : a = k
      · subst ha
        rw [get_of_wfFrom h4 (.inl (by omega)), get_of_wfFrom h4' (.inl (by omega))]
      · have := h a
        simpa only [get, if_neg (Ne.symm ha)] using this

/-- Arenas in canonical form that read alike are equal. -/
theorem Memory.ext_wf {m m' : Memory} (hm : m.wf = true) (hm' : m'.wf = true) (h : ∀ a, m.get a = m'.get a) :
    m = m' := ext_wfFrom hm hm' h

/-! ### Numbers -/

theorem Memory.readN_lt (m : Memory) (a n : Nat) : m.readN a n < 16 ^ n := by
  induction n with
  | zero => simp [readN]
  | succ n ih =>
    have := (m.get (a + n)).isLt
    simp only [readN, Nat.pow_succ]
    omega

theorem Memory.readN_congr {m m' : Memory} {a n : Nat} (h : ∀ b, a ≤ b → b < a + n → m.get b = m'.get b) :
    m.readN a n = m'.readN a n := by
  induction n with
  | zero => rfl
  | succ n ih =>
    simp only [readN]
    rw [ih fun b h1 h2 => h b h1 (by omega), h (a + n) (by omega) (by omega)]

theorem Memory.wf_writeN {m : Memory} (a n v : Nat) (hm : m.wf = true) : (m.writeN a n v).wf = true := by
  induction n generalizing v with
  | zero => exact hm
  | succ n ih => exact wf_set _ _ (ih _)

/-- A nybble of a written number, or the nybble as before. -/
theorem Memory.get_writeN {m : Memory} {a n v : Nat} (h : a + n ≤ arenaSize) (b : Nat) :
    (m.writeN a n v).get b =
      if a ≤ b ∧ b < a + n then BitVec.ofNat 4 (v / 16 ^ (a + n - 1 - b)) else m.get b := by
  induction n generalizing v with
  | zero => simp only [writeN]; rw [if_neg (by omega)]
  | succ n ih =>
    simp only [writeN, get_set, ih (show a + n ≤ arenaSize by omega)]
    by_cases hb : b = a + n
    · subst hb
      rw [if_pos ⟨rfl, by omega⟩, if_pos ⟨by omega, by omega⟩]
      simp
    · rw [if_neg (by omega)]
      by_cases hin : a ≤ b ∧ b < a + n
      · rw [if_pos hin, if_pos ⟨hin.1, by omega⟩, Nat.div_div_eq_div_mul, ← Nat.pow_succ']
        congr 3
        omega
      · rw [if_neg hin, if_neg (by omega)]

theorem Memory.get_writeN_outside {m : Memory} {a n v b : Nat} (hb : b < a ∨ a + n ≤ b) :
    (m.writeN a n v).get b = m.get b := by
  induction n generalizing v with
  | zero => rfl
  | succ n ih => simp only [writeN]; rw [get_set_ne _ _ (by omega), ih (by omega)]

/-- A number reads back as it was written. -/
theorem Memory.readN_writeN_same {m : Memory} {a n v : Nat} (h : a + n ≤ arenaSize) :
    (m.writeN a n v).readN a n = v % 16 ^ n := by
  induction n generalizing v with
  | zero => simp [readN, Nat.mod_one]
  | succ n ih =>
    have h1 : (m.writeN a (n + 1) v).readN a n = (m.writeN a n (v / 16)).readN a n :=
      readN_congr fun b _ hb => by simp only [writeN]; exact get_set_ne _ _ (by omega)
    have h2 : (m.writeN a (n + 1) v).get (a + n) = BitVec.ofNat 4 v := by
      simp only [writeN]; exact get_set_same _ _ (by omega)
    simp only [readN, h1, h2, ih (show a + n ≤ arenaSize by omega), BitVec.toNat_ofNat]
    have h3 := Nat.mod_mul (x := v) (a := 16) (b := 16 ^ n)
    rw [show 16 ^ (n + 1) = 16 * 16 ^ n from Nat.pow_succ']
    omega

/-! ### Blocks -/

theorem Memory.wf_zero {m : Memory} (a n : Nat) (hm : m.wf = true) : (m.zero a n).wf = true := by
  induction n with
  | zero => exact hm
  | succ n ih => exact wf_set _ _ ih

theorem Memory.get_zero {m : Memory} {a n : Nat} (h : a + n ≤ arenaSize) (b : Nat) :
    (m.zero a n).get b = if a ≤ b ∧ b < a + n then 0 else m.get b := by
  induction n with
  | zero => simp only [zero]; rw [if_neg (by omega)]
  | succ n ih =>
    simp only [zero, get_set, ih (by omega)]
    by_cases hb : b = a + n
    · rw [if_pos ⟨hb, by omega⟩, if_pos (by omega)]
    · rw [if_neg (by omega)]
      by_cases hin : a ≤ b ∧ b < a + n
      · rw [if_pos hin, if_pos (by omega)]
      · rw [if_neg hin, if_neg (by omega)]

theorem Memory.get_zero_outside {m : Memory} {a n b : Nat} (hb : b < a ∨ a + n ≤ b) :
    (m.zero a n).get b = m.get b := by
  induction n with
  | zero => rfl
  | succ n ih => simp only [zero]; rw [get_set_ne _ _ (by omega), ih (by omega)]

theorem Memory.wf_moveUp {m : Memory} (a sz n : Nat) (hm : m.wf = true) : (m.moveUp a sz n).wf = true := by
  induction n generalizing m with
  | zero => exact hm
  | succ n ih => exact ih (wf_set _ _ hm)

/-- The block `[a, a + n)` moved up by `sz`. -/
theorem Memory.get_moveUp {m : Memory} {a sz n : Nat} (h : a + n + sz ≤ arenaSize) (b : Nat) :
    (m.moveUp a sz n).get b = if a + sz ≤ b ∧ b < a + sz + n then m.get (b - sz) else m.get b := by
  induction n generalizing m with
  | zero => simp only [moveUp]; rw [if_neg (by omega)]
  | succ n ih =>
    simp only [moveUp, ih (show a + n + sz ≤ arenaSize by omega)]
    by_cases hin : a + sz ≤ b ∧ b < a + sz + n
    · rw [if_pos hin, if_pos (by omega)]
      by_cases hsz : sz = 0
      · subst hsz
        rw [get_set]
        split
        · rename_i he
          have : a + n = b - 0 := by omega
          rw [this]
        · rfl
      · rw [get_set_ne _ _ (by omega)]
    · rw [if_neg hin]
      by_cases hb : b = a + n + sz
      · subst hb
        rw [get_set_same _ _ (by omega), if_pos (by omega)]
        congr 1; omega
      · rw [get_set_ne _ _ hb, if_neg (by omega)]

theorem Memory.wf_moveDown {m : Memory} (a sz n : Nat) (hm : m.wf = true) : (m.moveDown a sz n).wf = true := by
  induction n with
  | zero => exact hm
  | succ n ih => exact wf_set _ _ ih

/-- The block `[a + sz, a + sz + n)` moved down by `sz`. -/
theorem Memory.get_moveDown {m : Memory} {a sz n : Nat} (h : a + n ≤ arenaSize) (b : Nat) :
    (m.moveDown a sz n).get b = if a ≤ b ∧ b < a + n then m.get (b + sz) else m.get b := by
  induction n generalizing b with
  | zero => simp only [moveDown]; rw [if_neg (by omega)]
  | succ n ih =>
    have ih' := ih (show a + n ≤ arenaSize by omega)
    simp only [moveDown, get_set, ih']
    by_cases hb : b = a + n
    · subst hb
      have h1 : ¬ (a ≤ a + n + sz ∧ a + n + sz < a + n) := by omega
      rw [if_pos ⟨rfl, by omega⟩, if_neg h1, if_pos ⟨by omega, by omega⟩]
    · rw [if_neg (by omega)]
      by_cases hin : a ≤ b ∧ b < a + n
      · rw [if_pos hin, if_pos (by omega)]
      · rw [if_neg hin, if_neg (by omega)]

/-! ### Checked accesses -/

theorem requireArena_ok {hi : Nat} (h : hi ≤ arenaSize) : requireArena hi = .ok () := by
  simp [requireArena, require, h]

theorem memRead_ok {m : Memory} {a n : Nat} (h : a + n ≤ arenaSize) : memRead m a n = .ok (m.readN a n) := by
  simp [memRead, requireArena_ok h, bind, Except.bind, pure, Except.pure]

theorem memWrite_ok {m : Memory} {a n v : Nat} (h : a + n ≤ arenaSize) :
    memWrite m a n v = .ok (m.writeN a n v) := by
  simp [memWrite, requireArena_ok h, bind, Except.bind, pure, Except.pure]

/-- A checked read gives the number, or the fault where a nybble does not exist. -/
theorem memRead_cases (m : Memory) (a n : Nat) :
    (a + n ≤ arenaSize ∧ memRead m a n = .ok (m.readN a n)) ∨
    (arenaSize < a + n ∧ memRead m a n = .error (.fault (.noSuchNybble (a + n - 1)))) := by
  by_cases h : a + n ≤ arenaSize
  · exact .inl ⟨h, memRead_ok h⟩
  · refine .inr ⟨by omega, ?_⟩
    simp [memRead, requireArena, require, h, bind, Except.bind]

/-- A checked write gives the arena with the number in it, or the fault where a nybble does not exist. -/
theorem memWrite_cases (m : Memory) (a n v : Nat) :
    (a + n ≤ arenaSize ∧ memWrite m a n v = .ok (m.writeN a n v)) ∨
    (arenaSize < a + n ∧ memWrite m a n v = .error (.fault (.noSuchNybble (a + n - 1)))) := by
  by_cases h : a + n ≤ arenaSize
  · exact .inl ⟨h, memWrite_ok h⟩
  · refine .inr ⟨by omega, ?_⟩
    simp [memWrite, requireArena, require, h, bind, Except.bind]

end Sys2Proof.Machine
end

