-- ==== Sys2Proof/Laws/State.lean ====
section
/-! SUPPORT. One lemma for each field of State and each one-field update: what the field reads after the update. -/

namespace Sys2Proof.Machine

/-! ### `setWs` -/

@[simp] theorem State.setWs_params (s : State) (v : Nat) : (s.setWs v).params = s.params := rfl
@[simp] theorem State.setWs_ws (s : State) (v : Nat) : (s.setWs v).ws = v := rfl
@[simp] theorem State.setWs_mode (s : State) (v : Nat) : (s.setWs v).mode = s.mode := rfl
@[simp] theorem State.setWs_c (s : State) (v : Nat) : (s.setWs v).c = s.c := rfl
@[simp] theorem State.setWs_g (s : State) (v : Nat) : (s.setWs v).g = s.g := rfl
@[simp] theorem State.setWs_arena (s : State) (v : Nat) : (s.setWs v).arena = s.arena := rfl
@[simp] theorem State.setWs_ireg (s : State) (v : Nat) : (s.setWs v).ireg = s.ireg := rfl
@[simp] theorem State.setWs_lines (s : State) (v : Nat) : (s.setWs v).lines = s.lines := rfl
@[simp] theorem State.setWs_ext (s : State) (v : Nat) : (s.setWs v).ext = s.ext := rfl
@[simp] theorem State.setWs_cur (s : State) (v : Nat) : (s.setWs v).cur = s.cur := rfl
@[simp] theorem State.setWs_rs (s : State) (v : Nat) : (s.setWs v).rs = s.rs := rfl
@[simp] theorem State.setWs_rsp (s : State) (v : Nat) : (s.setWs v).rsp = s.rsp := rfl
@[simp] theorem State.setWs_cache (s : State) (v : Nat) : (s.setWs v).cache = s.cache := rfl
@[simp] theorem State.setWs_dirty (s : State) (v : Nat) : (s.setWs v).dirty = s.dirty := rfl
@[simp] theorem State.setWs_inp (s : State) (v : Nat) : (s.setWs v).inp = s.inp := rfl
@[simp] theorem State.setWs_pending (s : State) (v : Nat) : (s.setWs v).pending = s.pending := rfl
@[simp] theorem State.setWs_out (s : State) (v : Nat) : (s.setWs v).out = s.out := rfl
@[simp] theorem State.setWs_freeCtr (s : State) (v : Nat) : (s.setWs v).freeCtr = s.freeCtr := rfl

/-! ### `setMode` -/

@[simp] theorem State.setMode_params (s : State) (v : Mode) : (s.setMode v).params = s.params := rfl
@[simp] theorem State.setMode_ws (s : State) (v : Mode) : (s.setMode v).ws = s.ws := rfl
@[simp] theorem State.setMode_mode (s : State) (v : Mode) : (s.setMode v).mode = v := rfl
@[simp] theorem State.setMode_c (s : State) (v : Mode) : (s.setMode v).c = s.c := rfl
@[simp] theorem State.setMode_g (s : State) (v : Mode) : (s.setMode v).g = s.g := rfl
@[simp] theorem State.setMode_arena (s : State) (v : Mode) : (s.setMode v).arena = s.arena := rfl
@[simp] theorem State.setMode_ireg (s : State) (v : Mode) : (s.setMode v).ireg = s.ireg := rfl
@[simp] theorem State.setMode_lines (s : State) (v : Mode) : (s.setMode v).lines = s.lines := rfl
@[simp] theorem State.setMode_ext (s : State) (v : Mode) : (s.setMode v).ext = s.ext := rfl
@[simp] theorem State.setMode_cur (s : State) (v : Mode) : (s.setMode v).cur = s.cur := rfl
@[simp] theorem State.setMode_rs (s : State) (v : Mode) : (s.setMode v).rs = s.rs := rfl
@[simp] theorem State.setMode_rsp (s : State) (v : Mode) : (s.setMode v).rsp = s.rsp := rfl
@[simp] theorem State.setMode_cache (s : State) (v : Mode) : (s.setMode v).cache = s.cache := rfl
@[simp] theorem State.setMode_dirty (s : State) (v : Mode) : (s.setMode v).dirty = s.dirty := rfl
@[simp] theorem State.setMode_inp (s : State) (v : Mode) : (s.setMode v).inp = s.inp := rfl
@[simp] theorem State.setMode_pending (s : State) (v : Mode) : (s.setMode v).pending = s.pending := rfl
@[simp] theorem State.setMode_out (s : State) (v : Mode) : (s.setMode v).out = s.out := rfl
@[simp] theorem State.setMode_freeCtr (s : State) (v : Mode) : (s.setMode v).freeCtr = s.freeCtr := rfl

/-! ### `setC` -/

@[simp] theorem State.setC_params (s : State) (v : Bool) : (s.setC v).params = s.params := rfl
@[simp] theorem State.setC_ws (s : State) (v : Bool) : (s.setC v).ws = s.ws := rfl
@[simp] theorem State.setC_mode (s : State) (v : Bool) : (s.setC v).mode = s.mode := rfl
@[simp] theorem State.setC_c (s : State) (v : Bool) : (s.setC v).c = v := rfl
@[simp] theorem State.setC_g (s : State) (v : Bool) : (s.setC v).g = s.g := rfl
@[simp] theorem State.setC_arena (s : State) (v : Bool) : (s.setC v).arena = s.arena := rfl
@[simp] theorem State.setC_ireg (s : State) (v : Bool) : (s.setC v).ireg = s.ireg := rfl
@[simp] theorem State.setC_lines (s : State) (v : Bool) : (s.setC v).lines = s.lines := rfl
@[simp] theorem State.setC_ext (s : State) (v : Bool) : (s.setC v).ext = s.ext := rfl
@[simp] theorem State.setC_cur (s : State) (v : Bool) : (s.setC v).cur = s.cur := rfl
@[simp] theorem State.setC_rs (s : State) (v : Bool) : (s.setC v).rs = s.rs := rfl
@[simp] theorem State.setC_rsp (s : State) (v : Bool) : (s.setC v).rsp = s.rsp := rfl
@[simp] theorem State.setC_cache (s : State) (v : Bool) : (s.setC v).cache = s.cache := rfl
@[simp] theorem State.setC_dirty (s : State) (v : Bool) : (s.setC v).dirty = s.dirty := rfl
@[simp] theorem State.setC_inp (s : State) (v : Bool) : (s.setC v).inp = s.inp := rfl
@[simp] theorem State.setC_pending (s : State) (v : Bool) : (s.setC v).pending = s.pending := rfl
@[simp] theorem State.setC_out (s : State) (v : Bool) : (s.setC v).out = s.out := rfl
@[simp] theorem State.setC_freeCtr (s : State) (v : Bool) : (s.setC v).freeCtr = s.freeCtr := rfl

/-! ### `setG` -/

@[simp] theorem State.setG_params (s : State) (v : Bool) : (s.setG v).params = s.params := rfl
@[simp] theorem State.setG_ws (s : State) (v : Bool) : (s.setG v).ws = s.ws := rfl
@[simp] theorem State.setG_mode (s : State) (v : Bool) : (s.setG v).mode = s.mode := rfl
@[simp] theorem State.setG_c (s : State) (v : Bool) : (s.setG v).c = s.c := rfl
@[simp] theorem State.setG_g (s : State) (v : Bool) : (s.setG v).g = v := rfl
@[simp] theorem State.setG_arena (s : State) (v : Bool) : (s.setG v).arena = s.arena := rfl
@[simp] theorem State.setG_ireg (s : State) (v : Bool) : (s.setG v).ireg = s.ireg := rfl
@[simp] theorem State.setG_lines (s : State) (v : Bool) : (s.setG v).lines = s.lines := rfl
@[simp] theorem State.setG_ext (s : State) (v : Bool) : (s.setG v).ext = s.ext := rfl
@[simp] theorem State.setG_cur (s : State) (v : Bool) : (s.setG v).cur = s.cur := rfl
@[simp] theorem State.setG_rs (s : State) (v : Bool) : (s.setG v).rs = s.rs := rfl
@[simp] theorem State.setG_rsp (s : State) (v : Bool) : (s.setG v).rsp = s.rsp := rfl
@[simp] theorem State.setG_cache (s : State) (v : Bool) : (s.setG v).cache = s.cache := rfl
@[simp] theorem State.setG_dirty (s : State) (v : Bool) : (s.setG v).dirty = s.dirty := rfl
@[simp] theorem State.setG_inp (s : State) (v : Bool) : (s.setG v).inp = s.inp := rfl
@[simp] theorem State.setG_pending (s : State) (v : Bool) : (s.setG v).pending = s.pending := rfl
@[simp] theorem State.setG_out (s : State) (v : Bool) : (s.setG v).out = s.out := rfl
@[simp] theorem State.setG_freeCtr (s : State) (v : Bool) : (s.setG v).freeCtr = s.freeCtr := rfl

/-! ### `setArena` -/

@[simp] theorem State.setArena_params (s : State) (v : Memory) : (s.setArena v).params = s.params := rfl
@[simp] theorem State.setArena_ws (s : State) (v : Memory) : (s.setArena v).ws = s.ws := rfl
@[simp] theorem State.setArena_mode (s : State) (v : Memory) : (s.setArena v).mode = s.mode := rfl
@[simp] theorem State.setArena_c (s : State) (v : Memory) : (s.setArena v).c = s.c := rfl
@[simp] theorem State.setArena_g (s : State) (v : Memory) : (s.setArena v).g = s.g := rfl
@[simp] theorem State.setArena_arena (s : State) (v : Memory) : (s.setArena v).arena = v := rfl
@[simp] theorem State.setArena_ireg (s : State) (v : Memory) : (s.setArena v).ireg = s.ireg := rfl
@[simp] theorem State.setArena_lines (s : State) (v : Memory) : (s.setArena v).lines = s.lines := rfl
@[simp] theorem State.setArena_ext (s : State) (v : Memory) : (s.setArena v).ext = s.ext := rfl
@[simp] theorem State.setArena_cur (s : State) (v : Memory) : (s.setArena v).cur = s.cur := rfl
@[simp] theorem State.setArena_rs (s : State) (v : Memory) : (s.setArena v).rs = s.rs := rfl
@[simp] theorem State.setArena_rsp (s : State) (v : Memory) : (s.setArena v).rsp = s.rsp := rfl
@[simp] theorem State.setArena_cache (s : State) (v : Memory) : (s.setArena v).cache = s.cache := rfl
@[simp] theorem State.setArena_dirty (s : State) (v : Memory) : (s.setArena v).dirty = s.dirty := rfl
@[simp] theorem State.setArena_inp (s : State) (v : Memory) : (s.setArena v).inp = s.inp := rfl
@[simp] theorem State.setArena_pending (s : State) (v : Memory) : (s.setArena v).pending = s.pending := rfl
@[simp] theorem State.setArena_out (s : State) (v : Memory) : (s.setArena v).out = s.out := rfl
@[simp] theorem State.setArena_freeCtr (s : State) (v : Memory) : (s.setArena v).freeCtr = s.freeCtr := rfl

/-! ### `setIreg` -/

@[simp] theorem State.setIreg_params (s : State) (v : Value) : (s.setIreg v).params = s.params := rfl
@[simp] theorem State.setIreg_ws (s : State) (v : Value) : (s.setIreg v).ws = s.ws := rfl
@[simp] theorem State.setIreg_mode (s : State) (v : Value) : (s.setIreg v).mode = s.mode := rfl
@[simp] theorem State.setIreg_c (s : State) (v : Value) : (s.setIreg v).c = s.c := rfl
@[simp] theorem State.setIreg_g (s : State) (v : Value) : (s.setIreg v).g = s.g := rfl
@[simp] theorem State.setIreg_arena (s : State) (v : Value) : (s.setIreg v).arena = s.arena := rfl
@[simp] theorem State.setIreg_ireg (s : State) (v : Value) : (s.setIreg v).ireg = v := rfl
@[simp] theorem State.setIreg_lines (s : State) (v : Value) : (s.setIreg v).lines = s.lines := rfl
@[simp] theorem State.setIreg_ext (s : State) (v : Value) : (s.setIreg v).ext = s.ext := rfl
@[simp] theorem State.setIreg_cur (s : State) (v : Value) : (s.setIreg v).cur = s.cur := rfl
@[simp] theorem State.setIreg_rs (s : State) (v : Value) : (s.setIreg v).rs = s.rs := rfl
@[simp] theorem State.setIreg_rsp (s : State) (v : Value) : (s.setIreg v).rsp = s.rsp := rfl
@[simp] theorem State.setIreg_cache (s : State) (v : Value) : (s.setIreg v).cache = s.cache := rfl
@[simp] theorem State.setIreg_dirty (s : State) (v : Value) : (s.setIreg v).dirty = s.dirty := rfl
@[simp] theorem State.setIreg_inp (s : State) (v : Value) : (s.setIreg v).inp = s.inp := rfl
@[simp] theorem State.setIreg_pending (s : State) (v : Value) : (s.setIreg v).pending = s.pending := rfl
@[simp] theorem State.setIreg_out (s : State) (v : Value) : (s.setIreg v).out = s.out := rfl
@[simp] theorem State.setIreg_freeCtr (s : State) (v : Value) : (s.setIreg v).freeCtr = s.freeCtr := rfl

/-! ### `setLines` -/

@[simp] theorem State.setLines_params (s : State) (v : Nat) : (s.setLines v).params = s.params := rfl
@[simp] theorem State.setLines_ws (s : State) (v : Nat) : (s.setLines v).ws = s.ws := rfl
@[simp] theorem State.setLines_mode (s : State) (v : Nat) : (s.setLines v).mode = s.mode := rfl
@[simp] theorem State.setLines_c (s : State) (v : Nat) : (s.setLines v).c = s.c := rfl
@[simp] theorem State.setLines_g (s : State) (v : Nat) : (s.setLines v).g = s.g := rfl
@[simp] theorem State.setLines_arena (s : State) (v : Nat) : (s.setLines v).arena = s.arena := rfl
@[simp] theorem State.setLines_ireg (s : State) (v : Nat) : (s.setLines v).ireg = s.ireg := rfl
@[simp] theorem State.setLines_lines (s : State) (v : Nat) : (s.setLines v).lines = v := rfl
@[simp] theorem State.setLines_ext (s : State) (v : Nat) : (s.setLines v).ext = s.ext := rfl
@[simp] theorem State.setLines_cur (s : State) (v : Nat) : (s.setLines v).cur = s.cur := rfl
@[simp] theorem State.setLines_rs (s : State) (v : Nat) : (s.setLines v).rs = s.rs := rfl
@[simp] theorem State.setLines_rsp (s : State) (v : Nat) : (s.setLines v).rsp = s.rsp := rfl
@[simp] theorem State.setLines_cache (s : State) (v : Nat) : (s.setLines v).cache = s.cache := rfl
@[simp] theorem State.setLines_dirty (s : State) (v : Nat) : (s.setLines v).dirty = s.dirty := rfl
@[simp] theorem State.setLines_inp (s : State) (v : Nat) : (s.setLines v).inp = s.inp := rfl
@[simp] theorem State.setLines_pending (s : State) (v : Nat) : (s.setLines v).pending = s.pending := rfl
@[simp] theorem State.setLines_out (s : State) (v : Nat) : (s.setLines v).out = s.out := rfl
@[simp] theorem State.setLines_freeCtr (s : State) (v : Nat) : (s.setLines v).freeCtr = s.freeCtr := rfl

/-! ### `setExt` -/

@[simp] theorem State.setExt_params (s : State) (v : Nat) : (s.setExt v).params = s.params := rfl
@[simp] theorem State.setExt_ws (s : State) (v : Nat) : (s.setExt v).ws = s.ws := rfl
@[simp] theorem State.setExt_mode (s : State) (v : Nat) : (s.setExt v).mode = s.mode := rfl
@[simp] theorem State.setExt_c (s : State) (v : Nat) : (s.setExt v).c = s.c := rfl
@[simp] theorem State.setExt_g (s : State) (v : Nat) : (s.setExt v).g = s.g := rfl
@[simp] theorem State.setExt_arena (s : State) (v : Nat) : (s.setExt v).arena = s.arena := rfl
@[simp] theorem State.setExt_ireg (s : State) (v : Nat) : (s.setExt v).ireg = s.ireg := rfl
@[simp] theorem State.setExt_lines (s : State) (v : Nat) : (s.setExt v).lines = s.lines := rfl
@[simp] theorem State.setExt_ext (s : State) (v : Nat) : (s.setExt v).ext = v := rfl
@[simp] theorem State.setExt_cur (s : State) (v : Nat) : (s.setExt v).cur = s.cur := rfl
@[simp] theorem State.setExt_rs (s : State) (v : Nat) : (s.setExt v).rs = s.rs := rfl
@[simp] theorem State.setExt_rsp (s : State) (v : Nat) : (s.setExt v).rsp = s.rsp := rfl
@[simp] theorem State.setExt_cache (s : State) (v : Nat) : (s.setExt v).cache = s.cache := rfl
@[simp] theorem State.setExt_dirty (s : State) (v : Nat) : (s.setExt v).dirty = s.dirty := rfl
@[simp] theorem State.setExt_inp (s : State) (v : Nat) : (s.setExt v).inp = s.inp := rfl
@[simp] theorem State.setExt_pending (s : State) (v : Nat) : (s.setExt v).pending = s.pending := rfl
@[simp] theorem State.setExt_out (s : State) (v : Nat) : (s.setExt v).out = s.out := rfl
@[simp] theorem State.setExt_freeCtr (s : State) (v : Nat) : (s.setExt v).freeCtr = s.freeCtr := rfl

/-! ### `setCur` -/

@[simp] theorem State.setCur_params (s : State) (v : Nat) : (s.setCur v).params = s.params := rfl
@[simp] theorem State.setCur_ws (s : State) (v : Nat) : (s.setCur v).ws = s.ws := rfl
@[simp] theorem State.setCur_mode (s : State) (v : Nat) : (s.setCur v).mode = s.mode := rfl
@[simp] theorem State.setCur_c (s : State) (v : Nat) : (s.setCur v).c = s.c := rfl
@[simp] theorem State.setCur_g (s : State) (v : Nat) : (s.setCur v).g = s.g := rfl
@[simp] theorem State.setCur_arena (s : State) (v : Nat) : (s.setCur v).arena = s.arena := rfl
@[simp] theorem State.setCur_ireg (s : State) (v : Nat) : (s.setCur v).ireg = s.ireg := rfl
@[simp] theorem State.setCur_lines (s : State) (v : Nat) : (s.setCur v).lines = s.lines := rfl
@[simp] theorem State.setCur_ext (s : State) (v : Nat) : (s.setCur v).ext = s.ext := rfl
@[simp] theorem State.setCur_cur (s : State) (v : Nat) : (s.setCur v).cur = v := rfl
@[simp] theorem State.setCur_rs (s : State) (v : Nat) : (s.setCur v).rs = s.rs := rfl
@[simp] theorem State.setCur_rsp (s : State) (v : Nat) : (s.setCur v).rsp = s.rsp := rfl
@[simp] theorem State.setCur_cache (s : State) (v : Nat) : (s.setCur v).cache = s.cache := rfl
@[simp] theorem State.setCur_dirty (s : State) (v : Nat) : (s.setCur v).dirty = s.dirty := rfl
@[simp] theorem State.setCur_inp (s : State) (v : Nat) : (s.setCur v).inp = s.inp := rfl
@[simp] theorem State.setCur_pending (s : State) (v : Nat) : (s.setCur v).pending = s.pending := rfl
@[simp] theorem State.setCur_out (s : State) (v : Nat) : (s.setCur v).out = s.out := rfl
@[simp] theorem State.setCur_freeCtr (s : State) (v : Nat) : (s.setCur v).freeCtr = s.freeCtr := rfl

/-! ### `setRs` -/

@[simp] theorem State.setRs_params (s : State) (v : List Nat) : (s.setRs v).params = s.params := rfl
@[simp] theorem State.setRs_ws (s : State) (v : List Nat) : (s.setRs v).ws = s.ws := rfl
@[simp] theorem State.setRs_mode (s : State) (v : List Nat) : (s.setRs v).mode = s.mode := rfl
@[simp] theorem State.setRs_c (s : State) (v : List Nat) : (s.setRs v).c = s.c := rfl
@[simp] theorem State.setRs_g (s : State) (v : List Nat) : (s.setRs v).g = s.g := rfl
@[simp] theorem State.setRs_arena (s : State) (v : List Nat) : (s.setRs v).arena = s.arena := rfl
@[simp] theorem State.setRs_ireg (s : State) (v : List Nat) : (s.setRs v).ireg = s.ireg := rfl
@[simp] theorem State.setRs_lines (s : State) (v : List Nat) : (s.setRs v).lines = s.lines := rfl
@[simp] theorem State.setRs_ext (s : State) (v : List Nat) : (s.setRs v).ext = s.ext := rfl
@[simp] theorem State.setRs_cur (s : State) (v : List Nat) : (s.setRs v).cur = s.cur := rfl
@[simp] theorem State.setRs_rs (s : State) (v : List Nat) : (s.setRs v).rs = v := rfl
@[simp] theorem State.setRs_rsp (s : State) (v : List Nat) : (s.setRs v).rsp = s.rsp := rfl
@[simp] theorem State.setRs_cache (s : State) (v : List Nat) : (s.setRs v).cache = s.cache := rfl
@[simp] theorem State.setRs_dirty (s : State) (v : List Nat) : (s.setRs v).dirty = s.dirty := rfl
@[simp] theorem State.setRs_inp (s : State) (v : List Nat) : (s.setRs v).inp = s.inp := rfl
@[simp] theorem State.setRs_pending (s : State) (v : List Nat) : (s.setRs v).pending = s.pending := rfl
@[simp] theorem State.setRs_out (s : State) (v : List Nat) : (s.setRs v).out = s.out := rfl
@[simp] theorem State.setRs_freeCtr (s : State) (v : List Nat) : (s.setRs v).freeCtr = s.freeCtr := rfl

/-! ### `setRsp` -/

@[simp] theorem State.setRsp_params (s : State) (v : Int) : (s.setRsp v).params = s.params := rfl
@[simp] theorem State.setRsp_ws (s : State) (v : Int) : (s.setRsp v).ws = s.ws := rfl
@[simp] theorem State.setRsp_mode (s : State) (v : Int) : (s.setRsp v).mode = s.mode := rfl
@[simp] theorem State.setRsp_c (s : State) (v : Int) : (s.setRsp v).c = s.c := rfl
@[simp] theorem State.setRsp_g (s : State) (v : Int) : (s.setRsp v).g = s.g := rfl
@[simp] theorem State.setRsp_arena (s : State) (v : Int) : (s.setRsp v).arena = s.arena := rfl
@[simp] theorem State.setRsp_ireg (s : State) (v : Int) : (s.setRsp v).ireg = s.ireg := rfl
@[simp] theorem State.setRsp_lines (s : State) (v : Int) : (s.setRsp v).lines = s.lines := rfl
@[simp] theorem State.setRsp_ext (s : State) (v : Int) : (s.setRsp v).ext = s.ext := rfl
@[simp] theorem State.setRsp_cur (s : State) (v : Int) : (s.setRsp v).cur = s.cur := rfl
@[simp] theorem State.setRsp_rs (s : State) (v : Int) : (s.setRsp v).rs = s.rs := rfl
@[simp] theorem State.setRsp_rsp (s : State) (v : Int) : (s.setRsp v).rsp = v := rfl
@[simp] theorem State.setRsp_cache (s : State) (v : Int) : (s.setRsp v).cache = s.cache := rfl
@[simp] theorem State.setRsp_dirty (s : State) (v : Int) : (s.setRsp v).dirty = s.dirty := rfl
@[simp] theorem State.setRsp_inp (s : State) (v : Int) : (s.setRsp v).inp = s.inp := rfl
@[simp] theorem State.setRsp_pending (s : State) (v : Int) : (s.setRsp v).pending = s.pending := rfl
@[simp] theorem State.setRsp_out (s : State) (v : Int) : (s.setRsp v).out = s.out := rfl
@[simp] theorem State.setRsp_freeCtr (s : State) (v : Int) : (s.setRsp v).freeCtr = s.freeCtr := rfl

/-! ### `setCache` -/

@[simp] theorem State.setCache_params (s : State) (v : LineCache) : (s.setCache v).params = s.params := rfl
@[simp] theorem State.setCache_ws (s : State) (v : LineCache) : (s.setCache v).ws = s.ws := rfl
@[simp] theorem State.setCache_mode (s : State) (v : LineCache) : (s.setCache v).mode = s.mode := rfl
@[simp] theorem State.setCache_c (s : State) (v : LineCache) : (s.setCache v).c = s.c := rfl
@[simp] theorem State.setCache_g (s : State) (v : LineCache) : (s.setCache v).g = s.g := rfl
@[simp] theorem State.setCache_arena (s : State) (v : LineCache) : (s.setCache v).arena = s.arena := rfl
@[simp] theorem State.setCache_ireg (s : State) (v : LineCache) : (s.setCache v).ireg = s.ireg := rfl
@[simp] theorem State.setCache_lines (s : State) (v : LineCache) : (s.setCache v).lines = s.lines := rfl
@[simp] theorem State.setCache_ext (s : State) (v : LineCache) : (s.setCache v).ext = s.ext := rfl
@[simp] theorem State.setCache_cur (s : State) (v : LineCache) : (s.setCache v).cur = s.cur := rfl
@[simp] theorem State.setCache_rs (s : State) (v : LineCache) : (s.setCache v).rs = s.rs := rfl
@[simp] theorem State.setCache_rsp (s : State) (v : LineCache) : (s.setCache v).rsp = s.rsp := rfl
@[simp] theorem State.setCache_cache (s : State) (v : LineCache) : (s.setCache v).cache = v := rfl
@[simp] theorem State.setCache_dirty (s : State) (v : LineCache) : (s.setCache v).dirty = s.dirty := rfl
@[simp] theorem State.setCache_inp (s : State) (v : LineCache) : (s.setCache v).inp = s.inp := rfl
@[simp] theorem State.setCache_pending (s : State) (v : LineCache) : (s.setCache v).pending = s.pending := rfl
@[simp] theorem State.setCache_out (s : State) (v : LineCache) : (s.setCache v).out = s.out := rfl
@[simp] theorem State.setCache_freeCtr (s : State) (v : LineCache) : (s.setCache v).freeCtr = s.freeCtr := rfl

/-! ### `setDirty` -/

@[simp] theorem State.setDirty_params (s : State) (v : Bool) : (s.setDirty v).params = s.params := rfl
@[simp] theorem State.setDirty_ws (s : State) (v : Bool) : (s.setDirty v).ws = s.ws := rfl
@[simp] theorem State.setDirty_mode (s : State) (v : Bool) : (s.setDirty v).mode = s.mode := rfl
@[simp] theorem State.setDirty_c (s : State) (v : Bool) : (s.setDirty v).c = s.c := rfl
@[simp] theorem State.setDirty_g (s : State) (v : Bool) : (s.setDirty v).g = s.g := rfl
@[simp] theorem State.setDirty_arena (s : State) (v : Bool) : (s.setDirty v).arena = s.arena := rfl
@[simp] theorem State.setDirty_ireg (s : State) (v : Bool) : (s.setDirty v).ireg = s.ireg := rfl
@[simp] theorem State.setDirty_lines (s : State) (v : Bool) : (s.setDirty v).lines = s.lines := rfl
@[simp] theorem State.setDirty_ext (s : State) (v : Bool) : (s.setDirty v).ext = s.ext := rfl
@[simp] theorem State.setDirty_cur (s : State) (v : Bool) : (s.setDirty v).cur = s.cur := rfl
@[simp] theorem State.setDirty_rs (s : State) (v : Bool) : (s.setDirty v).rs = s.rs := rfl
@[simp] theorem State.setDirty_rsp (s : State) (v : Bool) : (s.setDirty v).rsp = s.rsp := rfl
@[simp] theorem State.setDirty_cache (s : State) (v : Bool) : (s.setDirty v).cache = s.cache := rfl
@[simp] theorem State.setDirty_dirty (s : State) (v : Bool) : (s.setDirty v).dirty = v := rfl
@[simp] theorem State.setDirty_inp (s : State) (v : Bool) : (s.setDirty v).inp = s.inp := rfl
@[simp] theorem State.setDirty_pending (s : State) (v : Bool) : (s.setDirty v).pending = s.pending := rfl
@[simp] theorem State.setDirty_out (s : State) (v : Bool) : (s.setDirty v).out = s.out := rfl
@[simp] theorem State.setDirty_freeCtr (s : State) (v : Bool) : (s.setDirty v).freeCtr = s.freeCtr := rfl

/-! ### `setInp` -/

@[simp] theorem State.setInp_params (s : State) (v : InPorts) : (s.setInp v).params = s.params := rfl
@[simp] theorem State.setInp_ws (s : State) (v : InPorts) : (s.setInp v).ws = s.ws := rfl
@[simp] theorem State.setInp_mode (s : State) (v : InPorts) : (s.setInp v).mode = s.mode := rfl
@[simp] theorem State.setInp_c (s : State) (v : InPorts) : (s.setInp v).c = s.c := rfl
@[simp] theorem State.setInp_g (s : State) (v : InPorts) : (s.setInp v).g = s.g := rfl
@[simp] theorem State.setInp_arena (s : State) (v : InPorts) : (s.setInp v).arena = s.arena := rfl
@[simp] theorem State.setInp_ireg (s : State) (v : InPorts) : (s.setInp v).ireg = s.ireg := rfl
@[simp] theorem State.setInp_lines (s : State) (v : InPorts) : (s.setInp v).lines = s.lines := rfl
@[simp] theorem State.setInp_ext (s : State) (v : InPorts) : (s.setInp v).ext = s.ext := rfl
@[simp] theorem State.setInp_cur (s : State) (v : InPorts) : (s.setInp v).cur = s.cur := rfl
@[simp] theorem State.setInp_rs (s : State) (v : InPorts) : (s.setInp v).rs = s.rs := rfl
@[simp] theorem State.setInp_rsp (s : State) (v : InPorts) : (s.setInp v).rsp = s.rsp := rfl
@[simp] theorem State.setInp_cache (s : State) (v : InPorts) : (s.setInp v).cache = s.cache := rfl
@[simp] theorem State.setInp_dirty (s : State) (v : InPorts) : (s.setInp v).dirty = s.dirty := rfl
@[simp] theorem State.setInp_inp (s : State) (v : InPorts) : (s.setInp v).inp = v := rfl
@[simp] theorem State.setInp_pending (s : State) (v : InPorts) : (s.setInp v).pending = s.pending := rfl
@[simp] theorem State.setInp_out (s : State) (v : InPorts) : (s.setInp v).out = s.out := rfl
@[simp] theorem State.setInp_freeCtr (s : State) (v : InPorts) : (s.setInp v).freeCtr = s.freeCtr := rfl

/-! ### `setPending` -/

@[simp] theorem State.setPending_params (s : State) (v : List HostOp) : (s.setPending v).params = s.params := rfl
@[simp] theorem State.setPending_ws (s : State) (v : List HostOp) : (s.setPending v).ws = s.ws := rfl
@[simp] theorem State.setPending_mode (s : State) (v : List HostOp) : (s.setPending v).mode = s.mode := rfl
@[simp] theorem State.setPending_c (s : State) (v : List HostOp) : (s.setPending v).c = s.c := rfl
@[simp] theorem State.setPending_g (s : State) (v : List HostOp) : (s.setPending v).g = s.g := rfl
@[simp] theorem State.setPending_arena (s : State) (v : List HostOp) : (s.setPending v).arena = s.arena := rfl
@[simp] theorem State.setPending_ireg (s : State) (v : List HostOp) : (s.setPending v).ireg = s.ireg := rfl
@[simp] theorem State.setPending_lines (s : State) (v : List HostOp) : (s.setPending v).lines = s.lines := rfl
@[simp] theorem State.setPending_ext (s : State) (v : List HostOp) : (s.setPending v).ext = s.ext := rfl
@[simp] theorem State.setPending_cur (s : State) (v : List HostOp) : (s.setPending v).cur = s.cur := rfl
@[simp] theorem State.setPending_rs (s : State) (v : List HostOp) : (s.setPending v).rs = s.rs := rfl
@[simp] theorem State.setPending_rsp (s : State) (v : List HostOp) : (s.setPending v).rsp = s.rsp := rfl
@[simp] theorem State.setPending_cache (s : State) (v : List HostOp) : (s.setPending v).cache = s.cache := rfl
@[simp] theorem State.setPending_dirty (s : State) (v : List HostOp) : (s.setPending v).dirty = s.dirty := rfl
@[simp] theorem State.setPending_inp (s : State) (v : List HostOp) : (s.setPending v).inp = s.inp := rfl
@[simp] theorem State.setPending_pending (s : State) (v : List HostOp) : (s.setPending v).pending = v := rfl
@[simp] theorem State.setPending_out (s : State) (v : List HostOp) : (s.setPending v).out = s.out := rfl
@[simp] theorem State.setPending_freeCtr (s : State) (v : List HostOp) : (s.setPending v).freeCtr = s.freeCtr := rfl

/-! ### `setOut` -/

@[simp] theorem State.setOut_params (s : State) (v : Outputs) : (s.setOut v).params = s.params := rfl
@[simp] theorem State.setOut_ws (s : State) (v : Outputs) : (s.setOut v).ws = s.ws := rfl
@[simp] theorem State.setOut_mode (s : State) (v : Outputs) : (s.setOut v).mode = s.mode := rfl
@[simp] theorem State.setOut_c (s : State) (v : Outputs) : (s.setOut v).c = s.c := rfl
@[simp] theorem State.setOut_g (s : State) (v : Outputs) : (s.setOut v).g = s.g := rfl
@[simp] theorem State.setOut_arena (s : State) (v : Outputs) : (s.setOut v).arena = s.arena := rfl
@[simp] theorem State.setOut_ireg (s : State) (v : Outputs) : (s.setOut v).ireg = s.ireg := rfl
@[simp] theorem State.setOut_lines (s : State) (v : Outputs) : (s.setOut v).lines = s.lines := rfl
@[simp] theorem State.setOut_ext (s : State) (v : Outputs) : (s.setOut v).ext = s.ext := rfl
@[simp] theorem State.setOut_cur (s : State) (v : Outputs) : (s.setOut v).cur = s.cur := rfl
@[simp] theorem State.setOut_rs (s : State) (v : Outputs) : (s.setOut v).rs = s.rs := rfl
@[simp] theorem State.setOut_rsp (s : State) (v : Outputs) : (s.setOut v).rsp = s.rsp := rfl
@[simp] theorem State.setOut_cache (s : State) (v : Outputs) : (s.setOut v).cache = s.cache := rfl
@[simp] theorem State.setOut_dirty (s : State) (v : Outputs) : (s.setOut v).dirty = s.dirty := rfl
@[simp] theorem State.setOut_inp (s : State) (v : Outputs) : (s.setOut v).inp = s.inp := rfl
@[simp] theorem State.setOut_pending (s : State) (v : Outputs) : (s.setOut v).pending = s.pending := rfl
@[simp] theorem State.setOut_out (s : State) (v : Outputs) : (s.setOut v).out = v := rfl
@[simp] theorem State.setOut_freeCtr (s : State) (v : Outputs) : (s.setOut v).freeCtr = s.freeCtr := rfl

/-! ### `setFreeCtr` -/

@[simp] theorem State.setFreeCtr_params (s : State) (v : Nat) : (s.setFreeCtr v).params = s.params := rfl
@[simp] theorem State.setFreeCtr_ws (s : State) (v : Nat) : (s.setFreeCtr v).ws = s.ws := rfl
@[simp] theorem State.setFreeCtr_mode (s : State) (v : Nat) : (s.setFreeCtr v).mode = s.mode := rfl
@[simp] theorem State.setFreeCtr_c (s : State) (v : Nat) : (s.setFreeCtr v).c = s.c := rfl
@[simp] theorem State.setFreeCtr_g (s : State) (v : Nat) : (s.setFreeCtr v).g = s.g := rfl
@[simp] theorem State.setFreeCtr_arena (s : State) (v : Nat) : (s.setFreeCtr v).arena = s.arena := rfl
@[simp] theorem State.setFreeCtr_ireg (s : State) (v : Nat) : (s.setFreeCtr v).ireg = s.ireg := rfl
@[simp] theorem State.setFreeCtr_lines (s : State) (v : Nat) : (s.setFreeCtr v).lines = s.lines := rfl
@[simp] theorem State.setFreeCtr_ext (s : State) (v : Nat) : (s.setFreeCtr v).ext = s.ext := rfl
@[simp] theorem State.setFreeCtr_cur (s : State) (v : Nat) : (s.setFreeCtr v).cur = s.cur := rfl
@[simp] theorem State.setFreeCtr_rs (s : State) (v : Nat) : (s.setFreeCtr v).rs = s.rs := rfl
@[simp] theorem State.setFreeCtr_rsp (s : State) (v : Nat) : (s.setFreeCtr v).rsp = s.rsp := rfl
@[simp] theorem State.setFreeCtr_cache (s : State) (v : Nat) : (s.setFreeCtr v).cache = s.cache := rfl
@[simp] theorem State.setFreeCtr_dirty (s : State) (v : Nat) : (s.setFreeCtr v).dirty = s.dirty := rfl
@[simp] theorem State.setFreeCtr_inp (s : State) (v : Nat) : (s.setFreeCtr v).inp = s.inp := rfl
@[simp] theorem State.setFreeCtr_pending (s : State) (v : Nat) : (s.setFreeCtr v).pending = s.pending := rfl
@[simp] theorem State.setFreeCtr_out (s : State) (v : Nat) : (s.setFreeCtr v).out = s.out := rfl
@[simp] theorem State.setFreeCtr_freeCtr (s : State) (v : Nat) : (s.setFreeCtr v).freeCtr = v := rfl

end Sys2Proof.Machine
end

