-- ==== Sys2Proof/Laws/Ops.lean ====
section
/-! SUPPORT. How a command ends, said once: the ends of `perform`, and what each checked operation can answer. -/

namespace Sys2Proof.Machine

/-! ### Attempts -/

@[simp] theorem Attempt.bind_ok {α β : Type} (x : α) (f : α → Attempt β) :
    (Except.ok x >>= f : Attempt β) = f x := rfl

@[simp] theorem Attempt.bind_error {α β : Type} (e : Exit) (f : α → Attempt β) :
    (Except.error e >>= f : Attempt β) = .error e := rfl

@[simp] theorem Attempt.pure_eq {α : Type} (x : α) : (pure x : Attempt α) = .ok x := rfl

/-- A sequence that succeeds succeeded at both parts. -/
theorem Attempt.bind_eq_ok {α β : Type} {m : Attempt α} {f : α → Attempt β} {y : β} :
    m >>= f = .ok y ↔ ∃ x, m = .ok x ∧ f x = .ok y := by
  cases m <;> simp

/-- A sequence that exits exited at one of its parts. -/
theorem Attempt.bind_eq_error {α β : Type} {m : Attempt α} {f : α → Attempt β} {e : Exit} :
    m >>= f = .error e ↔ m = .error e ∨ ∃ x, m = .ok x ∧ f x = .error e := by
  cases m <;> simp

@[simp] theorem require_true (e : Exit) : require true e = .ok () := rfl

@[simp] theorem require_false (e : Exit) : require false e = .error e := rfl

theorem require_eq_ok {b : Bool} {e : Exit} {u : Unit} : require b e = .ok u ↔ b = true := by
  cases b <;> simp

theorem require_eq_error {b : Bool} {e e' : Exit} : require b e = .error e' ↔ b = false ∧ e = e' := by
  cases b <;> simp

/-! ### Ends -/

@[simp] theorem Ending.of_ok (k t : State) : Ending.of k (.ok t) = .ok t := rfl

@[simp] theorem Ending.of_err (k : State) (c : ErrCode) : Ending.of k (.error (.err c)) = .err c k := rfl

@[simp] theorem Ending.of_refuse (k : State) (r : RefuseReason) :
    Ending.of k (.error (.refuse r)) = .refuse r := rfl

@[simp] theorem Ending.of_fault (k : State) (f : Fault) : Ending.of k (.error (.fault f)) = .fault f := rfl

@[simp] theorem Ending.conclude_ok (s t : State) : (Ending.ok t).conclude s = .next t := rfl

@[simp] theorem Ending.conclude_err (s t : State) (c : ErrCode) :
    (Ending.err c t).conclude s = .next (t.reportError c) := rfl

@[simp] theorem Ending.conclude_refuse (s : State) (r : RefuseReason) :
    (Ending.refuse r).conclude s = .next (s.reportRefusal r) := rfl

@[simp] theorem Ending.conclude_fault (s : State) (f : Fault) : (Ending.fault f).conclude s = .fault f := rfl

/-- A command's next state is that of its end: done, an error with what the failing command kept, or a refusal
with the state the command found. -/
theorem perform_next {f : State → Ending} {s t : State} (h : perform f s = .next t) :
    f (s.setOut Outputs.absent) = .ok t ∨
    (∃ c k, f (s.setOut Outputs.absent) = .err c k ∧ t = k.reportError c) ∨
    (∃ r, f (s.setOut Outputs.absent) = .refuse r ∧ t = s.reportRefusal r) := by
  unfold perform at h
  generalize f (s.setOut Outputs.absent) = e at h
  cases e with
  | ok k => simp only [Ending.conclude_ok, Host.Outcome.next.injEq] at h; exact .inl (by rw [h])
  | err c k => simp only [Ending.conclude_err, Host.Outcome.next.injEq] at h; exact .inr (.inl ⟨c, k, rfl, h.symm⟩)
  | refuse r => simp only [Ending.conclude_refuse, Host.Outcome.next.injEq] at h; exact .inr (.inr ⟨r, rfl, h.symm⟩)
  | fault f => simp at h

/-- A command stops exactly where its effect faults. -/
theorem perform_fault {f : State → Ending} {s : State} {x : Fault} :
    perform f s = .fault x ↔ f (s.setOut Outputs.absent) = .fault x := by
  unfold perform
  cases f (s.setOut Outputs.absent) <;> simp

/-- No command refuses in the host's sense. -/
theorem perform_not_refused (f : State → Ending) (s : State) (x : Refusal) : perform f s ≠ .refused x := by
  unfold perform
  cases f (s.setOut Outputs.absent) <;> simp

theorem perform_of_ok {f : State → Ending} {s t : State} (h : f (s.setOut Outputs.absent) = .ok t) :
    perform f s = .next t := by
  simp [perform, h]

theorem perform_of_err {f : State → Ending} {s k : State} {c : ErrCode}
    (h : f (s.setOut Outputs.absent) = .err c k) : perform f s = .next (k.reportError c) := by
  simp [perform, h]

theorem perform_of_refuse {f : State → Ending} {s : State} {r : RefuseReason}
    (h : f (s.setOut Outputs.absent) = .refuse r) : perform f s = .next (s.reportRefusal r) := by
  simp [perform, h]

/-! ### Cursor -/

/-- The line increment stays within the program (44_control_flow.md R260). -/
theorem State.inc_le (s : State) (l : Nat) : s.inc l ≤ s.lines := by
  have := Nat.mod_lt (l + 1) (show 0 < s.lines + 1 by omega)
  simp only [inc]
  omega

theorem State.inc_of_lt {s : State} {l : Nat} (h : l < s.lines) : s.inc l = l + 1 :=
  Nat.mod_eq_of_lt (by omega)

theorem State.inc_last (s : State) : s.inc s.lines = 0 := Nat.mod_self _

/-- A skip moves the cursor and nothing else. -/
theorem State.doNextIf_eq (s : State) (b : Bool) :
    s.doNextIf b = s.setCur (if b then s.cur else s.inc s.cur) := by
  cases b <;> rfl

/-! ### Register slots -/

theorem State.checkReg_ok {s : State} {i : Nat} (h : i < s.regCount) : s.checkReg (some i) = .ok i := by
  simp [checkReg, h]

/-- `checkReg` gives a register that exists, or error 3. -/
theorem State.checkReg_cases (s : State) (i : Option Nat) :
    (∃ n, i = some n ∧ n < s.regCount ∧ s.checkReg i = .ok n) ∨ s.checkReg i = .error (.err .regAddr) := by
  cases i with
  | none => exact .inr rfl
  | some n =>
    by_cases h : n < s.regCount
    · exact .inl ⟨n, rfl, h, checkReg_ok h⟩
    · exact .inr (by simp [checkReg, h])

/-- A register that exists lies above the program and inside the arena (20_memory.md R51). -/
theorem State.slot_bounds {s : State} {i : Nat} (h : i < s.regCount) :
    (i + 1) * s.npr ≤ arenaSize - s.progSize ∧ s.slotAddr i + s.npr = arenaSize - i * s.npr ∧
      i * s.npr + s.npr ≤ arenaSize := by
  have h1 : (i + 1) * s.npr ≤ (arenaSize - s.progSize) / s.npr * s.npr := Nat.mul_le_mul_right _ h
  have h2 := Nat.div_mul_le_self (arenaSize - s.progSize) s.npr
  have h3 : (i + 1) * s.npr = i * s.npr + s.npr := Nat.succ_mul ..
  simp only [slotAddr]
  omega

theorem State.slotRead_ok {s : State} {i : Nat} (h : i < s.regCount) :
    s.slotRead i = .ok (s.arena.readN (s.slotAddr i) s.npr) :=
  memRead_ok (by have := slot_bounds h; omega)

theorem State.slotWrite_ok {s : State} {i v : Nat} (h : i < s.regCount) :
    s.slotWrite i v = .ok (s.setArena (s.arena.writeN (s.slotAddr i) s.npr v)) := by
  simp [slotWrite, memWrite_ok (show s.slotAddr i + s.npr ≤ arenaSize by have := slot_bounds h; omega)]

end Sys2Proof.Machine
end

