-- ==== Sys2Proof/Laws/Lines.lean ====
section
/-! SUPPORT. The stored lines: the forward scan, the replay that counts its extended lines, the addressing cache, and
what each depends on (43_program_memory.md R230 to R233). -/

namespace Sys2Proof.Machine

/-! ### Widths -/

theorem lineWidth_cases (m : Memory) (a : Nat) :
    (m.readN a 2 = 0xFF ∧ lineWidth m a = 4) ∨ (m.readN a 2 ≠ 0xFF ∧ lineWidth m a = 2) := by
  unfold lineWidth
  split <;> simp_all

theorem lineWidth_congr {m m' : Memory} {a b : Nat} (h : ∀ j, j < 2 → m.get (a + j) = m'.get (b + j)) :
    lineWidth m a = lineWidth m' b := by
  have h0 := h 0 (by omega)
  have h1 := h 1 (by omega)
  have : m.readN a 2 = m'.readN b 2 := by
    simp only [Memory.readN]
    simp only [Nat.add_zero] at h0 ⊢
    rw [h0, h1]
  unfold lineWidth
  rw [this]

/-! ### The forward scan -/

theorem lineAddrFrom_zero (m : Memory) (a : Nat) : lineAddrFrom m 0 a = .ok a := rfl

theorem lineAddrFrom_succ_ok {m : Memory} {n a : Nat} (h : a + 2 ≤ arenaSize) :
    lineAddrFrom m (n + 1) a = lineAddrFrom m n (a + lineWidth m a) := by
  simp [lineAddrFrom, requireArena_ok h]

/-- A scan of `n + k` lines is a scan of `n` and then of `k`. -/
theorem lineAddrFrom_add (m : Memory) (n k a : Nat) :
    lineAddrFrom m (n + k) a = lineAddrFrom m n a >>= lineAddrFrom m k := by
  induction n generalizing a with
  | zero => simp [lineAddrFrom]
  | succ n ih =>
    rw [Nat.succ_add]
    simp only [lineAddrFrom]
    rcases h : requireArena (a + 2) with e | u
    · rfl
    · simp [ih]

/-! ### The replay -/

theorem replay_add (m : Memory) (n k a e : Nat) :
    replay m (n + k) a e = (replay m n a e).bind fun p => replay m k p.1 p.2 := by
  induction n generalizing a e with
  | zero => simp [replay]
  | succ n ih =>
    rw [Nat.succ_add]
    simp only [replay]
    split
    · rfl
    · split
      · split
        · rfl
        · exact ih ..
      · exact ih ..

/-- A replay ends where the scan does, having counted the lines by width. -/
theorem replay_some {m : Memory} {n a e p x : Nat} (h : replay m n a e = some (p, x)) :
    lineAddrFrom m n a = .ok p ∧ p + 2 * e = a + 2 * n + 2 * x ∧ e ≤ x ∧ (a ≤ arenaSize → p ≤ arenaSize) := by
  induction n generalizing a e with
  | zero =>
    simp only [replay, Option.some.injEq, Prod.mk.injEq] at h
    exact ⟨by rw [← h.1]; rfl, by omega, by omega, by omega⟩
  | succ n ih =>
    simp only [replay] at h
    split at h
    · cases h
    · rename_i hfit
      split at h
      · rename_i hw
        split at h
        · cases h
        · have := ih h
          exact ⟨by rw [lineAddrFrom_succ_ok (by omega), hw]; exact this.1, by omega, by omega, by omega⟩
      · rename_i hw
        have hw' : lineWidth m a = 2 := by rcases lineWidth_cases m a with h | h <;> simp_all
        have := ih h
        exact ⟨by rw [lineAddrFrom_succ_ok (by omega), hw']; exact this.1, by omega, by omega, by omega⟩

/-- A replay reads only the nybbles before its end; the lines may lie elsewhere and the count start elsewhere. -/
theorem replay_shift {m m' : Memory} {n a b e f p x : Nat} (h : replay m n a e = some (p, x))
    (hp : b + (p - a) ≤ arenaSize) (hget : ∀ j, a + j < p → m'.get (b + j) = m.get (a + j)) :
    replay m' n b f = some (b + (p - a), f + (x - e)) := by
  induction n generalizing a b e f with
  | zero =>
    simp only [replay, Option.some.injEq, Prod.mk.injEq] at h ⊢
    omega
  | succ n ih =>
    simp only [replay] at h
    split at h
    · cases h
    · rename_i hfit
      split at h
      · rename_i hw
        split at h
        · cases h
        · have hs := replay_some h
          have hw' : lineWidth m' b = 4 := by
            rw [lineWidth_congr fun j hj => hget j (by omega)]; exact hw
          have := ih (b := b + 4) (f := f + 1) h (by omega) fun j hj => by
            have := hget (4 + j) (by omega)
            simpa only [Nat.add_assoc] using this
          simp only [replay, hw', if_neg (show ¬ arenaSize < b + 2 by omega), if_true,
            if_neg (show ¬ arenaSize < b + 4 by omega), this, Option.some.injEq, Prod.mk.injEq]
          omega
      · rename_i hw
        have hs := replay_some h
        have hw' : ¬ lineWidth m' b = 4 := by
          rw [lineWidth_congr fun j hj => hget j (by omega)]; exact hw
        have := ih (b := b + 2) (f := f) h (by omega) fun j hj => by
          have := hget (2 + j) (by omega)
          simpa only [Nat.add_assoc] using this
        simp only [replay, if_neg hw', if_neg (show ¬ arenaSize < b + 2 by omega), this, Option.some.injEq,
          Prod.mk.injEq, and_true]
        omega

/-- A replay reads only the nybbles before its end. -/
theorem replay_congr {m m' : Memory} {n a e p x : Nat} (h : replay m n a e = some (p, x)) (ha : a ≤ arenaSize)
    (hget : ∀ b, a ≤ b → b < p → m'.get b = m.get b) : replay m' n a e = some (p, x) := by
  have hs := replay_some h
  have := replay_shift (m' := m') (b := a) (f := e) h (by omega) fun j hj => hget _ (by omega) (by omega)
  rw [this]
  simp only [Option.some.injEq, Prod.mk.injEq]
  omega

/-! ### The lines of a program -/

/-- A program read up to a line: that line's address and the extended lines before it, and the program from there. -/
theorem State.ProgramOk.split {s : State} (h : s.ProgramOk) {n : Nat} (hn : n ≤ s.lines) :
    ∃ a x, replay s.arena n 0 0 = some (a, x) ∧ replay s.arena (s.lines - n) a x = some (s.progSize, s.ext) ∧
      lineAddrFrom s.arena n 0 = .ok a ∧ a ≤ s.progSize ∧ x ≤ s.ext ∧ a = 2 * n + 2 * x := by
  have h1 := h.2
  rw [← Nat.add_sub_cancel' hn, replay_add] at h1
  cases h2 : replay s.arena n 0 0 with
  | none => simp [h2] at h1
  | some p =>
    obtain ⟨a, x⟩ := p
    simp only [h2, Option.bind_some] at h1
    have hs := replay_some h2
    have hs' := replay_some h1
    exact ⟨a, x, rfl, h1, hs.1, by omega, by omega, by omega⟩

/-- The program fits in the arena. -/
theorem State.ProgramOk.size_le {s : State} (h : s.ProgramOk) : s.progSize ≤ arenaSize :=
  (replay_some h.2).2.2.2 (by omega)

/-- A line of a program and the line after it. -/
theorem State.ProgramOk.line {s : State} (h : s.ProgramOk) {l : Nat} (h1 : 1 ≤ l) (hl : l ≤ s.lines) :
    ∃ a, s.lineAddr l = .ok a ∧ s.lineAddr (l + 1) = .ok (a + lineWidth s.arena a) ∧
      a + lineWidth s.arena a ≤ s.progSize := by
  obtain ⟨a, x, -, hr, ha, -⟩ := h.split (n := l - 1) (by omega)
  obtain ⟨k, hk⟩ : ∃ k, s.lines - (l - 1) = k + 1 := ⟨s.lines - l, by omega⟩
  rw [hk, Nat.add_comm k 1, replay_add] at hr
  cases h2 : replay s.arena 1 a x with
  | none => simp [h2] at hr
  | some p =>
    obtain ⟨b, y⟩ := p
    simp only [h2, Option.bind_some] at hr
    have hle := replay_some hr
    have hb := (replay_some h2).1
    have h3 : a + 2 ≤ arenaSize := by
      simp only [replay] at h2
      split at h2
      · cases h2
      · omega
    rw [lineAddrFrom_succ_ok h3, lineAddrFrom_zero] at hb
    have hb' : a + lineWidth s.arena a = b := by simpa using hb
    refine ⟨a, ha, ?_, by omega⟩
    rw [lineAddr, show l + 1 - 1 = (l - 1) + 1 by omega, lineAddrFrom_add, ha, Attempt.bind_ok,
      lineAddrFrom_succ_ok h3, lineAddrFrom_zero]

/-- A line of a program has an opcode. -/
theorem State.ProgramOk.opcode {s : State} (h : s.ProgramOk) {l : Nat} (h1 : 1 ≤ l) (hl : l ≤ s.lines) :
    ∃ a, s.lineAddr l = .ok a ∧ s.opcodeAt l =
      .ok (opcodeOfBytes (s.arena.readN a 2) (s.arena.readN (a + 2) 2)) := by
  obtain ⟨a, ha, -, hle⟩ := h.line h1 hl
  have hP := h.size_le
  refine ⟨a, ha, ?_⟩
  rcases lineWidth_cases s.arena a with ⟨hb, hw⟩ | ⟨hb, hw⟩
  · simp only [opcodeAt, ha, Attempt.bind_ok, memRead_ok (show a + 2 ≤ arenaSize by omega), hb, if_true,
      memRead_ok (show a + 2 + 2 ≤ arenaSize by omega), Attempt.pure_eq]
  · simp only [opcodeAt, ha, Attempt.bind_ok, memRead_ok (show a + 2 ≤ arenaSize by omega), if_neg hb,
      Attempt.pure_eq, opcodeOfBytes]

/-! ### The cache -/

theorem LineCache.advance_ok {m : Memory} {n l a b : Nat} (h : lineAddrFrom m n a = .ok b) :
    LineCache.advance m n ⟨l, a⟩ = ⟨l + n, b⟩ := by
  induction n generalizing l a with
  | zero => simp only [lineAddrFrom, Except.ok.injEq] at h; simp [advance, h]
  | succ n ih =>
    simp only [lineAddrFrom, Attempt.bind_eq_ok] at h
    obtain ⟨-, -, h⟩ := h
    rw [advance, ih h, Nat.add_assoc, Nat.add_comm 1 n]

/-- Resolving a line of a program gives its address (R232). -/
theorem State.resolve_eq {s : State} (hc : s.CacheOk) {l a : Nat} (h1 : 1 ≤ l) (ha : s.lineAddr l = .ok a) : s.resolve l = ⟨l, a⟩ := by
  obtain ⟨c1, c2, c3⟩ := hc
  simp only [lineAddr] at ha c3
  unfold resolve
  by_cases hlt : l < s.cache.cLine
  · simp only [if_pos hlt, LineCache.start]
    rw [LineCache.advance_ok ha, Nat.add_sub_cancel' h1]
  · simp only [if_neg hlt]
    have := lineAddrFrom_add s.arena (s.cache.cLine - 1) (l - s.cache.cLine) 0
    rw [show s.cache.cLine - 1 + (l - s.cache.cLine) = l - 1 by omega, ha, c3, Attempt.bind_ok] at this
    rw [show s.cache = ⟨s.cache.cLine, s.cache.cAddr⟩ from rfl, LineCache.advance_ok this.symm]
    simp only [LineCache.mk.injEq, and_true]
    omega

/-- Resolving a line leaves the cache at a line. -/
theorem State.touch_cacheOk {s : State} (hp : s.ProgramOk) (hc : s.CacheOk) {l : Nat} (h1 : 1 ≤ l)
    (hl : l ≤ s.lines + 1) : (s.touch l).CacheOk := by
  obtain ⟨a, x, -, -, ha, -⟩ := hp.split (n := l - 1) (by omega)
  have := resolve_eq hc h1 ha
  exact ⟨by simp [touch, this, h1], by simp [touch, this, hl], by simp [touch, this, lineAddr, ha]⟩

end Sys2Proof.Machine
end

