-- ==== Sys2Proof/Laws/Operands.lean ====
section
/-! SUPPORT. The integer patterns as numbers: the sign bit, the complement, the signed reading and its encoding
(41_signmode.md R141 to R144, R147, R148). -/

namespace Sys2Proof.Machine

/-! ### Bits as arithmetic -/

theorem two_pow_half {w : Nat} (h : 1 ≤ w) : 2 ^ w = 2 * 2 ^ (w - 1) := by
  rw [← Nat.pow_succ']; congr 1; omega

theorem two_pow_half_int {w : Nat} (h : 1 ≤ w) : (2 : Int) ^ w = 2 * 2 ^ (w - 1) := by
  exact_mod_cast two_pow_half h

/-- The sign bit of a pattern, by comparison. -/
theorem and_signMask {w x : Nat} (h : 1 ≤ w) (hx : x < 2 ^ w) :
    x &&& 2 ^ (w - 1) = if 2 ^ (w - 1) ≤ x then 2 ^ (w - 1) else 0 := by
  rw [Nat.and_two_pow]
  have : x.testBit (w - 1) = decide (2 ^ (w - 1) ≤ x) := by
    rw [Nat.testBit_eq_decide_div_mod_eq]
    have h2 := two_pow_half h
    congr 1
    have hlt : x / 2 ^ (w - 1) < 2 := by rw [Nat.div_lt_iff_lt_mul (by positivity)]; omega
    by_cases hc : 2 ^ (w - 1) ≤ x
    · have : 1 ≤ x / 2 ^ (w - 1) := (Nat.one_le_div_iff (by positivity)).2 hc
      simp [hc]; omega
    · have : x / 2 ^ (w - 1) = 0 := Nat.div_eq_of_lt (by omega)
      simp [hc, this]
  rw [this]
  by_cases hc : 2 ^ (w - 1) ≤ x <;> simp [hc]

/-- The sign comparison of R148, on patterns as numbers. -/
theorem signOverflow_eq {w a b r : Nat} (h : 1 ≤ w) (ha : a < 2 ^ w) (hb : b < 2 ^ w) (hr : r < 2 ^ w) :
    signOverflow w a b r =
      decide ((2 ^ (w - 1) ≤ a ↔ 2 ^ (w - 1) ≤ b) ∧ ¬ (2 ^ (w - 1) ≤ r ↔ 2 ^ (w - 1) ≤ a)) := by
  simp only [signOverflow, and_signMask h ha, and_signMask h hb, and_signMask h hr]
  have : (0 : Nat) < 2 ^ (w - 1) := by positivity
  have : 0 ≠ 2 ^ (w - 1) := by omega
  by_cases h1 : 2 ^ (w - 1) ≤ a <;> by_cases h2 : 2 ^ (w - 1) ≤ b <;> by_cases h3 : 2 ^ (w - 1) ≤ r <;>
    simp [h1, h2, h3, this]

/-- The complement of a pattern (41_signmode.md R153, R156). -/
theorem xor_wordMask {w x : Nat} (hx : x < 2 ^ w) : x ^^^ (2 ^ w - 1) = 2 ^ w - 1 - x := by
  have := congrArg BitVec.toNat (BitVec.xor_allOnes (x := BitVec.ofNat w x))
  simpa only [BitVec.toNat_xor, BitVec.toNat_ofNat, BitVec.toNat_allOnes, BitVec.toNat_not,
    Nat.mod_eq_of_lt hx] using this

/-! ### Signed reading -/

/-- A signed reading depends on the pattern's low bits. -/
theorem toIntW_mod (mode : Mode) (w v : Nat) : toIntW mode w (v % 2 ^ w) = toIntW mode w v := by
  simp only [toIntW, Nat.mod_mod]

/-- A signed reading is in the range of its mode (10_state.md R22). -/
theorem toIntW_range {mode : Mode} {w : Nat} (h : 1 ≤ w) (v : Nat) :
    minInt mode w ≤ toIntW mode w v ∧ toIntW mode w v ≤ maxInt mode w := by
  have h1 := Nat.mod_lt v (show 0 < 2 ^ w by positivity)
  have h2 := two_pow_half h
  have h3 := two_pow_half_int h
  have h4 : ((2 ^ (w - 1) : Nat) : Int) = 2 ^ (w - 1) := by norm_cast
  have h5 : ((2 ^ w : Nat) : Int) = 2 ^ w := by norm_cast
  cases mode <;> simp only [toIntW, minInt, maxInt] <;> (try split) <;> omega

/-- An encoding is a pattern. -/
theorem encodeW_lt (mode : Mode) (w : Nat) (n : Int) : encodeW mode w n < 2 ^ w := by
  have h1 : ∀ n : Int, (n % 2 ^ w).toNat < 2 ^ w := fun n => by
    have h2 := Int.emod_lt_of_pos n (show (0 : Int) < 2 ^ w by positivity)
    have h3 := Int.emod_nonneg n (show (2 : Int) ^ w ≠ 0 by positivity)
    have h5 : ((2 ^ w : Nat) : Int) = 2 ^ w := by norm_cast
    omega
  cases mode <;> simp only [encodeW] <;> (try split) <;> exact h1 _

/-- A number in range encodes to a pattern that reads as it. -/
theorem toIntW_encodeW {mode : Mode} {w : Nat} (h : 1 ≤ w) {n : Int} (h1 : minInt mode w ≤ n)
    (h2 : n ≤ maxInt mode w) : toIntW mode w (encodeW mode w n) = n := by
  have hlt := encodeW_lt mode w n
  have hp := two_pow_half h
  have hp' := two_pow_half_int h
  have h4 : ((2 ^ (w - 1) : Nat) : Int) = 2 ^ (w - 1) := by norm_cast
  have h5 : ((2 ^ w : Nat) : Int) = 2 ^ w := by norm_cast
  have pos : ∀ n : Int, 0 ≤ n → n < 2 ^ w → n % 2 ^ w = n := fun n a b => Int.emod_eq_of_lt a b
  have neg : ∀ n : Int, n < 0 → -2 ^ w ≤ n → n % 2 ^ w = n + 2 ^ w := fun n a b => by
    rw [← Int.add_emod_right]; exact Int.emod_eq_of_lt (by omega) (by omega)
  simp only [toIntW, Nat.mod_eq_of_lt hlt]
  cases mode <;> simp only [encodeW, minInt, maxInt] at *
  · rw [pos n h1 (by omega)]; omega
  · by_cases hn : 0 ≤ n
    · simp only [if_pos hn, pos n hn (by omega)] at *
      split <;> omega
    · simp only [if_neg hn, neg (n - 1) (by omega) (by omega)] at *
      split <;> omega
  · by_cases hn : 0 ≤ n
    · simp only [pos n hn (by omega)] at *
      split <;> omega
    · simp only [neg n (by omega) (by omega)] at *
      split <;> omega
  · rw [pos n h1 (by omega)]; omega

/-- A pattern's reading encodes to the pattern, but for the second zero of ONES. -/
theorem encodeW_toIntW {mode : Mode} {w : Nat} (h : 1 ≤ w) (v : Nat) :
    encodeW mode w (toIntW mode w v) = if mode = .ones ∧ v % 2 ^ w = 2 ^ w - 1 then 0 else v % 2 ^ w := by
  have h1 := Nat.mod_lt v (show 0 < 2 ^ w by positivity)
  have hp := two_pow_half h
  have hp' := two_pow_half_int h
  have h4 : ((2 ^ (w - 1) : Nat) : Int) = 2 ^ (w - 1) := by norm_cast
  have h5 : ((2 ^ w : Nat) : Int) = 2 ^ w := by norm_cast
  have pos : ∀ n : Int, 0 ≤ n → n < 2 ^ w → n % 2 ^ w = n := fun n a b => Int.emod_eq_of_lt a b
  have neg : ∀ n : Int, n < 0 → -2 ^ w ≤ n → n % 2 ^ w = n + 2 ^ w := fun n a b => by
    rw [← Int.add_emod_right]; exact Int.emod_eq_of_lt (by omega) (by omega)
  simp only [toIntW]
  generalize v % 2 ^ w = a at *
  cases mode
  · simp only [encodeW, reduceCtorEq, false_and, if_false]
    rw [pos _ (by omega) (by omega)]; omega
  · simp only [encodeW, true_and]
    by_cases ha : 2 ^ (w - 1) ≤ a
    · rw [if_pos ha]
      by_cases hz : a = 2 ^ w - 1
      · rw [if_pos hz, if_pos (by omega), pos _ (by omega) (by omega)]; omega
      · rw [if_neg hz, if_neg (by omega), neg _ (by omega) (by omega)]; omega
    · rw [if_neg ha, if_pos (by omega), if_neg (by omega), pos _ (by omega) (by omega)]; omega
  · simp only [encodeW, reduceCtorEq, false_and, if_false]
    by_cases ha : 2 ^ (w - 1) ≤ a
    · rw [if_pos ha, neg _ (by omega) (by omega)]; omega
    · rw [if_neg ha, pos _ (by omega) (by omega)]; omega
  · simp only [encodeW, reduceCtorEq, false_and, if_false]
    rw [pos _ (by omega) (by omega)]; omega

/-- The zero test asks for a reading of zero (41_signmode.md R147). -/
theorem isZeroW_iff {mode : Mode} {w : Nat} (h : 1 ≤ w) (v : Nat) :
    isZeroW mode w v = true ↔ toIntW mode w v = 0 := by
  have h1 := Nat.mod_lt v (show 0 < 2 ^ w by positivity)
  have hp := two_pow_half h
  have hp' := two_pow_half_int h
  have h4 : ((2 ^ (w - 1) : Nat) : Int) = 2 ^ (w - 1) := by norm_cast
  have h5 : ((2 ^ w : Nat) : Int) = 2 ^ w := by norm_cast
  simp only [isZeroW, toIntW, Bool.or_eq_true, beq_iff_eq, Bool.and_eq_true]
  generalize v % 2 ^ w = a at *
  cases mode <;> simp only [reduceCtorEq, false_and, or_false, true_and] <;> (try split) <;> omega

end Sys2Proof.Machine
end

