-- ==== Sys2Proof/Laws/Exec.lean ====
section
/-! SUPPORT. Every instruction as one performed effect, and how an instruction's outcome reads from its effect's end. -/

namespace Sys2Proof.Machine

/-- Every instruction performs one effect. -/
theorem exec_performs (i : Instr) : ∃ f, ∀ s, exec i s = perform f s := by
  cases i <;>
    simp only [exec, execAdd, execSub, execNeg, execCmp, execInc, execDec, execIsz, execStore, execToint,
      execTrunc, execSetws, execSetmode, execWflag, execSkipflag, execFenc, execFdec, execFexp, execFchk,
      execRreg, execRregI, execWreg, execWregI, execRi, execWi, execClrreg, execIszi, execDszi, execIszind,
      execDszind, execPreset, execInsert, execDelete, execSetline, execReadline, execStep, execSkipif, execGoto,
      execGotoI, execGosub, execGosubI, execRtn, execRun, execRunstep, execLblN, execGtoN, execGsbN,
      execRtnStored, execGtoStoredI, execGsbStoredI, execOpPM1, execOpPM2] <;>
    exact ⟨_, fun _ => rfl⟩

/-- No instruction is refused in the host's sense. -/
theorem exec_not_refused (i : Instr) (s : State) (x : Refusal) : exec i s ≠ .refused x := by
  obtain ⟨f, hf⟩ := exec_performs i
  rw [hf]
  exact perform_not_refused f s x

/-- A command whose checks come before its writes: its outcome, by the end of its computation. -/
theorem perform_of {a : State → Attempt State} {s : State} :
    perform (fun s => Ending.of s (a s)) s =
      match a (s.setOut Outputs.absent) with
      | .ok t => .next t
      | .error (.err c) => .next ((s.setOut Outputs.absent).reportError c)
      | .error (.refuse r) => .next (s.reportRefusal r)
      | .error (.fault x) => .fault x := by
  simp only [perform]
  generalize a (s.setOut Outputs.absent) = x
  cases x with
  | ok t => rfl
  | error e => cases e <;> rfl

end Sys2Proof.Machine
end

