-- ==== Sys2Proof/Laws/Control.lean ====
section
/-! SUPPORT. What each operation of the control flow can answer: the ends of a checked command, the label scan, GOTO,
GOSUB, RTN, a stored line and RUNSTEP (44_control_flow.md). -/

namespace Sys2Proof.Machine

/-! ### Ends of a checked command -/

theorem Ending.of_eq_ok {k t : State} {a : Attempt State} : Ending.of k a = .ok t ↔ a = .ok t := by
  cases a with
  | ok t => simp
  | error e => cases e <;> simp

theorem Ending.of_eq_err {k t : State} {c : ErrCode} {a : Attempt State} :
    Ending.of k a = .err c t ↔ a = .error (.err c) ∧ k = t := by
  cases a with
  | ok t => simp
  | error e => cases e <;> simp

theorem Ending.of_eq_refuse {k : State} {c} {a : Attempt State} :
    Ending.of k a = .refuse c ↔ a = .error (.refuse c) := by
  cases a with
  | ok t => simp
  | error e => cases e <;> simp

theorem Ending.of_eq_fault {k : State} {c} {a : Attempt State} :
    Ending.of k a = .fault c ↔ a = .error (.fault c) := by
  cases a with
  | ok t => simp
  | error e => cases e <;> simp

theorem State.setOut_self {s : State} (h : s.out = Outputs.absent) : s.setOut Outputs.absent = s := by
  cases s; simp_all [State.setOut]

/-! ### The label scan and the jumps -/

/-- A scan ends at a candidate that carries the label. -/
theorem scanFrom_inv {s : State} {lbl : Label} {n k l : Nat} (h : scanFrom s lbl n k = .ok l) :
    ∃ j, l = s.candidate j ∧ k ≤ j ∧ j < k + n ∧ ∃ op, s.opcodeAt l = .ok op ∧ s.params.classOf op = .label lbl := by
  induction n generalizing k with
  | zero => simp [scanFrom] at h
  | succ n ih =>
    simp only [scanFrom, Attempt.bind_eq_ok] at h
    obtain ⟨op, h1, h2⟩ := h
    split at h2
    · simp only [Attempt.pure_eq, Except.ok.injEq] at h2; subst h2
      rename_i hc
      exact ⟨k, rfl, le_rfl, by omega, op, h1, hc⟩
    · obtain ⟨j, h3, h4, h5, h6⟩ := ih h2
      exact ⟨j, h3, by omega, by omega, h6⟩

/-- Candidates are lines of the program. -/
theorem State.candidate_range {s : State} (h : s.lines ≠ 0) (k) : 1 ≤ s.candidate k ∧ s.candidate k ≤ s.lines := by
  have := Nat.mod_lt (s.cur + k + s.lines - 1) (show 0 < s.lines by omega)
  simp only [State.candidate]; omega

/-- A jump goes to a line of the program. -/
theorem State.jump_inv {s t : State} {lbl : Label} (h : s.jump lbl = .ok t) :
    ∃ l, 1 ≤ l ∧ l ≤ s.lines ∧ t = (s.touch l).setCur l := by
  simp only [State.jump, Attempt.bind_eq_ok, Attempt.pure_eq, Except.ok.injEq] at h
  obtain ⟨l, h1, rfl⟩ := h
  simp only [State.scan] at h1
  split at h1
  · cases h1
  · rename_i h0
    obtain ⟨j, rfl, _⟩ := scanFrom_inv h1
    have := State.candidate_range h0 j
    exact ⟨_, this.1, this.2, rfl⟩

/-- A GOTO that ends well is a jump. -/
theorem gotoTarget_ok {target : State → Attempt Label} {s t : State} (h : gotoTarget target s = .ok t) :
    ∃ l, 1 ≤ l ∧ l ≤ s.lines ∧ t = (s.touch l).setCur l := by
  simp only [gotoTarget, Ending.of_eq_ok, Attempt.bind_eq_ok] at h
  obtain ⟨n, _, h⟩ := h
  exact State.jump_inv h

/-- A GOTO that fails keeps nothing. -/
theorem gotoTarget_err {target : State → Attempt Label} {s t : State} {c : ErrCode}
    (h : gotoTarget target s = .err c t) : t = s := by
  simp only [gotoTarget, Ending.of_eq_err] at h; exact h.2.symm

/-- A GOSUB that ends well is a push and a jump. -/
theorem gosubTarget_ok {target : State → Attempt Label} {s t : State} (h : gosubTarget target s = .ok t) :
    s.rsp ≠ s.params.cap - 1 ∧ ∃ l, 1 ≤ l ∧ l ≤ s.lines ∧ t = (s.pushCall.touch l).setCur l := by
  simp only [gosubTarget] at h
  split at h
  · cases h
  · rename_i hc
    obtain ⟨l, h1, h2, h3⟩ := gotoTarget_ok h
    have : s.pushCall.lines = s.lines := by unfold State.pushCall; split <;> rfl
    exact ⟨hc, l, h1, this ▸ h2, h3⟩

/-- A GOSUB that fails keeps its push at most. -/
theorem gosubTarget_err {target : State → Attempt Label} {s t : State} {c : ErrCode}
    (h : gosubTarget target s = .err c t) : t = s ∨ (s.rsp ≠ s.params.cap - 1 ∧ t = s.pushCall) := by
  simp only [gosubTarget] at h
  split at h
  · cases h; exact .inl rfl
  · rename_i hc; exact .inr ⟨hc, gotoTarget_err h⟩

/-- The push writes the return stack and nothing else. -/
theorem State.pushCall_frame (s : State) : ∃ rs rsp, s.pushCall = (s.setRs rs).setRsp rsp := by
  unfold State.pushCall; split
  · exact ⟨s.rs, 0, rfl⟩
  · exact ⟨_, _, rfl⟩

/-- The push keeps the return stack within its bounds. -/
theorem State.pushCall_stackOk {s : State} (hS : s.StackOk) (h : s.rsp ≠ s.params.cap - 1) :
    s.pushCall.StackOk := by
  obtain ⟨h1, h2, h3, h4⟩ := hS
  unfold State.pushCall; split
  · exact ⟨h1, h2, by simp, by simp; omega⟩
  · refine ⟨h1, by simpa using h2, by simp; omega, by simp; omega⟩

/-! ### Stored lines -/

/-- What executing a stored line from state `s` can do, where it ends well (R272). -/
inductive LineEffect (s : State) : State → Prop
  | same : LineEffect s s
  | jump (l) : 1 ≤ l → l ≤ s.lines → LineEffect s ((s.touch l).setCur l)
  | call (l) : s.rsp ≠ s.params.cap - 1 → 1 ≤ l → l ≤ s.lines → LineEffect s ((s.pushCall.touch l).setCur l)
  | ret : 0 < s.rsp → LineEffect s ((s.setCur (s.rs.getD s.rsp.toNat 0)).setRsp (s.rsp - 1))
  | halt : s.rsp ≤ 0 → LineEffect s (((s.setCur 0).setRsp (-1)).setOut { Outputs.absent with halt := some true })
  | disp (op) : LineEffect s (s.setOut { Outputs.absent with opc := some op, dispatch := some true })

/-- A stored line writes the cursor, the cache, the return stack and the outputs at most. -/
theorem LineEffect.frame {s t : State} (h : LineEffect s t) :
    ∃ k c rs rsp o, t = ((((s.setCur c).setCache k).setRs rs).setRsp rsp).setOut o ∧
      (o = s.out ∨ (o.err = none ∧ o.refused = none)) := by
  cases h with
  | same => exact ⟨s.cache, s.cur, s.rs, s.rsp, s.out, by cases s; rfl, .inl rfl⟩
  | jump l => exact ⟨s.resolve l, l, s.rs, s.rsp, s.out,
      by unfold State.touch; generalize s.resolve l = k; cases s; rfl, .inl rfl⟩
  | call l =>
    obtain ⟨rs, rsp, h⟩ := State.pushCall_frame s
    rw [h]
    refine ⟨((s.setRs rs).setRsp rsp).resolve l, l, rs, rsp, s.out, ?_, .inl rfl⟩
    unfold State.touch; generalize ((s.setRs rs).setRsp rsp).resolve l = k; cases s; rfl
  | ret => exact ⟨s.cache, s.rs.getD s.rsp.toNat 0, s.rs, s.rsp - 1, s.out,
      by generalize s.rs.getD s.rsp.toNat 0 = c; cases s; rfl, .inl rfl⟩
  | halt => exact ⟨s.cache, 0, s.rs, -1, _, by cases s; rfl, .inr ⟨rfl, rfl⟩⟩
  | disp op => exact ⟨s.cache, s.cur, s.rs, s.rsp, _, by cases s; rfl, .inr ⟨rfl, rfl⟩⟩

theorem returnCall_inv {s t : State} (h : returnCall s = .ok t) : LineEffect s t := by
  simp only [returnCall] at h
  split at h <;> cases h
  · exact .ret ‹_›
  · exact .halt (by omega)

/-- RTN always ends well. -/
theorem returnCall_cases (s : State) : ∃ t, returnCall s = .ok t := by
  simp only [returnCall]; split <;> exact ⟨_, rfl⟩

/-- A stored line that ends well does one of the six things. -/
theorem runLine_inv {op : Opcode} {s t : State} (h : runLine op s = .ok t) : LineEffect s t := by
  simp only [runLine] at h
  split at h
  · cases h; exact .same
  · obtain ⟨l, h1, h2, rfl⟩ := gotoTarget_ok h; exact .jump l h1 h2
  · obtain ⟨hc, l, h1, h2, rfl⟩ := gosubTarget_ok h; exact .call l hc h1 h2
  · obtain ⟨l, h1, h2, rfl⟩ := gotoTarget_ok h; exact .jump l h1 h2
  · obtain ⟨hc, l, h1, h2, rfl⟩ := gosubTarget_ok h; exact .call l hc h1 h2
  · exact returnCall_inv h
  · split at h
    · cases h; exact .disp _
    · cases h; exact .disp _

/-- A stored line that fails keeps a push at most. -/
theorem runLine_err {op : Opcode} {s t : State} {c : ErrCode} (h : runLine op s = .err c t) :
    t = s ∨ (s.rsp ≠ s.params.cap - 1 ∧ t = s.pushCall) := by
  simp only [runLine] at h
  split at h
  · cases h
  · exact .inl (gotoTarget_err h)
  · exact gosubTarget_err h
  · exact .inl (gotoTarget_err h)
  · exact gosubTarget_err h
  · obtain ⟨t', ht⟩ := returnCall_cases s; simp [lineRtn, ht] at h
  · split at h <;> cases h

/-! ### Addresses -/

/-- The forward scan fails by a fault only. -/
theorem lineAddrFrom_error {m : Memory} {n a : Nat} {e : Exit} (h : lineAddrFrom m n a = .error e) :
    ∃ f, e = .fault f := by
  induction n generalizing a with
  | zero => cases h
  | succ n ih =>
    simp only [lineAddrFrom, Attempt.bind_eq_error] at h
    rcases h with h | ⟨_, _, h⟩
    · simp only [requireArena, require_eq_error] at h; exact ⟨_, h.2.symm⟩
    · exact ih h

theorem memRead_error {m : Memory} {a n : Nat} {e : Exit} (h : memRead m a n = .error e) : ∃ f, e = .fault f := by
  rcases memRead_cases m a n with ⟨_, h'⟩ | ⟨_, h'⟩ <;> rw [h'] at h <;> cases h
  exact ⟨_, rfl⟩

theorem State.opcodeAt_error {s : State} {l : Nat} {e : Exit} (h : s.opcodeAt l = .error e) : ∃ f, e = .fault f := by
  simp only [State.opcodeAt, Attempt.bind_eq_error] at h
  rcases h with h | ⟨_, _, h | ⟨_, _, h⟩⟩
  · exact lineAddrFrom_error h
  · exact memRead_error h
  · split at h
    · simp only [Attempt.bind_eq_error] at h
      rcases h with h | ⟨_, _, h⟩
      · exact memRead_error h
      · cases h
    · cases h

/-! ### RUNSTEP -/

/-- RUNSTEP increments the cursor, and returns from the phantom line 0 or runs the line there. -/
theorem runStep_inv {s t : State} (h : runStep s = .ok t) :
    LineEffect (s.setCur (s.inc s.cur)) t ∨
    (s.inc s.cur ≠ 0 ∧ LineEffect ((s.setCur (s.inc s.cur)).touch (s.inc s.cur)) t) := by
  simp only [runStep] at h
  by_cases hz : (s.setCur (s.inc s.cur)).cur = 0
  · rw [if_pos hz] at h; exact .inl (returnCall_inv h)
  · rw [if_neg hz] at h
    split at h
    · rename_i e _; cases e <;> simp at h
    · rename_i op _
      generalize hr : runLine op _ = E at h
      cases E <;> simp [Ending.restoreCache] at h
      subst h
      exact .inr ⟨hz, runLine_inv hr⟩

/-- RUNSTEP that fails keeps its increment, and a push at most. -/
theorem runStep_err {s t : State} {c : ErrCode} (h : runStep s = .err c t) :
    t = s.setCur (s.inc s.cur) ∨
    (s.rsp ≠ s.params.cap - 1 ∧ t = (s.setCur (s.inc s.cur)).pushCall) := by
  simp only [runStep] at h
  by_cases hz : (s.setCur (s.inc s.cur)).cur = 0
  · rw [if_pos hz] at h; obtain ⟨t', ht⟩ := returnCall_cases (s.setCur (s.inc s.cur)); simp [lineRtn, ht] at h
  · rw [if_neg hz] at h
    split at h
    · rename_i e he
      obtain ⟨f, rfl⟩ := State.opcodeAt_error he
      simp at h
    · rename_i op _
      generalize hr : runLine op _ = E at h
      cases E <;> simp [Ending.restoreCache] at h
      obtain ⟨rfl, rfl⟩ := h
      rcases runLine_err hr with rfl | ⟨h1, rfl⟩
      · exact .inl rfl
      · refine .inr ⟨h1, ?_⟩
        unfold State.pushCall
        by_cases hh : s.rsp = -1
        · simp [hh, State.touch]; rfl
        · simp [hh, State.touch]; rfl

end Sys2Proof.Machine
end

