-- ==== Sys2Proof/Laws/PerInstr.lean ====
section
/-! SUPPORT. Statements about every instruction as syntax. EncodeShape: a command encodes to a word with its opcode in
bits [31:26] (30_encoding.md R72); a stored line encodes to one byte below the escape byte, or to the escape byte and
one more (R75). -/

namespace Sys2Proof.Laws.EncodeShape

/-- The opcode of each command, bits [31:26] of its word (30_encoding.md R72); none for a stored line. -/
def commandOp : Instr → Option Nat
  | .add => some 0x01
  | .sub => some 0x02
  | .neg => some 0x03
  | .cmp => some 0x04
  | .inc => some 0x05
  | .dec => some 0x06
  | .isz => some 0x07
  | .store => some 0x08
  | .toint => some 0x09
  | .trunc => some 0x0A
  | .setws _ => some 0x0B
  | .setmode _ => some 0x0C
  | .wflag _ _ => some 0x0D
  | .skipflag _ => some 0x0E
  | .fenc => some 0x10
  | .fdec => some 0x11
  | .fexp => some 0x12
  | .fchk => some 0x13
  | .rreg _ => some 0x18
  | .rregI => some 0x18
  | .wreg _ => some 0x19
  | .wregI => some 0x19
  | .ri => some 0x1A
  | .wi => some 0x1B
  | .clrreg => some 0x1C
  | .iszi => some 0x1D
  | .dszi => some 0x1E
  | .iszind => some 0x1F
  | .dszind => some 0x20
  | .preset => some 0x24
  | .insert _ => some 0x25
  | .delete => some 0x26
  | .setline _ => some 0x27
  | .readline _ => some 0x28
  | .step => some 0x2C
  | .skipif _ => some 0x2D
  | .goto _ => some 0x2E
  | .gotoI => some 0x2E
  | .gosub _ => some 0x2F
  | .gosubI => some 0x2F
  | .rtn => some 0x30
  | .run => some 0x31
  | .runstep => some 0x32
  | .lblN _ => none
  | .gtoN _ => none
  | .gsbN _ => none
  | .rtnStored => none
  | .gtoStoredI => none
  | .gsbStoredI => none
  | .opPM1 _ => none
  | .opPM2 _ => none

/-- The code has the shape of a command word with opcode `op`, or of a stored line (30_encoding.md R72, R75). -/
def Shaped : Code → Option Nat → Prop
  | .command w, some op => w.toNat / 2 ^ 26 = op
  | .line [b], none => b ≠ 0xFF
  | .line [b, _], none => b = 0xFF
  | _, _ => False

/-- What is said of each instruction: its code has its shape. -/
def Statement (i : Instr) : Prop := i.wf = true → Shaped (encode i) (commandOp i)

theorem shaped_command {op f : Nat} (h : f < 2 ^ 26) (ho : op < 2 ^ 6) :
    Shaped (commandCode op f) (some op) := by
  simp only [Shaped, commandCode, BitVec.toNat_ofNat]
  omega

theorem shaped_stored (op : Opcode) : Shaped (.line (storedBytes op)) none := by
  unfold storedBytes
  split
  · rename_i h
    intro hc
    have h1 : op.toNat % 2 ^ 8 = 255 := congrArg BitVec.toNat hc
    omega
  · rfl

theorem add : Statement .add := fun _ => shaped_command (by decide) (by decide)

theorem sub : Statement .sub := fun _ => shaped_command (by decide) (by decide)

theorem neg : Statement .neg := fun _ => shaped_command (by decide) (by decide)

theorem cmp : Statement .cmp := fun _ => shaped_command (by decide) (by decide)

theorem inc : Statement .inc := fun _ => shaped_command (by decide) (by decide)

theorem dec : Statement .dec := fun _ => shaped_command (by decide) (by decide)

theorem isz : Statement .isz := fun _ => shaped_command (by decide) (by decide)

theorem store : Statement .store := fun _ => shaped_command (by decide) (by decide)

theorem toint : Statement .toint := fun _ => shaped_command (by decide) (by decide)

theorem trunc : Statement .trunc := fun _ => shaped_command (by decide) (by decide)

theorem setws (w : BitVec 7) : Statement (.setws w) := fun _ => shaped_command (by have := w.isLt; omega) (by decide)

theorem setmode (m : Mode) : Statement (.setmode m) := by cases m <;> exact fun _ => shaped_command (by decide) (by decide)

theorem wflag (f : Flag) (v : Bool) : Statement (.wflag f v) := by cases f <;> cases v <;> exact fun _ => shaped_command (by decide) (by decide)

theorem skipflag (f : Flag) : Statement (.skipflag f) := by cases f <;> exact fun _ => shaped_command (by decide) (by decide)

theorem fenc : Statement .fenc := fun _ => shaped_command (by decide) (by decide)

theorem fdec : Statement .fdec := fun _ => shaped_command (by decide) (by decide)

theorem fexp : Statement .fexp := fun _ => shaped_command (by decide) (by decide)

theorem fchk : Statement .fchk := fun _ => shaped_command (by decide) (by decide)

theorem rreg (idx : BitVec 9) : Statement (.rreg idx) := fun _ => shaped_command (by have := idx.isLt; omega) (by decide)

theorem rregI : Statement .rregI := fun _ => shaped_command (by decide) (by decide)

theorem wreg (idx : BitVec 9) : Statement (.wreg idx) := fun _ => shaped_command (by have := idx.isLt; omega) (by decide)

theorem wregI : Statement .wregI := fun _ => shaped_command (by decide) (by decide)

theorem ri : Statement .ri := fun _ => shaped_command (by decide) (by decide)

theorem wi : Statement .wi := fun _ => shaped_command (by decide) (by decide)

theorem clrreg : Statement .clrreg := fun _ => shaped_command (by decide) (by decide)

theorem iszi : Statement .iszi := fun _ => shaped_command (by decide) (by decide)

theorem dszi : Statement .dszi := fun _ => shaped_command (by decide) (by decide)

theorem iszind : Statement .iszind := fun _ => shaped_command (by decide) (by decide)

theorem dszind : Statement .dszind := fun _ => shaped_command (by decide) (by decide)

theorem preset : Statement .preset := fun _ => shaped_command (by decide) (by decide)

theorem insert (opc : Opcode) : Statement (.insert opc) := fun _ => shaped_command (by have := opc.isLt; omega) (by decide)

theorem delete : Statement .delete := fun _ => shaped_command (by decide) (by decide)

theorem setline (n : BitVec 8) : Statement (.setline n) := fun _ => shaped_command (by have := n.isLt; omega) (by decide)

theorem readline (n : BitVec 8) : Statement (.readline n) := fun _ => shaped_command (by have := n.isLt; omega) (by decide)

theorem step : Statement .step := fun _ => shaped_command (by decide) (by decide)

theorem skipif (b : Bool) : Statement (.skipif b) := by cases b <;> exact fun _ => shaped_command (by decide) (by decide)

theorem goto (lbl : Label) : Statement (.goto lbl) := fun _ => shaped_command (by have := lbl.isLt; omega) (by decide)

theorem gotoI : Statement .gotoI := fun _ => shaped_command (by decide) (by decide)

theorem gosub (lbl : Label) : Statement (.gosub lbl) := fun _ => shaped_command (by have := lbl.isLt; omega) (by decide)

theorem gosubI : Statement .gosubI := fun _ => shaped_command (by decide) (by decide)

theorem rtn : Statement .rtn := fun _ => shaped_command (by decide) (by decide)

theorem run : Statement .run := fun _ => shaped_command (by decide) (by decide)

theorem runstep : Statement .runstep := fun _ => shaped_command (by decide) (by decide)

theorem lblN (n : Label) : Statement (.lblN n) := fun _ => shaped_stored _

theorem gtoN (n : Label) : Statement (.gtoN n) := fun _ => shaped_stored _

theorem gsbN (n : Label) : Statement (.gsbN n) := fun _ => shaped_stored _

theorem rtnStored : Statement .rtnStored := fun _ => shaped_stored _

theorem gtoStoredI : Statement .gtoStoredI := fun _ => shaped_stored _

theorem gsbStoredI : Statement .gsbStoredI := fun _ => shaped_stored _

theorem opPM1 (o : Byte) : Statement (.opPM1 o) := fun _ => shaped_stored _

theorem opPM2 (o : Byte) : Statement (.opPM2 o) := fun _ => shaped_stored _

end Sys2Proof.Laws.EncodeShape
end

