-- ==== Sys2Proof/Laws/Persist.lean ====
section
/-! SUPPORT. What LOAD reads and what it can answer (70_reset_and_hazards.md R333, R334). -/

namespace Sys2Proof.Machine

/-- The arena of a storage string is in canonical form. -/
theorem Memory.ofNybbles_wf (a : Nat) (ds : List Nat) (h : a + ds.length ≤ arenaSize) :
    Memory.wfFrom a (Memory.ofNybbles a ds) = true := by
  induction ds generalizing a with
  | nil => rfl
  | cons d ds ih =>
    simp only [List.length_cons] at h
    have := ih (a + 1) (by omega)
    simp only [Memory.ofNybbles]
    split
    · exact Memory.wfFrom_mono (by omega) this
    · simp only [Memory.wfFrom, Bool.and_eq_true, decide_eq_true_eq, bne_iff_ne]
      refine ⟨⟨⟨le_rfl, by omega⟩, ?_⟩, this⟩
      intro hc
      have := congrArg BitVec.toNat hc
      simp only [BitVec.toNat_ofNat] at this
      rename_i hn; apply hn; simpa using this

theorem Memory.get_ofNybbles (a : Nat) (ds : List Nat) (b : Nat) : (Memory.ofNybbles a ds).get b = if a ≤ b ∧
    b < a + ds.length then BitVec.ofNat 4 (ds.getD (b - a) 0) else 0 := by
  induction ds generalizing a with
  | nil => simp [Memory.ofNybbles, Memory.get]
  | cons d ds ih =>
    have key : ∀ v : Nybble, v = BitVec.ofNat 4 d →
        (if a = b then v else (Memory.ofNybbles (a + 1) ds).get b) = if a ≤ b ∧
        b < a + (d :: ds).length then BitVec.ofNat 4 ((d :: ds).getD (b - a) 0) else 0 := by
      rintro v rfl
      by_cases hab : a = b
      · subst hab; simp
      · rw [if_neg hab, ih]
        simp only [List.length_cons]
        by_cases hin : a + 1 ≤ b ∧ b < a + 1 + ds.length
        · rw [if_pos hin, if_pos (by omega), show b - a = (b - (a + 1)) + 1 by omega, List.getD_cons_succ]
        · rw [if_neg hin, if_neg (by omega)]
    simp only [Memory.ofNybbles]
    split
    · rename_i hd
      rw [← key _ rfl]
      by_cases hab : a = b
      · rw [if_pos hab, ih, if_neg (by omega)]; symm; apply BitVec.eq_of_toNat_eq; simpa using hd
      · rw [if_neg hab]
    · rw [← key _ rfl]; rfl

theorem hexDigits?_length {t : Text} {ds} (h : hexDigits? t = some ds) : ds.length = t.length := by
  induction t generalizing ds with
  | nil => simp [hexDigits?] at h; subst h; rfl
  | cons c t ih =>
    simp only [hexDigits?] at h
    split at h
    · rename_i d ds' h1 h2
      cases h
      simp [ih h2]
    · cases h

theorem JsonNum.within_some {lo hi n : Int} {j : JsonNum} (h : j.within lo hi = some n) :
    j = .int n ∧ lo ≤ n ∧ n ≤ hi := by
  cases j with
  | int k => simp only [JsonNum.within] at h; split at h <;> cases h; exact ⟨rfl, by omega, by omega⟩
  | notInt => simp [JsonNum.within] at h

theorem stackOf_some {cap xs rs} (h : stackOf cap xs = some rs) : rs.length = cap ∧ ∀ l ∈ rs, l ≤ maxLines := by
  simp only [stackOf] at h
  split at h
  · rename_i hl
    have key : ∀ (xs : List JsonNum) rs, List.mapM (fun x => (x.within 0 maxLines).map Int.toNat) xs = some rs →
        rs.length = xs.length ∧ ∀ l ∈ rs, l ≤ maxLines := by
      intro xs
      induction xs with
      | nil => intro rs h; simp at h; subst h; simp
      | cons x xs ih =>
        intro rs h
        simp only [List.mapM_cons, Option.bind_eq_bind, Option.bind_eq_some_iff, Option.map_eq_some_iff,
            Option.pure_def, Option.some.injEq] at h
        obtain ⟨l, ⟨n, h1, rfl⟩, rs', h2, rfl⟩ := h
        obtain ⟨h3, h4⟩ := ih _ h2
        have := JsonNum.within_some h1
        refine ⟨by simp [h3], fun l hl => ?_⟩
        rcases List.mem_cons.1 hl with rfl | hl
        · simp only [maxLines] at *; omega
        · exact h4 l hl
    have := key xs rs h
    exact ⟨by omega, this.2⟩
  · cases h

/-- What a valid program meets (R334). -/
theorem validProgram_some {p m img l e c rs rsp} (h : validProgram p m img = some (l, e, c, rs, rsp)) :
    l ≤ maxLines ∧ replay m l 0 0 = some (2 * l + 2 * e, e) ∧ c ≤ l ∧ rs.length = p.cap ∧
    (∀ x ∈ rs, x ≤ maxLines) ∧ -1 ≤ rsp ∧ rsp ≤ p.cap - 1 := by
  simp only [validProgram, Option.bind_eq_bind, Option.bind_eq_some_iff, Option.pure_def, Option.some.injEq,
      Prod.mk.injEq] at h
  obtain ⟨L, h1, ⟨P, E⟩, h2, C, h3, R, h4, xs, h5, RS, h6, rfl, rfl, rfl, rfl, rfl⟩ := h
  have w1 := JsonNum.within_some h1
  have w3 := JsonNum.within_some h3
  have w4 := JsonNum.within_some h4
  have s6 := stackOf_some h6
  have r2 := replay_some h2
  refine ⟨by simp only [maxLines] at *; omega, ?_, by omega, s6.1, s6.2, w4.2.1, w4.2.2⟩
  rw [h2]; simp; omega

/-- LOAD rejects, or reads the arena and I and goes on to the program. -/
theorem loadImage_cases (img : Image) (s : State) :
    loadImage img s = s.setOut { Outputs.absent with load := some .rejected } ∨
    ∃ ds i, ds.length = arenaSize ∧
      loadImage img s = loadProgram img ((s.setArena (Memory.ofNybbles 0 ds)).setIreg i) := by
  unfold loadImage
  split
  · rename_i ds is _ _
    split
    · rename_i h; exact .inr ⟨ds, _, h.1, rfl⟩
    · exact .inl rfl
  · exact .inl rfl

/-- LOAD's second stage takes a valid program, or rolls the program back. -/
theorem loadProgram_cases (img : Image) (s : State) :
    (∃ l e c rs rsp, validProgram s.params s.arena img = some (l, e, c, rs, rsp) ∧
      loadProgram img s =
        (((((((s.setLines l).setExt e).setCur c).setRs rs).setRsp rsp).setCache LineCache.start).setDirty
          false).setOut { Outputs.absent with load := some .loaded }) ∨
    loadProgram img s =
      (s.clearProgram.setDirty true).setOut { Outputs.absent with load := some .rolledBack } := by
  unfold loadProgram
  split
  · rename_i h; exact .inl ⟨_, _, _, _, _, h, rfl⟩
  · exact .inr rfl

end Sys2Proof.Machine
end

