-- ==== Sys2Proof/Laws/Program.lean ====
section
/-! SUPPORT. What the program commands do to the arena and to the lines (43_program_memory.md R234 to R238). -/

namespace Sys2Proof.Machine

/-! ### Bytes -/

/-- Bytes written inside the arena. -/
theorem writeBytes_ok {m : Memory} {a : Nat} {bs : List Byte} (h : a + 2 * bs.length ≤ arenaSize) :
    ∃ m', writeBytes m a bs = .ok m' ∧ (m.wf = true → m'.wf = true) ∧
      (∀ b, b < a ∨ a + 2 * bs.length ≤ b → m'.get b = m.get b) ∧
      ∀ k (hk : k < bs.length), m'.readN (a + 2 * k) 2 = (bs[k]).toNat := by
  induction bs generalizing m a with
  | nil => exact ⟨m, rfl, id, fun _ _ => rfl, fun k hk => by simp at hk⟩
  | cons b bs ih =>
    simp only [List.length_cons] at h
    obtain ⟨m', h1, h2, h3, h4⟩ := ih (m := m.writeN a 2 b.toNat) (a := a + 2) (by omega)
    refine ⟨m', ?_, fun hw => h2 (Memory.wf_writeN _ _ _ hw), fun c hc => ?_, fun k hk => ?_⟩
    · simp only [writeBytes, memWrite_ok (show a + 2 ≤ arenaSize by omega), Attempt.bind_ok, h1]
    · simp only [List.length_cons] at hc
      rw [h3 c (by omega), Memory.get_writeN_outside (by omega)]
    · cases k with
      | zero =>
        have : m'.readN (a + 2 * 0) 2 = (m.writeN a 2 b.toNat).readN a 2 :=
            Memory.readN_congr fun c _ hc => h3 c (by omega)
        rw [this, Memory.readN_writeN_same (by omega)]
        exact Nat.mod_eq_of_lt b.isLt
      | succ k =>
        rw [show a + 2 * (k + 1) = a + 2 + 2 * k by ring]
        simp only [List.length_cons] at hk
        exact h4 k (by omega)

/-- Writing bytes keeps the canonical form. -/
theorem writeBytes_wf {m m' : Memory} {a : Nat} {bs : List Byte} (h : writeBytes m a bs = .ok m')
    (hw : m.wf = true) : m'.wf = true := by
  induction bs generalizing m a with
  | nil => cases h; exact hw
  | cons b bs ih =>
    simp only [writeBytes, Attempt.bind_eq_ok] at h
    obtain ⟨m1, h1, h2⟩ := h
    rcases memWrite_cases m a 2 b.toNat with ⟨_, h'⟩ | ⟨_, h'⟩ <;> rw [h'] at h1 <;> cases h1
    exact ih h2 (Memory.wf_writeN _ _ _ hw)

/-- The arena after a line is put in: below it, the tail above it, beyond the program, and its bytes. -/
theorem insertBytes_get {m : Memory} {a p : Nat} {bs : List Byte} (ha : a ≤ p)
    (h : p + 2 * bs.length ≤ arenaSize) :
    ∃ m', writeBytes (m.moveUp a (2 * bs.length) (p - a)) a bs = .ok m' ∧ (m.wf = true → m'.wf = true) ∧
      (∀ b, b < a → m'.get b = m.get b) ∧
      (∀ b, a ≤ b → b < p → m'.get (b + 2 * bs.length) = m.get b) ∧
      (∀ b, p + 2 * bs.length ≤ b → m'.get b = m.get b) ∧
      ∀ k (hk : k < bs.length), m'.readN (a + 2 * k) 2 = (bs[k]).toNat := by
  obtain ⟨m', h1, h2, h3, h4⟩ := writeBytes_ok (m := m.moveUp a (2 * bs.length) (p - a)) (a := a)
    (bs := bs) (by omega)
  have g := Memory.get_moveUp (m := m) (a := a) (sz := 2 * bs.length) (n := p - a) (by omega)
  refine ⟨m', h1, fun hw => h2 (Memory.wf_moveUp _ _ _ hw), fun b hb => ?_, fun b hb1 hb2 => ?_, fun b hb => ?_,
      h4⟩
  · rw [h3 b (by omega), g, if_neg (by omega)]
  · rw [h3 _ (by omega), g, if_pos (by omega), Nat.add_sub_cancel]
  · rw [h3 b (by omega), g, if_neg (by omega)]

/-- The arena after a line is taken out. -/
theorem deleteBytes_get {m : Memory} {a p w : Nat} (ha : a + w ≤ p) (h : p ≤ arenaSize) :
    let m' := (m.moveDown a w (p - w - a)).zero (p - w) (p - (p - w))
    (m.wf = true → m'.wf = true) ∧ (∀ b, b < a → m'.get b = m.get b) ∧
      (∀ b, a ≤ b → b + w < p → m'.get b = m.get (b + w)) ∧ (∀ b, p ≤ b + w → b < p → m'.get b = 0) ∧
      (∀ b, p ≤ b → m'.get b = m.get b) := by
  intro m'
  have g := Memory.get_moveDown (m := m) (a := a) (sz := w) (n := p - w - a) (by omega)
  have z := Memory.get_zero (m := m.moveDown a w (p - w - a)) (a := p - w) (n := p - (p - w)) (by omega)
  refine ⟨fun hw => Memory.wf_zero _ _ (Memory.wf_moveDown _ _ _ hw), fun b hb => ?_, fun b h1 h2 => ?_,
      fun b h1 h2 => ?_, fun b hb => ?_⟩
  · rw [z, if_neg (by omega), g, if_neg (by omega)]
  · rw [z, if_neg (by omega), g, if_pos (by omega)]
  · rw [z, if_pos (by omega)]
  · rw [z, if_neg (by omega), g, if_neg (by omega)]

/-! ### Lines -/

/-- The bytes of an opcode read back as a line of its size and of its opcode (R75, R76). -/
theorem storedBytes_spec (opc : Opcode) (h : opc.toNat ≤ 0x1FE) :
    ∃ sz, sz = (if opc.toNat ≤ 0xFE then 2 else 4) ∧
      storedSize (storedBytes opc) = sz ∧ 2 * (storedBytes opc).length = sz ∧
      ∀ (m : Memory) (a : Nat),
        (∀ k (hk : k < (storedBytes opc).length), m.readN (a + 2 * k) 2 = ((storedBytes opc)[k]).toNat) →
        lineWidth m a = sz ∧ opcodeOfBytes (m.readN a 2) (m.readN (a + 2) 2) = opc := by
  refine ⟨_, rfl, ?_, ?_, fun m a hb => ?_⟩
  · simp only [storedSize, storedBytes]; split <;> rfl
  · simp only [storedBytes]; split <;> rfl
  · by_cases hc : opc.toNat ≤ 0xFE
    · have e : storedBytes opc = [BitVec.ofNat 8 opc.toNat] := by simp only [storedBytes, if_pos hc]
      have h0 := hb 0 (by simp [e])
      simp only [e, List.getElem_cons_zero, Nat.mul_zero, Nat.add_zero, BitVec.toNat_ofNat] at h0
      rw [if_pos hc]
      have hn : m.readN a 2 ≠ 0xFF := by omega
      refine ⟨by simp only [lineWidth, if_neg hn], ?_⟩
      simp only [opcodeOfBytes, if_neg hn]
      apply BitVec.eq_of_toNat_eq; simp only [BitVec.toNat_ofNat]; omega
    · have e : storedBytes opc = [0xFF, BitVec.ofNat 8 (opc.toNat - 0xFF)] := by simp only [storedBytes, if_neg hc]
      have h0 := hb 0 (by simp [e])
      have h1 := hb 1 (by simp [e])
      simp only [e, List.getElem_cons_zero, List.getElem_cons_succ, Nat.mul_zero, Nat.add_zero, Nat.mul_one,
          BitVec.toNat_ofNat] at h0 h1
      rw [if_neg hc]
      have hn : m.readN a 2 = 0xFF := h0
      refine ⟨by simp only [lineWidth, if_pos hn], ?_⟩
      simp only [opcodeOfBytes, if_pos hn, h1]
      apply BitVec.eq_of_toNat_eq; simp only [BitVec.toNat_ofNat]; omega

/-- The replay of one line that fits. -/
theorem replay_one {m : Memory} {a x sz : Nat} (hw : lineWidth m a = sz) (hsz : sz = 2 ∨ sz = 4)
    (h : a + sz ≤ arenaSize) : replay m 1 a x = some (a + sz, if sz = 4 then x + 1 else x) := by
  simp only [replay]
  rw [if_neg (by omega)]
  rcases hsz with rfl | rfl
  · rw [if_neg (by omega), if_neg (by omega)]
  · rw [if_pos hw, if_neg (by omega), if_pos rfl]

/-- What the replay of one line says of it. -/
theorem replay_one_some {m : Memory} {a x d y : Nat} (h : replay m 1 a x = some (d, y)) :
    d = a + lineWidth m a ∧ y = if lineWidth m a = 4 then x + 1 else x := by
  simp only [replay] at h
  split at h
  · cases h
  · split at h <;> rename_i h4
    · split at h
      · cases h
      · simp only [Option.some.injEq, Prod.mk.injEq] at h; simp only [h4, if_true]; omega
    · simp only [Option.some.injEq, Prod.mk.injEq] at h
      rcases lineWidth_cases m a with h5 | h5 <;> rw [if_neg (by omega)] <;> omega

/-- The opcode of a line that fits, from its address (R233). -/
theorem State.opcodeAt_of_lineAddr {s : State} {l a : Nat} (ha : s.lineAddr l = .ok a)
    (h : a + lineWidth s.arena a ≤ arenaSize) :
    s.opcodeAt l = .ok (opcodeOfBytes (s.arena.readN a 2) (s.arena.readN (a + 2) 2)) := by
  rcases lineWidth_cases s.arena a with ⟨hb, hw⟩ | ⟨hb, hw⟩
  · simp only [State.opcodeAt, ha, Attempt.bind_ok, memRead_ok (show a + 2 ≤ arenaSize by omega), hb, if_true,
      memRead_ok (show a + 2 + 2 ≤ arenaSize by omega), Attempt.pure_eq]
  · simp only [State.opcodeAt, ha, Attempt.bind_ok, memRead_ok (show a + 2 ≤ arenaSize by omega), if_neg hb,
      Attempt.pure_eq, opcodeOfBytes]

/-- A line moved whole keeps its width and its opcode. -/
theorem opcodeOfBytes_congr {m m' : Memory} {a b : Nat}
    (hw : ∀ j, j < lineWidth m a → m'.get (b + j) = m.get (a + j)) :
    lineWidth m' b = lineWidth m a ∧
      opcodeOfBytes (m'.readN b 2) (m'.readN (b + 2) 2) = opcodeOfBytes (m.readN a 2) (m.readN (a + 2) 2) := by
  have h2 : 2 ≤ lineWidth m a := by rcases lineWidth_cases m a with h | h <;> omega
  have r0 : m'.readN b 2 = m.readN a 2 := by
    have h0 := hw 0 (by omega); have h1 := hw 1 (by omega)
    simp only [Memory.readN, Nat.add_zero] at *; rw [h0, h1]
  have e : lineWidth m' b = lineWidth m a := by simp only [lineWidth, r0]
  refine ⟨e, ?_⟩
  rcases lineWidth_cases m a with ⟨hb, hw'⟩ | ⟨hb, hw'⟩
  · have r1 : m'.readN (b+2) 2 = m.readN (a+2) 2 := by
      have h0 := hw 2 (by omega); have h1 := hw 3 (by omega)
      simp only [Memory.readN, Nat.add_zero, Nat.add_assoc, Nat.reduceAdd] at *; rw [h0, h1]
    rw [r0, r1]
  · simp only [opcodeOfBytes, r0, if_neg hb]

/-- A line ends before any later one starts. -/
theorem State.line_before {s : State} (hp : s.ProgramOk) {l n : Nat} (h1 : 1 ≤ l) (hl : l ≤ n)
    (hn : n ≤ s.lines) {a b : Nat} (hb : s.lineAddr l = .ok b) (ha : lineAddrFrom s.arena n 0 = .ok a) :
    b + lineWidth s.arena b ≤ a := by
  obtain ⟨b', hb', hb2, hb3⟩ := hp.line h1 (by omega)
  rw [hb] at hb'; have : b' = b := by simpa using hb'.symm
  subst this
  obtain ⟨a', x, h1', h2', h3', _⟩ := hp.split hn
  have : a' = a := by rw [h3'] at ha; simpa using ha
  subst this
  rw [show n = l + (n - l) by omega, replay_add] at h1'
  cases h4 : replay s.arena l 0 0 with
  | none => simp [h4] at h1'
  | some q =>
    obtain ⟨c, y⟩ := q
    simp only [h4, Option.bind_some] at h1'
    have e1 := (replay_some h4).1
    have e2 : lineAddrFrom s.arena l 0 = .ok (b' + lineWidth s.arena b') := hb2
    rw [e1] at e2
    have := replay_some h1'
    have : c = b' + lineWidth s.arena b' := by simpa using e2
    omega

/-! ### INSERT and DELETE -/

/-- What putting a line's bytes in at an address can answer. -/
theorem insertAt_inv {s t : State} {a : Nat} {bs : List Byte} (h : insertAt s a bs = .ok t) :
    ∃ m, writeBytes (s.arena.moveUp a (storedSize bs) (s.progSize - a)) a bs = .ok m ∧
      t = (((s.setArena m).setLines (s.lines + 1)).setExt
        (if storedSize bs = 4 then s.ext + 1 else s.ext)).setCache LineCache.start := by
  simp only [insertAt, Attempt.bind_eq_ok, Attempt.pure_eq, Except.ok.injEq] at h
  obtain ⟨m, h1, h2⟩ := h; exact ⟨m, h1, h2.symm⟩

/-- What INSERT can answer from any state. -/
theorem insertLine_inv {s t : State} {opc : Opcode} (h : insertLine opc s = .ok t) :
    ∃ a m, s.lineAddr s.insertPoint = .ok a ∧
      s.progSize + storedSize (storedBytes opc) ≤ arenaSize ∧
      writeBytes (s.arena.moveUp a (storedSize (storedBytes opc)) (s.progSize - a)) a (storedBytes opc) = .ok m ∧
      t = ((((((s.setArena m).setLines (s.lines + 1)).setExt
        (if storedSize (storedBytes opc) = 4 then s.ext + 1 else s.ext)).setCache LineCache.start).setCur
          s.insertPoint).setDirty true).setFreeCtr s.ctrAfterEdit := by
  simp only [insertLine, Attempt.bind_eq_ok, require_eq_ok, decide_eq_true_eq, Attempt.pure_eq,
    Except.ok.injEq] at h
  obtain ⟨_, _, _, h2, a, ha, t', ht, rfl⟩ := h
  obtain ⟨m, hm, rfl⟩ := insertAt_inv ht
  exact ⟨a, m, ha, h2, hm, rfl⟩

/-- What DELETE can answer from any state. -/
theorem deleteLine_inv {s t : State} (h : deleteLine s = .ok t) :
    ∃ a b, s.lineAddr s.deletePoint = .ok a ∧ s.lineAddr (min s.deletePoint s.lines) = .ok b ∧ s.lines ≠ 0 ∧
      s.cur ≠ 0 ∧ s.progSize ≤ arenaSize ∧
      t = (((deleteAt s a b).setCur (s.deletePoint - 1)).setDirty true).setFreeCtr s.ctrAfterEdit := by
  simp only [deleteLine, Attempt.bind_eq_ok, require_eq_ok, Bool.and_eq_true, bne_iff_ne, requireArena,
    decide_eq_true_eq, Attempt.pure_eq, Except.ok.injEq] at h
  obtain ⟨_, ⟨h1, h1'⟩, _, h2, a, ha, b, hb, rfl⟩ := h
  exact ⟨a, b, ha, hb, h1, h1', h2, rfl⟩

/-- DELETE reads a width of 2 or 4, and of a line in the arena its own. -/
theorem State.deleteWidth_cases (s : State) (a : Nat) :
    (s.deleteWidth a = 2 ∨ s.deleteWidth a = 4) ∧
      (a + 2 ≤ arenaSize → s.deleteWidth a = lineWidth s.arena a) := by
  unfold State.deleteWidth
  split
  · exact ⟨by rcases lineWidth_cases s.arena a with h | h <;> omega, fun _ => rfl⟩
  · exact ⟨by split <;> simp, fun h => absurd h ‹_›⟩

/-- The new line of INSERT is one of 1..lines+1, and the one after the cursor where the cursor is on a line. -/
theorem State.insertPoint_cases (s : State) :
    1 ≤ s.insertPoint ∧ s.insertPoint ≤ s.lines + 1 ∧ (s.cur ≤ s.lines → s.insertPoint = s.cur + 1) := by
  unfold State.insertPoint
  split
  · omega
  · have := Nat.mod_lt (Config.staleLine s.freeCtr) (show 0 < s.lines + 1 by omega)
    omega

/-- The line DELETE takes out is a line of the program, but that a cursor on line `lines + 1` stays there. -/
theorem State.deletePoint_cases {s : State} (h0 : s.lines ≠ 0) (h1 : s.cur ≠ 0) :
    1 ≤ s.deletePoint ∧ (s.cur ≠ s.lines + 1 → s.deletePoint ≤ s.lines) ∧
      (s.cur ≤ s.lines + 1 → s.deletePoint = s.cur) := by
  unfold State.deletePoint
  split
  · omega
  · have := Nat.mod_lt (Config.staleLine s.freeCtr) (show 0 < s.lines by omega)
    omega

/-- An edit with the cursor on a line uses no free value. -/
theorem State.ctrAfterEdit_of_le {s : State} (h : s.cur ≤ s.lines) : s.ctrAfterEdit = s.freeCtr := if_pos h

/-- INSERT in a stored program (R236), with line `c + 1` the new one. -/
theorem insertLine_spec {s : State} (hp : s.ProgramOk) {c : Nat} (hi : s.insertPoint = c + 1) {opc : Opcode}
    (ho : opc.toNat ≤ 0x1FE) {sz : Nat} (hsz : sz = if opc.toNat ≤ 0xFE then 2 else 4)
    (hfit : s.progSize + sz ≤ arenaSize) :
    ∃ m a, s.lineAddr (c + 1) = .ok a ∧ a ≤ s.progSize ∧
      insertLine opc s = .ok (((((((s.setArena m).setLines (s.lines + 1)).setExt
        (if sz = 4 then s.ext + 1 else s.ext)).setCache LineCache.start).setCur (c + 1)).setDirty
          true).setFreeCtr s.ctrAfterEdit) ∧
      (s.arena.wf = true → m.wf = true) ∧ (∀ b, b < a → m.get b = s.arena.get b) ∧
      (∀ b, a ≤ b → b < s.progSize → m.get (b + sz) = s.arena.get b) ∧
      (∀ b, s.progSize + sz ≤ b → m.get b = s.arena.get b) ∧
      lineWidth m a = sz ∧ opcodeOfBytes (m.readN a 2) (m.readN (a + 2) 2) = opc ∧
      (s.lines + 1 ≤ maxLines ∧
        replay m (s.lines + 1) 0 0 =
          some (2 * (s.lines + 1) + 2 * (if sz = 4 then s.ext + 1 else s.ext),
            if sz = 4 then s.ext + 1 else s.ext)) ∧
      (∀ n, n ≤ c → lineAddrFrom m n 0 = lineAddrFrom s.arena n 0) ∧
      (∀ n b, c ≤ n → n ≤ s.lines → lineAddrFrom s.arena n 0 = .ok b →
        lineAddrFrom m (n + 1) 0 = .ok (b + sz)) := by
  have hc : c ≤ s.lines := by have := s.insertPoint_cases; omega
  obtain ⟨sz', hsz', hs1, hs2, hs3⟩ := storedBytes_spec opc ho
  rw [← hsz] at hsz'; subst hsz'
  obtain ⟨a, x, hr1, hr2, hla, hale, hxe, hax⟩ := hp.split hc
  rw [← hs2] at hfit
  obtain ⟨m, hw, hwf, g1, g2, g3, hb⟩ := insertBytes_get (m := s.arena) (bs := storedBytes opc) hale hfit
  rw [hs2] at hw g2 g3 hfit
  have hs := hs3 m a hb
  have hsz24 : sz' = 2 ∨ sz' = 4 := by rw [hsz]; split <;> simp
  have hx' := replay_some hr1
  have hrest := replay_some hr2
  -- the new replay
  have R1 : replay m c 0 0 = some (a, x) := replay_congr hr1 (by omega) fun b _ hb => g1 b hb
  have R2 : replay m 1 a x = some (a + sz', if sz' = 4 then x + 1 else x) := replay_one hs.1 hsz24 (by omega)
  have shift : ∀ n p y, replay s.arena n a x = some (p, y) → p ≤ s.progSize → a ≤ p →
      replay m n (a + sz') (if sz' = 4 then x + 1 else x) = some (a + sz' + (p - a),
      (if sz' = 4 then x + 1 else x) + (y - x)) := by
    intro n p y hn hp1 hp2
    apply replay_shift hn (by omega)
    intro j hj
    rw [show a + sz' + j = a + j + sz' by ring, g2 (a + j) (by omega) (by omega)]
  have R3 := shift _ _ _ hr2 le_rfl hale
  have hPs : s.progSize = 2 * s.lines + 2 * s.ext := rfl
  have L1 : ∀ n, n ≤ c → lineAddrFrom m n 0 = lineAddrFrom s.arena n 0 := by
    intro n hn
    have h := hr1
    rw [← Nat.add_sub_cancel' hn, replay_add] at h
    cases h2 : replay s.arena n 0 0 with
    | none => simp [h2] at h
    | some p =>
      obtain ⟨b, y⟩ := p
      simp only [h2, Option.bind_some] at h
      have := replay_some h
      rw [(replay_some h2).1, (replay_some (replay_congr h2 (by omega) fun c _ hc => g1 c (by omega))).1]
  have L2 : ∀ n b, c ≤ n → n ≤ s.lines → lineAddrFrom s.arena n 0 = .ok b →
      lineAddrFrom m (n + 1) 0 = .ok (b + sz') := by
    intro n b hn1 hn2 hb
    obtain ⟨k, rfl⟩ : ∃ k, n = c + k := ⟨n - c, by omega⟩
    rw [lineAddrFrom_add, hla, Attempt.bind_ok] at hb
    have h := hr2
    rw [← Nat.add_sub_cancel' (show k ≤ s.lines - c by omega), replay_add] at h
    cases h2 : replay s.arena k a x with
    | none => simp [h2] at h
    | some p =>
      obtain ⟨b', y⟩ := p
      simp only [h2, Option.bind_some] at h
      have hs' := replay_some h
      have hk := replay_some h2
      have : b' = b := by have := hk.1; rw [hb] at this; simpa using this.symm
      subst this
      have R := shift k b' y h2 (by omega) (by omega)
      rw [show c + k + 1 = c + (1 + k) by ring, lineAddrFrom_add, (replay_some R1).1, Attempt.bind_ok,
          lineAddrFrom_add, (replay_some R2).1, Attempt.bind_ok, (replay_some R).1]
      congr 1; omega
  refine ⟨m, a, hla, hale, ?_, hwf, g1, g2, g3, hs.1, hs.2, ⟨?_, ?_⟩, L1, L2⟩
  · simp only [insertLine, ho, decide_true, require_true, Attempt.bind_ok, hs1, hfit, hi,
      State.lineAddr, Nat.add_sub_cancel, hla, insertAt, hw, Attempt.pure_eq]
  · simp only [maxLines, arenaSize] at *; omega
  · rw [show s.lines + 1 = c + (1 + (s.lines - c)) by omega, replay_add, R1, Option.bind_some, replay_add,
      R2, Option.bind_some, R3]
    simp only [Option.some.injEq, Prod.mk.injEq]
    split <;> omega

/-- DELETE in a stored program (R238), with line `c` the one that goes. -/
theorem deleteLine_spec {s : State} (hp : s.ProgramOk) (h0 : s.cur ≠ 0) {c : Nat} (hi : s.deletePoint = c)
    (h1 : 1 ≤ c) (hc : c ≤ s.lines) :
    ∃ m a w e, s.lineAddr c = .ok a ∧ w = lineWidth s.arena a ∧ a + w ≤ s.progSize ∧
      e = (if w = 4 then s.ext - 1 else s.ext) ∧
      deleteLine s = .ok (((((((s.setArena m).setLines (s.lines - 1)).setExt e).setCache LineCache.start).setCur
        (c - 1)).setDirty true).setFreeCtr s.ctrAfterEdit) ∧
      (s.arena.wf = true → m.wf = true) ∧ (∀ b, b < a → m.get b = s.arena.get b) ∧
      (∀ b, a ≤ b → b + w < s.progSize → m.get b = s.arena.get (b + w)) ∧
      (∀ b, s.progSize ≤ b + w → b < s.progSize → m.get b = 0) ∧
      (∀ b, s.progSize ≤ b → m.get b = s.arena.get b) ∧
      (w = 4 → 1 ≤ s.ext) ∧
      replay m (s.lines - 1) 0 0 = some (2 * (s.lines - 1) + 2 * e, e) ∧
      (∀ n, n ≤ c - 1 → lineAddrFrom m n 0 = lineAddrFrom s.arena n 0) ∧
      (∀ n b, c ≤ n → n ≤ s.lines → lineAddrFrom s.arena n 0 = .ok b →
        a + w ≤ b ∧ lineAddrFrom m (n - 1) 0 = .ok (b - w)) := by
  obtain ⟨a, x, hr1, hr2, hla, hale, hxe, hax⟩ := hp.split (n := c - 1) (by omega)
  have hsize := hp.size_le
  have hr2' := hr2
  rw [show s.lines - (c - 1) = 1 + (s.lines - c) by omega, replay_add] at hr2'
  cases h2 : replay s.arena 1 a x with
  | none => simp [h2] at hr2'
  | some q =>
    obtain ⟨d, y⟩ := q
    simp only [h2, Option.bind_some] at hr2'
    have hq := replay_some h2
    have hq2 := replay_some hr2'
    have hw24 : lineWidth s.arena a = 2 ∨ lineWidth s.arena a = 4 := by
      rcases lineWidth_cases s.arena a with h | h <;> omega
    have hcw := replay_one_some h2
    obtain ⟨m1, m2, m3, m4, m5⟩ := deleteBytes_get (m := s.arena) (a := a) (p := s.progSize)
      (w := lineWidth s.arena a) (by omega) hsize
    generalize hm : ((s.arena.moveDown a (lineWidth s.arena a) (s.progSize - lineWidth s.arena a - a)).zero
        (s.progSize - lineWidth s.arena a) (s.progSize - (s.progSize - lineWidth s.arena a))) = m at *
    have hext : lineWidth s.arena a = 4 → 1 ≤ s.ext := by intro h; simp only [h, if_true] at hcw; omega
    have R1 : replay m (c - 1) 0 0 = some (a, x) := replay_congr hr1 (by omega) fun b _ hb => m2 b hb
    have shift : ∀ n p z, replay s.arena n d y = some (p, z) → p ≤ s.progSize → d ≤ p →
        replay m n a x = some (a + (p - d), x + (z - y)) := by
      intro n p z hn hp1 hp2
      apply replay_shift hn (by omega)
      intro j hj
      rw [m3 (a + j) (by omega) (by omega)]; congr 1; omega
    have R3 := shift _ _ _ hr2' le_rfl (by omega)
    have hPs : s.progSize = 2 * s.lines + 2 * s.ext := rfl
    refine ⟨m, a, _, _, hla, rfl, by omega, rfl, ?_, m1, m2, m3, m4, m5, hext, ?_, ?_, ?_⟩
    · have hz : (s.lines != 0 && s.cur != 0) = true := by simp; omega
      simp only [deleteLine, hz, require_true, Attempt.bind_ok, requireArena_ok hsize, hi, min_eq_left hc,
        State.lineAddr, hla, Attempt.pure_eq, deleteAt, (s.deleteWidth_cases a).2 (by omega), hm]
    · rw [show s.lines - 1 = (c - 1) + (s.lines - c) by omega, replay_add, R1, Option.bind_some, R3]
      simp only [Option.some.injEq, Prod.mk.injEq]
      split <;> rename_i h4 <;> simp only [h4, if_true, if_false] at hcw <;> omega
    · intro n hn
      have h := hr1
      rw [← Nat.add_sub_cancel' hn, replay_add] at h
      cases h3 : replay s.arena n 0 0 with
      | none => simp [h3] at h
      | some p =>
        obtain ⟨b, z⟩ := p
        simp only [h3, Option.bind_some] at h
        have := replay_some h
        rw [(replay_some h3).1, (replay_some (replay_congr h3 (by omega) fun b _ hb => m2 b (by omega))).1]
    · intro n b hn1 hn2 hb
      obtain ⟨k, rfl⟩ : ∃ k, n = (c - 1) + (1 + k) := ⟨n - c, by omega⟩
      rw [lineAddrFrom_add, (replay_some hr1).1, Attempt.bind_ok, lineAddrFrom_add, hq.1, Attempt.bind_ok] at hb
      have h := hr2'
      rw [← Nat.add_sub_cancel' (show k ≤ s.lines - c by omega), replay_add] at h
      cases h3 : replay s.arena k d y with
      | none => simp [h3] at h
      | some p =>
        obtain ⟨b', z⟩ := p
        simp only [h3, Option.bind_some] at h
        have hs' := replay_some h
        have hk := replay_some h3
        have : b' = b := by have := hk.1; rw [hb] at this; simpa using this.symm
        subst this
        have R := shift k b' z h3 (by omega) (by omega)
        refine ⟨by omega, ?_⟩
        rw [show (c - 1) + (1 + k) - 1 = (c - 1) + k by omega, lineAddrFrom_add, (replay_some R1).1,
            Attempt.bind_ok, (replay_some R).1]
        congr 1; omega

/-- The replay of lines whose last byte is zeroed: every line keeps its width. -/
theorem replay_zero_tail {m m' : Memory} {n a x : Nat} (h : replay m n 0 0 = some (a, x))
    (hlow : ∀ b, b + 2 < a → m'.get b = m.get b) (hz : ∀ b, a ≤ b + 2 → b < a → m'.get b = 0) :
    replay m' n 0 0 = some (a, x) := by
  cases n with
  | zero => exact h
  | succ k =>
    rw [replay_add] at h ⊢
    cases h1 : replay m k 0 0 with
    | none => simp [h1] at h
    | some q =>
      obtain ⟨c, y⟩ := q
      simp only [h1, Option.bind_some] at h
      obtain ⟨hd, hx⟩ := replay_one_some h
      have hca := (replay_some h).2.2.2 ((replay_some h1).2.2.2 (by decide))
      have hw : lineWidth m' c = lineWidth m c := by
        rcases lineWidth_cases m c with ⟨hb, h4⟩ | ⟨hb, h2⟩
        · exact lineWidth_congr fun j hj => hlow _ (by omega)
        · rcases lineWidth_cases m' c with ⟨hb', _⟩ | ⟨_, h2'⟩
          · have h0 := hz c (by omega) (by omega)
            have h1 := hz (c + 1) (by omega) (by omega)
            simp only [Memory.readN, Nat.add_zero, h0, h1] at hb'
            exact absurd hb' (by decide)
          · rw [h2, h2']
      have h24 : lineWidth m c = 2 ∨ lineWidth m c = 4 := by rcases lineWidth_cases m c with h | h <;> omega
      have h2 : 2 ≤ lineWidth m c := by omega
      rw [replay_congr h1 (by decide) fun b _ hb => hlow b (by omega), Option.bind_some, hd, hx]
      exact replay_one hw h24 (by omega)

/-- DELETE with the cursor on line `lines + 1`, whose address is `P` (R231, R238): nothing moves, the nybbles of
one line below `P` are zeroed, and the last line leaves the counts. The program stays sound. -/
theorem deleteLine_past {s : State} (hp : s.ProgramOk) (hl : s.lines ≠ 0) (hc : s.cur = s.lines + 1) :
    ∃ m w b e, w = s.deleteWidth s.progSize ∧ s.lineAddr s.lines = .ok b ∧
      e = (if lineWidth s.arena b = 4 then s.ext - 1 else s.ext) ∧
      deleteLine s = .ok (((((((s.setArena m).setLines (s.lines - 1)).setExt e).setCache LineCache.start).setCur
        s.lines).setDirty true).setFreeCtr (s.freeCtr + 1)) ∧
      (s.arena.wf = true → m.wf = true) ∧ (∀ c, s.progSize ≤ c + w → c < s.progSize → m.get c = 0) ∧
      (∀ c, c + w < s.progSize ∨ s.progSize ≤ c → m.get c = s.arena.get c) ∧
      replay m (s.lines - 1) 0 0 = some (2 * (s.lines - 1) + 2 * e, e) := by
  obtain ⟨b, x, hr1, hr2, hlb, _, _, hb⟩ := hp.split (n := s.lines - 1) (by omega)
  rw [show s.lines - (s.lines - 1) = 1 by omega] at hr2
  obtain ⟨hP, hx⟩ := replay_one_some hr2
  obtain ⟨a, _, _, hr, hla, _, _, _⟩ := hp.split le_rfl
  rw [Nat.sub_self] at hr
  simp only [replay, Option.some.injEq, Prod.mk.injEq] at hr
  rw [hr.1] at hla
  have hsize := hp.size_le
  have hz : (s.lines != 0 && s.lines + 1 != 0) = true := by simp; omega
  have hd : s.deletePoint = s.lines + 1 := by unfold State.deletePoint; rw [if_pos (by omega), hc]
  have hf : s.ctrAfterEdit = s.freeCtr + 1 := by unfold State.ctrAfterEdit; rw [if_neg (by omega)]
  have hw24 := (s.deleteWidth_cases s.progSize).1
  have hl24 : lineWidth s.arena b = 2 ∨ lineWidth s.arena b = 4 := by
    rcases lineWidth_cases s.arena b with h | h <;> omega
  have z := Memory.get_zero (m := s.arena) (a := s.progSize - s.deleteWidth s.progSize)
    (n := s.progSize - (s.progSize - s.deleteWidth s.progSize)) (by omega)
  generalize hm : s.arena.zero (s.progSize - s.deleteWidth s.progSize)
    (s.progSize - (s.progSize - s.deleteWidth s.progSize)) = m at z
  refine ⟨m, _, b, _, rfl, hlb, rfl, ?_, fun hw => hm ▸ Memory.wf_zero _ _ hw, fun c h1 h2 => ?_, fun c h => ?_, ?_⟩
  · simp only [deleteLine, hc, hz, require_true, Attempt.bind_ok, requireArena_ok hsize, hd,
      min_eq_right (Nat.le_succ s.lines), State.lineAddr, Nat.add_sub_cancel, hla, hlb, Attempt.pure_eq, deleteAt, hf,
      show s.progSize - s.deleteWidth s.progSize - s.progSize = 0 by omega, Memory.moveDown, hm]
  · rw [z, if_pos (by omega)]
  · rw [z, if_neg (by omega)]
  · have R : replay m (s.lines - 1) 0 0 = some (b, x) := by
      by_cases h : s.deleteWidth s.progSize ≤ lineWidth s.arena b
      · exact replay_congr hr1 (by decide) fun c _ hcb => by rw [z, if_neg (by omega)]
      · exact replay_zero_tail hr1 (fun c hcb => by rw [z, if_neg (by omega)])
          fun c h1 h2 => by rw [z, if_pos (by omega)]
    rw [R]
    simp only [Option.some.injEq, Prod.mk.injEq]
    split at hx <;> rename_i h4 <;> simp only [h4, if_true, if_false] <;> omega

end Sys2Proof.Machine
end

