-- ==== Sys2Proof/Laws/Registers.lean ====
section
/-! SUPPORT. What each register operation can answer (42_registers.md), and that a slot lies above the program. -/

namespace Sys2Proof.Machine

theorem State.checkReg_lt {s : State} {i : Option Nat} {n : Nat} (h : s.checkReg i = .ok n) : n < s.regCount := by
  rcases s.checkReg_cases i with ⟨m, -, hm, h'⟩ | h' <;> rw [h'] at h <;> cases h
  exact hm

/-- RREG writes the outputs only. -/
theorem readRegister_inv {s t : State} {i : Option Nat} (h : readRegister s i = .ok t) :
    ∃ v, t = s.setOut { Outputs.absent with r := some v } := by
  simp only [readRegister, Attempt.bind_eq_ok] at h
  obtain ⟨i, _, v, _, h⟩ := h
  generalize val (v % 2 ^ s.ws) = r at h
  split at h
  · simp only [Attempt.bind_eq_ok, Attempt.pure_eq, Except.ok.injEq] at h
    obtain ⟨_, _, h⟩ := h; exact ⟨_, h.symm⟩
  · simp only [Attempt.pure_eq, Except.ok.injEq] at h
    exact ⟨_, h.symm⟩

theorem State.slotWrite_inv {s t : State} {i v} (h : s.slotWrite i v = .ok t) :
    t = s.setArena (s.arena.writeN (s.slotAddr i) s.npr v) := by
  simp only [State.slotWrite, Attempt.bind_eq_ok, Attempt.pure_eq, Except.ok.injEq] at h
  obtain ⟨m, h1, rfl⟩ := h
  rcases memWrite_cases s.arena (s.slotAddr i) s.npr v with ⟨_, h'⟩ | ⟨_, h'⟩ <;> rw [h'] at h1 <;> cases h1
  rfl

/-- WREG writes one slot of a register that exists. -/
theorem writeRegister_inv {s t : State} {i : Option Nat} (h : writeRegister s i = .ok t) :
    ∃ n v, n < s.regCount ∧ t = (s.setArena (s.arena.writeN (s.slotAddr n) s.npr v)).setDirty true := by
  simp only [writeRegister, Attempt.bind_eq_ok, Attempt.pure_eq, Except.ok.injEq] at h
  obtain ⟨i, hi, t', h, rfl⟩ := h
  exact ⟨i, s.xWord, State.checkReg_lt hi, by rw [State.slotWrite_inv h]⟩

/-- A slot write leaves the program as it was. -/
theorem slotWrite_below {s : State} {n v : Nat} (hP : s.progSize ≤ arenaSize) (hn : n < s.regCount) :
    ∀ b, b < s.progSize → (s.arena.writeN (s.slotAddr n) s.npr v).get b = s.arena.get b := by
  intro b hb
  apply Memory.get_writeN_outside
  have := State.slot_bounds hn
  left; simp only [State.slotAddr]; omega

/-- ISZI and DSZI write I and skip or not. -/
theorem stepIndex_inv {s t : State} {k : Int} (h : stepIndex k s = .ok t) :
    ∃ i c, t = ((s.setIreg i).setDirty true).setCur c ∧ (c = s.cur ∨ c = s.inc s.cur) := by
  simp only [stepIndex, Ending.of_eq_ok] at h
  have key : ∀ i b, ∃ i' c, (((s.setIreg i).setDirty true).doNextIf b) = ((s.setIreg i').setDirty true).setCur c ∧
      (c = s.cur ∨ c = s.inc s.cur) := by
    intro i b; rw [State.doNextIf_eq]; refine ⟨i, _, rfl, ?_⟩; cases b
    · right; rfl
    · left; rfl
  split at h
  · simp only [Attempt.bind_eq_ok, Attempt.pure_eq, Except.ok.injEq] at h
    obtain ⟨_, _, rfl⟩ := h; exact key _ _
  · simp only [Attempt.pure_eq, Except.ok.injEq] at h
    subst h; exact key _ _

/-- ISZIND and DSZIND write one slot of a register that exists and skip or not. -/
theorem stepIndirect_inv {s t : State} {k : Int} (h : stepIndirect k s = .ok t) :
    ∃ n v c, n < s.regCount ∧
      t = ((s.setArena (s.arena.writeN (s.slotAddr n) s.npr v)).setDirty true).setCur c ∧
      (c = s.cur ∨ c = s.inc s.cur) := by
  simp only [stepIndirect, Ending.of_eq_ok, Attempt.bind_eq_ok] at h
  obtain ⟨i, _, n, hi, v, _, h⟩ := h
  have key : ∀ a n v b, ∃ c, (((s.setArena (s.arena.writeN a n v)).setDirty true).doNextIf b) =
      ((s.setArena (s.arena.writeN a n v)).setDirty true).setCur c ∧ (c = s.cur ∨ c = s.inc s.cur) := by
    intro a n v b; rw [State.doNextIf_eq]; refine ⟨_, rfl, ?_⟩; cases b
    · right; rfl
    · left; rfl
  split at h
  · simp only [Attempt.bind_eq_ok, Attempt.pure_eq, Except.ok.injEq] at h
    obtain ⟨_, _, t', h1, rfl⟩ := h; rw [State.slotWrite_inv h1]
    obtain ⟨c, e, hc⟩ := key (s.slotAddr n) s.npr _ _
    exact ⟨n, _, c, State.checkReg_lt hi, e, hc⟩
  · simp only [Attempt.bind_eq_ok, Attempt.pure_eq, Except.ok.injEq] at h
    obtain ⟨t', h1, rfl⟩ := h; rw [State.slotWrite_inv h1]
    obtain ⟨c, e, hc⟩ := key (s.slotAddr n) s.npr _ _
    exact ⟨n, _, c, State.checkReg_lt hi, e, hc⟩

/-- INC and DEC write the outputs only. -/
theorem stepX_inv {s t : State} {k : Int} (h : stepX k s = .ok t) :
    ∃ v, t = s.setOut { Outputs.absent with r := some v } := by
  simp only [stepX, Ending.of_eq_ok] at h
  split at h
  · simp only [Attempt.bind_eq_ok, Attempt.pure_eq, Except.ok.injEq] at h
    obtain ⟨_, _, h⟩ := h; exact ⟨_, h.symm⟩
  · simp only [Attempt.pure_eq, Except.ok.injEq] at h
    exact ⟨_, h.symm⟩

end Sys2Proof.Machine
end

