-- ==== Sys2Proof/Tests/Slice0.lean ====
section
/-! SUPPORT. The model's own tests. The ill-formed terms the checks refuse; words written out from the encodings of
30_encoding.md; single steps with the results of 95_test_vectors.md; and, for each statement with hypotheses, a
concrete state that meets them. -/

open Sys2Proof Sys2Proof.Machine

namespace Sys2Proof.Tests

-- One theorem after the other: each of these waits for the kernel, and in one text with the whole package too many
-- threads would wait at once.
set_option Elab.async false

/-! ### States -/

/-- The reset state in a mode at a word size, with operands on the ports. -/
def wordState (m : Mode) (w : Nat) (x y : Value) (n : Int := 0) : State :=
  { State.reset with mode := m, ws := w, inp := ⟨0, x, y, n, 0, false⟩ }

/-- The reset state in FLOAT mode, with operands on the ports. -/
def floatState (x y : Value) : State := wordState .float 56 x y

/-- The program LBL 1, OP 0x050, LBL 2, LBL 1 of 95_test_vectors.md (prog A), with the cursor on a line. -/
def progA (cur : Nat) : State :=
  { State.reset with arena := [(1, 1), (2, 5), (5, 2), (7, 1)], lines := 4, cur := cur }

/-- The program LBL 1, OP 0x1FE (V-PM 1), whose second line is extended, with the cursor on a line. -/
def progX (cur : Nat) : State :=
  { State.reset with
    arena := [(1, 1), (2, 15), (3, 15), (4, 15), (5, 15)], lines := 2, ext := 1, cur := cur }

/-- A one-line program of a byte below 0xFF with a high nybble, the cursor before it. -/
def oneLine (hi lo : Nybble) : State :=
  { State.reset with arena := if lo = 0 then [(0, hi)] else [(0, hi), (1, lo)], lines := 1 }

/-- 203 lines LBL 0: the program fills the arena. -/
def fullState : State := { State.reset with lines := 203 }

/-- The same, with the cursor on a line. -/
def fullAt (cur : Nat) : State := { fullState with cur := cur }

/-- 202 lines LBL 0: room for two nybbles more. -/
def almostFull (cur : Nat) : State := { State.reset with lines := 202, cur := cur }

/-- A step answers a next state of which `p` holds. -/
def ends (o : Host.Outcome State Fault Refusal) (p : State → Bool) : Bool :=
  match o with
  | .next t => p t
  | .fault _ => false
  | .refused _ => false

/-- One command on a state, its operands on the ports, ends with `p`. -/
def runs (s : State) (cmd : CmdWord) (p : State → Bool) (x : Value := 0) (y : Value := 0) (n : Int := 0)
    (d : Double := 0) : Bool :=
  ends (step { s with pending := [.command ⟨cmd, x, y, n, d, false⟩] }) p

theorem ends_next {o : Host.Outcome State Fault Refusal} {p : State → Bool} (h : ends o p = true) :
    ∃ t, o = .next t ∧ p t = true := by
  cases o with
  | next t => exact ⟨t, rfl, h⟩
  | fault f => cases h
  | refused r => cases h

/-! ### Ill-formed terms -/

theorem test_wf_refuses_low_other_byte : (Instr.opPM1 0x32).wf = false := by decide

theorem test_wf_refuses_label_byte : (Instr.opPM1 0x00).wf = false := by decide

theorem test_wf_refuses_escape_byte : (Instr.opPM1 0xFF).wf = false := by decide

/-! ### Decoding: words written out from 30_encoding.md R72, `op` in bits [31:26] -/

theorem test_decode_arith :
    decodeCommand 0b00000100000000000000000000000000 = .ok .add ∧
    decodeCommand 0b00001000000000000000000000000000 = .ok .sub ∧
    decodeCommand 0b00001100000000000000000000000000 = .ok .neg ∧
    decodeCommand 0b00010000000000000000000000000000 = .ok .cmp ∧
    decodeCommand 0b00010100000000000000000000000000 = .ok .inc ∧
    decodeCommand 0b00011000000000000000000000000000 = .ok .dec ∧
    decodeCommand 0b00011100000000000000000000000000 = .ok .isz ∧
    decodeCommand 0b00100000000000000000000000000000 = .ok .store ∧
    decodeCommand 0b00100100000000000000000000000000 = .ok .toint ∧
    decodeCommand 0b00101000000000000000000000000000 = .ok .trunc := by decide +kernel

theorem test_decode_settings :
    decodeCommand 0b00101100000000000000000001000000 = .ok (.setws 64) ∧
    decodeCommand 0b00110000000000000000000000000011 = .ok (.setmode .float) ∧
    decodeCommand 0b00110000000000000000000000000001 = .ok (.setmode .ones) ∧
    decodeCommand 0b00110100000000000000000000000010 = .ok (.wflag .c true) ∧
    decodeCommand 0b00110100000000000000000000000001 = .ok (.wflag .g false) ∧
    decodeCommand 0b00111000000000000000000000000001 = .ok (.skipflag .g) := by decide +kernel

theorem test_decode_float :
    decodeCommand 0b01000000000000000000000000000000 = .ok .fenc ∧
    decodeCommand 0b01000100000000000000000000000000 = .ok .fdec ∧
    decodeCommand 0b01001000000000000000000000000000 = .ok .fexp ∧
    decodeCommand 0b01001100000000000000000000000000 = .ok .fchk := by decide +kernel

theorem test_decode_registers :
    decodeCommand 0b01100000000000000000000111111111 = .ok (.rreg 511) ∧
    decodeCommand 0b01100010000000000000000000000000 = .ok .rregI ∧
    decodeCommand 0b01100100000000000000000000000001 = .ok (.wreg 1) ∧
    decodeCommand 0b01100110000000000000000000000000 = .ok .wregI ∧
    decodeCommand 0b01101000000000000000000000000000 = .ok .ri ∧
    decodeCommand 0b01101100000000000000000000000000 = .ok .wi ∧
    decodeCommand 0b01110000000000000000000000000000 = .ok .clrreg ∧
    decodeCommand 0b01110100000000000000000000000000 = .ok .iszi ∧
    decodeCommand 0b01111000000000000000000000000000 = .ok .dszi ∧
    decodeCommand 0b01111100000000000000000000000000 = .ok .iszind ∧
    decodeCommand 0b10000000000000000000000000000000 = .ok .dszind := by decide +kernel

theorem test_decode_program :
    decodeCommand 0b10010000000000000000000000000000 = .ok .preset ∧
    decodeCommand 0b10010100000000000000000111111110 = .ok (.insert 0x1FE) ∧
    decodeCommand 0b10011000000000000000000000000000 = .ok .delete ∧
    decodeCommand 0b10011100000000000000000000000011 = .ok (.setline 3) ∧
    decodeCommand 0b10100000000000000000000000000010 = .ok (.readline 2) := by decide +kernel

theorem test_decode_control :
    decodeCommand 0b10110000000000000000000000000000 = .ok .step ∧
    decodeCommand 0b10110100000000000000000000000001 = .ok (.skipif true) ∧
    decodeCommand 0b10111000000000000000000000001111 = .ok (.goto 15) ∧
    decodeCommand 0b10111010000000000000000000000000 = .ok .gotoI ∧
    decodeCommand 0b10111100000000000000000000000001 = .ok (.gosub 1) ∧
    decodeCommand 0b10111110000000000000000000000000 = .ok .gosubI ∧
    decodeCommand 0b11000000000000000000000000000000 = .ok .rtn ∧
    decodeCommand 0b11000100000000000000000000000000 = .ok .run ∧
    decodeCommand 0b11001000000000000000000000000000 = .ok .runstep := by decide +kernel

/-- The stored bytes of R78, and of R75 for the extended opcodes. -/
theorem test_decode_stored :
    decode (.line [0b00000000]) = .ok (.lblN 0) ∧
    decode (.line [0b00011111]) = .ok (.gtoN 15) ∧
    decode (.line [0b00100000]) = .ok (.gsbN 0) ∧
    decode (.line [0b00110000]) = .ok .rtnStored ∧
    decode (.line [0b00110001]) = .ok .gtoStoredI ∧
    decode (.line [0b00110010]) = .ok .gsbStoredI ∧
    decode (.line [0b00110011]) = .ok (.opPM1 0x33) ∧
    decode (.line [0b11111110]) = .ok (.opPM1 0xFE) ∧
    decode (.line [0b11111111, 0b00000000]) = .ok (.opPM2 0x00) ∧
    decode (.line [0b11111111, 0b11111111]) = .ok (.opPM2 0xFF) := by decide +kernel

/-- The words V-ENC lists as reserved (R73). -/
theorem test_decode_reserved :
    ([0x00000000, 0x3C000000, 0x50000000, 0xFC000000, 0x04000001, 0x2C000080, 0x62000001, 0x60000200, 0xBA000003,
      0xB8000010] : List CmdWord).all (fun w => (decodeCommand w).toOption.isNone) = true := by decide +kernel

theorem test_decode_cut_line :
    decode (.line []) = .error .truncated ∧ decode (.line [0xFF]) = .error .truncated ∧
    decode (.line [0x30, 0x30]) = .error .trailing := by decide +kernel

/-- The table's numbering: a PM2 row's escape byte is its bits [15:8]. -/
theorem test_decode_table_word :
    decodeTableWord 8 0x12 = some (.gtoN 2) ∧ decodeTableWord 16 0xFF41 = some (.opPM2 0x41) ∧
    decodeTableWord 32 0x2C000004 = some (.setws 4) := by decide +kernel

/-! ### Placing an instruction -/

theorem test_place_command :
    ends (step (State.reset.withFetchWord 32 0x2C000004)) (fun t => t.ws == 4) = true := by decide +kernel

theorem test_place_line :
    ends (step (State.reset.withFetchWord 16 0xFF41))
      (fun t => t.cur == 1 && t.out.opc == some 0x140 && t.out.dispatch == some true) = true := by decide +kernel

/-! ### Arithmetic (95_test_vectors.md V-INT, V-SM) -/

/-- ADD of 0xF and 0x1 at four bits, UNS: V-INT. -/
theorem test_add_uns_carries :
    runs (wordState .uns 4 0 0) 0x04000000 (fun t => t.out.r == some 0 && t.c && t.g) 0xF 0x1 = true := by
  decide +kernel

/-- ADD of 0x8 and 0x8 at four bits, ONES: the carry is added back. -/
theorem test_add_ones_end_around :
    runs (wordState .ones 4 0 0) 0x04000000 (fun t => t.out.r == some 1 && t.c && t.g) 0x8 0x8 = true := by
  decide +kernel

/-- SUB with X = 7, Y = 1 at four bits, TWOS. -/
theorem test_sub_twos :
    runs (wordState .twos 4 0 0) 0x08000000 (fun t => t.out.r == some 0xA && !t.c && !t.g) 0x7 0x1 = true := by
  decide +kernel

/-- SUB with X = 5, Y = 3 at four bits, UNS: it borrows. -/
theorem test_sub_uns_borrows :
    runs (wordState .uns 4 0 0) 0x08000000 (fun t => t.out.r == some 0xE && t.c && t.g) 0x5 0x3 = true := by
  decide +kernel

/-- NEG of the least number, TWOS: it stays, and G is set. -/
theorem test_neg_twos_least :
    runs (wordState .twos 4 0 0) 0x0C000000 (fun t => t.out.r == some 8 && t.g) 0x8 = true := by decide +kernel

/-- NEG of 4.2 (E10). -/
theorem test_neg_float :
    runs (floatState 0 0) 0x0C000000 (fun t => t.out.r == some 0x94200000000000) 0x04200000000000 = true := by
  decide +kernel

/-- CMP of -0 and 0, ONES: equal. -/
theorem test_cmp_ones_zeros :
    runs (wordState .ones 4 0 0) 0x10000000 (fun t => t.out.ord == some .eq) 0x0 0xF = true := by decide +kernel

/-- CMP of -0.0015 in Y and 4.2 in X. -/
theorem test_cmp_float :
    runs (floatState 0 0) 0x10000000 (fun t => t.out.ord == some .gt) 0x04200000000000 0x91500000000997 = true := by
  decide +kernel

/-- INC of the greatest number, TWOS. -/
theorem test_inc_twos_wraps :
    runs (wordState .twos 4 0 0) 0x14000000 (fun t => t.out.r == some 8) 0x7 = true := by decide +kernel

/-- INC of 4.2. -/
theorem test_inc_float :
    runs (floatState 0 0) 0x14000000 (fun t => t.out.r == some 0x05200000000000) 0x04200000000000 = true := by
  decide +kernel

/-- DEC of -7, ONES: it wraps to 7. -/
theorem test_dec_ones_wraps :
    runs (wordState .ones 4 0 0) 0x18000000 (fun t => t.out.r == some 7) 0x8 = true := by decide +kernel

/-- DEC of 0.5. -/
theorem test_dec_float :
    runs (floatState 0 0) 0x18000000 (fun t => t.out.r == some 0x95000000000999) 0x05000000000999 = true := by
  decide +kernel

/-- ISZ masks its operand. -/
theorem test_isz_masks :
    runs (wordState .twos 4 0 0) 0x1C000000 (fun t => t.out.z == some true) 0x10 = true := by decide +kernel

/-- STORE of -9 at four bits, TWOS. -/
theorem test_store_twos_low :
    runs (wordState .twos 4 0 0) 0x20000000 (fun t => t.out.r == some 7 && t.g) 0 0 (-9) = true := by decide +kernel

/-- STORE of -7 at four bits, ONES. -/
theorem test_store_ones :
    runs (wordState .ones 4 0 0) 0x20000000 (fun t => t.out.r == some 8 && !t.g) 0 0 (-7) = true := by decide +kernel

/-- TOINT of 0xE at four bits, ONES. -/
theorem test_toint_ones :
    runs (wordState .ones 4 0 0) 0x24000000 (fun t => t.out.int == some (-1)) 0xE = true := by decide +kernel

/-- TRUNC at four bits. -/
theorem test_trunc :
    runs (wordState .twos 4 0 0) 0x28000000 (fun t => t.out.r == some 4) 0x1234 = true := by decide +kernel

theorem test_setws_bounds :
    runs State.reset 0x2C000040 (fun t => t.ws == 64) = true ∧
    runs State.reset 0x2C000041 (fun t => t.out.err == some .bitIndex && t.ws == 16) = true := by decide +kernel

theorem test_setmode_float_keeps_width_after :
    runs State.reset 0x30000003 (fun t => t.mode == .float && t.ws == 56) = true ∧
    runs (floatState 0 0) 0x30000002 (fun t => t.mode == .twos && t.ws == 56) = true := by decide +kernel

theorem test_wflag_c :
    runs State.reset 0x34000002 (fun t => t.c && !t.g) = true := by decide +kernel

/-- SKIPFLAG C with C clear skips (V-CF 29). -/
theorem test_skipflag_skips :
    runs (progA 1) 0x38000000 (fun t => t.cur == 2) = true := by decide +kernel

/-! ### Float codec (95_test_vectors.md E1, V-BCD) -/

/-- FENC of 1/3. -/
theorem test_fenc_third :
    runs State.reset 0x40000000 (fun t => t.out.r == some 0x03333333333999) 0 0 0 0x3FD5555555555555 = true := by
  decide +kernel

/-- FENC of minus infinity. -/
theorem test_fenc_neg_inf :
    runs State.reset 0x40000000 (fun t => t.out.r == some 0x99999999999099) 0 0 0 0xFFF0000000000000 = true := by
  decide +kernel

/-- FDEC of the unnormalised 0.1. -/
theorem test_fdec_tenth :
    runs State.reset 0x44000000 (fun t => t.out.dblOut == some 0x3FB999999999999A) 0x00100000000000 = true := by
  decide +kernel

/-- FDEC of a digit above 9. -/
theorem test_fdec_bad_digit :
    runs State.reset 0x44000000 (fun t => t.out.err == some .badFloat) 0x0A000000000000 = true := by decide +kernel

/-- FEXP of the exponent field 901. -/
theorem test_fexp_lowest :
    runs State.reset 0x48000000 (fun t => t.out.exp == some (-99)) 0x901 = true := by decide +kernel

/-- FCHK of the sign nybble 1 over a non-zero mantissa. -/
theorem test_fchk_bad_sign :
    runs State.reset 0x4C000000 (fun t => t.out.err == some .badFloat) 0x12000000000000 = true := by decide +kernel

/-! ### Registers (95_test_vectors.md V-REG) -/

theorem test_rreg_last_and_past :
    runs State.reset 0x60000064 (fun t => t.out.r == some 0) = true ∧
    runs State.reset 0x60000065 (fun t => t.out.err == some .regAddr) = true := by decide +kernel

/-- WREG writes its register's slot at the top of the arena, most significant nybble first (V-REG 5). -/
theorem test_wreg_masks :
    runs State.reset 0x64000000
      (fun t => t.arena == [(402, 2), (403, 3), (404, 4), (405, 5)] && t.dirty) 0x12345 = true := by decide +kernel

/-- RREG (i) with I = -1 names no register. -/
theorem test_rregI_negative :
    runs { State.reset with ireg := 0xFFFFFFFFFFFFFFFFF } 0x62000000
      (fun t => t.out.err == some .regAddr) = true := by decide +kernel

/-- WREG (i) through the float 2.5 writes register 2 (V-REG 17). -/
theorem test_wregI_float :
    runs { (floatState 0 0) with ireg := 0x02500000000000 } 0x66000000
      (fun t => t.arena == [(365, 1)]) 0x01000000000000 = true := by decide +kernel

/-- RI masks I to the word (V-REG 21). -/
theorem test_ri_masks :
    runs { State.reset with ireg := 0xFFFFFFFFFFFFFFFFF } 0x68000000 (fun t => t.out.r == some 0xFFFF) = true := by
  decide +kernel

/-- WI extends the sign (V-REG 22), and keeps no more than 56 bits in FLOAT mode (V-REG 26). -/
theorem test_wi_extends :
    runs (wordState .twos 8 0 0) 0x6C000000 (fun t => t.ireg == 0xFFFFFFFFFFFFFFF80) 0x80 = true := by decide +kernel

theorem test_wi_float :
    runs (floatState 0 0) 0x6C000000 (fun t => t.ireg == 1) 0x1FF00000000000001 = true := by decide +kernel

/-- CLRREG spares the program (V-REG 27). -/
theorem test_clrreg :
    runs { (progX 0) with arena := (progX 0).arena ++ [(6, 7), (405, 9)], ireg := 5 } 0x70000000
      (fun t => t.arena == (progX 0).arena && t.ireg == 0) = true := by decide +kernel

/-- ISZI of -1 gives 0 and skips (V-REG 29). -/
theorem test_iszi_skips :
    runs { (progA 1) with ireg := 0xFFFFFFFFFFFFFFFFF } 0x74000000 (fun t => t.ireg == 0 && t.cur == 2) = true := by
  decide +kernel

/-- DSZI of 0, ONES, gives -1 and does not skip (V-REG 32). -/
theorem test_dszi_ones :
    runs { (progA 1) with mode := .ones } 0x78000000
      (fun t => t.ireg == 0xFFFFFFFFFFFFFFFFE && t.cur == 1) = true := by decide +kernel

/-- ISZIND steps register 2 from 0xE to 0xF (V-REG 34). -/
theorem test_iszind :
    runs { (progA 1) with ws := 4, ireg := 2, arena := (progA 1).arena ++ [(403, 0xE)] } 0x7C000000
      (fun t => t.arena == (progA 1).arena ++ [(403, 0xF)] && t.cur == 1) = true := by decide +kernel

/-- DSZIND steps register 0 from 1 to 0 and skips (V-REG 36). -/
theorem test_dszind_skips :
    runs { (progA 1) with mode := .uns, ws := 4, arena := (progA 1).arena ++ [(405, 1)] } 0x80000000
      (fun t => t.arena == (progA 1).arena && t.cur == 2) = true := by decide +kernel

/-! ### Program memory (95_test_vectors.md V-PM) -/

/-- PRESET (V-PM 13). -/
theorem test_preset :
    runs (progX 2) 0x90000000
      (fun t => t.arena == [] && t.lines == 0 && t.ext == 0 && t.cur == 0 && t.rsp == -1) = true := by decide +kernel

/-- INSERT 0xFF on line 2 is extended (V-PM 5). -/
theorem test_insert_extended :
    runs (progX 1) 0x940000FF
      (fun t => t.arena == [(1, 1), (2, 15), (3, 15), (6, 15), (7, 15), (8, 15), (9, 15)] &&
        t.lines == 3 && t.ext == 2 && t.cur == 2) = true := by decide +kernel

/-- INSERT into a full arena (V-PM 10). -/
theorem test_insert_full :
    runs fullState 0x94000000 (fun t => t.out.err == some .progAddr && t.lines == 203) = true := by decide +kernel

/-- DELETE on line `lines + 1`, by hand from R238 with `a = P = 6` and a width of 2: nothing moves, the nybbles
4 and 5 are zeroed, and by R29 no extended line is left. -/
theorem test_delete_past_end :
    runs (progX 3) 0x98000000
      (fun t => t.arena == [(1, 1), (2, 15), (3, 15)] && t.lines == 1 && t.ext == 0 && t.cur == 2) = true := by
  decide +kernel

/-- DELETE of the extended line, and DELETE at line 0 (V-PM 3, 9). -/
theorem test_delete :
    runs (progX 2) 0x98000000
      (fun t => t.arena == [(1, 1)] && t.lines == 1 && t.ext == 0 && t.cur == 1) = true ∧
    runs (progX 0) 0x98000000 (fun t => t.out.err == some .progAddr && t.lines == 2) = true := by decide +kernel

/-- SETLINE past the last line (V-PM 6). -/
theorem test_setline_bounds :
    runs (progX 0) 0x9C000002 (fun t => t.cur == 2) = true ∧
    runs (progX 0) 0x9C000003 (fun t => t.out.err == some .progAddr && t.cur == 0) = true := by decide +kernel

/-- READLINE of the extended line (V-PM 2). -/
theorem test_readline_extended :
    runs (progX 0) 0xA0000002 (fun t => t.out.opc == some 0x1FE) = true := by decide +kernel

/-! ### Control flow (95_test_vectors.md V-CF) -/

/-- STEP from the last line (V-CF 23). -/
theorem test_step_wraps :
    runs (progA 4) 0xB0000000 (fun t => t.cur == 0) = true := by decide +kernel

/-- SKIPIF 0 and 1 (V-CF 26, 28). -/
theorem test_skipif :
    runs (progA 1) 0xB4000000 (fun t => t.cur == 2) = true ∧
    runs (progA 1) 0xB4000001 (fun t => t.cur == 1) = true := by decide +kernel

/-- GOTO 1 from line 2 finds line 4 first (V-CF 1). -/
theorem test_goto_scans_forward :
    runs (progA 2) 0xB8000001 (fun t => t.cur == 4) = true := by decide +kernel

/-- GOTO 5, which no line carries (V-CF 4). -/
theorem test_goto_no_label :
    runs (progA 1) 0xB8000005 (fun t => t.out.err == some .progAddr && t.cur == 1) = true := by decide +kernel

/-- GOTO I through 2.5 (V-CF 10). -/
theorem test_gotoI_float :
    runs { (progA 2) with mode := .float, ws := 56, ireg := 0x02500000000000 } 0xBA000000
      (fun t => t.cur == 3) = true := by decide +kernel

/-- GOTO I through -0.5 (V-CF 12). -/
theorem test_gotoI_negative_fraction :
    runs { (progA 2) with mode := .float, ws := 56, ireg := 0x95000000000999 } 0xBA000000
      (fun t => t.out.err == some .progAddr) = true := by decide +kernel

/-- GOSUB 1 from line 3 at level 0 records line 3 (V-CF 15). -/
theorem test_gosub_records :
    runs { (progA 3) with rsp := 0 } 0xBC000001
      (fun t => t.rsp == 1 && t.rs == [0, 3, 0, 0] && t.cur == 4) = true := by decide +kernel

/-- GOSUB 9 keeps its push (V-CF 16). -/
theorem test_gosub_keeps_push :
    runs { (progA 2) with rsp := 0 } 0xBC000009
      (fun t => t.out.err == some .progAddr && t.rsp == 1 && t.rs == [0, 2, 0, 0] && t.cur == 2) = true := by
  decide +kernel

/-- GOSUB I on a full stack (V-CF 17), with an I that is no legal float too: the stack check comes first (R268, R306). -/
theorem test_gosubI_full_stack :
    runs { (progA 2) with rsp := 3, ireg := 9 } 0xBE000000
      (fun t => t.out.err == some .stackOverflow && t.rsp == 3) = true ∧
    runs { (floatState 0 0) with rsp := 3, ireg := 0x0A000000000000 } 0xBE000000
      (fun t => t.out.err == some .stackOverflow && t.rsp == 3) = true := by decide +kernel

/-- RTN at levels 1 and 0 (V-CF 18, 19). Vector 18 starts from the reset state, where `lines = 0`, and gives `cur = 3`. -/
theorem test_rtn :
    runs { State.reset with rsp := 1, rs := [0, 3, 0, 0] } 0xC0000000
      (fun t => t.cur == 3 && t.rsp == 0 && t.out.halt == none) = true ∧
    runs { (progA 2) with rsp := 0 } 0xC0000000
      (fun t => t.cur == 0 && t.rsp == -1 && t.out.halt == some true) = true := by decide +kernel

/-- RUN (V-CF 21, 22). -/
theorem test_run :
    runs State.reset 0xC4000000 (fun t => t.rsp == 0) = true ∧
    runs { State.reset with rsp := 2 } 0xC4000000 (fun t => t.rsp == 2) = true := by decide +kernel

/-- RUNSTEP dispatches line 2 (V-CF 32). -/
theorem test_runstep_dispatches :
    runs (progA 1) 0xC8000000
      (fun t => t.cur == 2 && t.out.opc == some 0x050 && t.out.dispatch == some true) = true := by decide +kernel

/-- RUNSTEP keeps its increment when the line fails (V-CF 36). -/
theorem test_runstep_keeps_increment :
    runs (oneLine 1 7) 0xC8000000 (fun t => t.out.err == some .progAddr && t.cur == 1) = true := by decide +kernel

/-! ### Stored lines: the instruction alone, at the line the cursor is on (R272) -/

theorem test_line_label :
    ends (exec (.lblN 1) (progA 1)) (fun t => t == progA 1) = true := by decide +kernel

/-- GTO 2 on line 4 of prog A scans lines 4, 1, 2, 3 (R266). -/
theorem test_line_gto :
    ends (exec (.gtoN 2) (progA 4)) (fun t => t.cur == 3) = true := by decide +kernel

/-- GSB 2 records the line it stands on (R268). -/
theorem test_line_gsb :
    ends (exec (.gsbN 2) { (progA 1) with rsp := 0 })
      (fun t => t.cur == 3 && t.rsp == 1 && t.rs == [0, 1, 0, 0]) = true := by decide +kernel

/-- RTN at level 0 halts (V-CF 19). -/
theorem test_line_rtn :
    ends (exec .rtnStored { (progA 4) with rsp := 0 })
      (fun t => t.cur == 0 && t.rsp == -1 && t.out.halt == some true) = true := by decide +kernel

theorem test_line_gtoI :
    ends (exec .gtoStoredI { (progA 4) with ireg := 2 }) (fun t => t.cur == 3) = true := by decide +kernel

theorem test_line_gsbI :
    ends (exec .gsbStoredI { (progA 1) with ireg := 2 }) (fun t => t.cur == 3 && t.rsp == 0) = true := by
  decide +kernel

theorem test_line_other :
    ends (exec (.opPM1 0x50) (progA 2)) (fun t => t.out.opc == some 0x50 && t.cur == 2) = true := by decide +kernel

/-- P3, line 7: the bytes FF FF are opcode 0x1FE. -/
theorem test_line_extended :
    ends (exec (.opPM2 0xFF) (progX 2)) (fun t => t.out.opc == some 0x1FE) = true := by decide +kernel

/-! ### Persistence (95_test_vectors.md V-RST) -/

/-- The P1 program as an image (V-RST 6). -/
def imageP1 : Image where
  storage := ['0', '0', '4', '1', '1', '0', '3', '0'] ++ List.replicate 398 '0'
  lines := .int 4
  currentLine := .int 2
  returnStack := some [.int 0, .int 0, .int 0, .int 0]
  returnStackPos := .int 0
  index := ['3']

theorem test_load_loads :
    ends (step { State.reset with pending := [.load imageP1] })
      (fun t => t.out.load == some .loaded && t.arena == [(2, 4), (3, 1), (4, 1), (6, 3)] && t.lines == 4 &&
        t.ext == 0 && t.cur == 2 && t.rsp == 0 && t.ireg == 3 && !t.dirty) = true := by decide +kernel

/-- A stack entry of 250 rolls the program back (V-RST 13). -/
theorem test_load_rolls_back :
    ends (step { State.reset with
        pending := [.load { imageP1 with returnStack := some [.int 0, .int 250, .int 0, .int 0] }] })
      (fun t => t.out.load == some .rolledBack && t.lines == 0 && t.rsp == -1 && t.dirty) = true := by decide +kernel

/-- SAVE of a fresh block (V-RST 2). -/
theorem test_save_fresh :
    ends (step { State.reset with pending := [.save] })
      (fun t => t.out.image == some ⟨List.replicate 406 '0', .int 0, .int 0,
        some [.int 0, .int 0, .int 0, .int 0], .int (-1), ['0']⟩) = true := by decide +kernel

/-- Value JSON (V-RST 16, 17); and the model's own choice for the empty string and the case of a written one
(notes/assumptions/13.md). -/
theorem test_value_json :
    valueOfJson (2 ^ 64 - 1) [] = none ∧ valueToJson 0xA5 = ['A', '5'] ∧
    valueOfJson (2 ^ 64 - 1) ['1', 'G'] = none ∧
    valueOfJson (2 ^ 64 - 1) ('1' :: List.replicate 16 '0') = none ∧
    valueOfJson (2 ^ 128 - 1) ('1' :: List.replicate 16 '0') = some (2 ^ 64) := by decide +kernel

/-! ### Witnesses: for each statement with hypotheses, concrete states and operands that meet them, clause by
clause and at the ends of their ranges -/

/-- A step answers a next state. -/
def isNext (o : Host.Outcome State Fault Refusal) : Bool := ends o fun _ => true

theorem isNext_iff {o : Host.Outcome State Fault Refusal} (h : isNext o = true) : ∃ t, o = .next t :=
  (ends_next h).imp fun _ h => h.1

/-- A step faults so. -/
def faults (o : Host.Outcome State Fault Refusal) (f : Fault) : Bool :=
  match o with
  | .next _ => false
  | .fault g => g == f
  | .refused _ => false

theorem faults_iff {o : Host.Outcome State Fault Refusal} {f : Fault} (h : faults o f = true) : o = .fault f := by
  cases o with
  | next t => cases h
  | fault g => rw [show g = f by simpa [faults] using h]
  | refused r => cases h

theorem ends_refused {o : Host.Outcome State Fault Refusal} {r : RefuseReason}
    (h : ends o (fun t => t.out.refused == some r) = true) : ∃ t, o = .next t ∧ t.out.refused = some r :=
  (ends_next h).imp fun _ h => ⟨h.1, eq_of_beq h.2⟩

theorem ends_err {o : Host.Outcome State Fault Refusal} {c : ErrCode}
    (h : ends o (fun t => t.out.err == some c) = true) : ∃ t, o = .next t ∧ t.out.err = some c :=
  (ends_next h).imp fun _ h => ⟨h.1, eq_of_beq h.2⟩

/-- A block on which the one Value `v` is a matrix descriptor, in FLOAT mode. -/
def matrixState (v x y i : Value) : State :=
  { floatState x y with params := { Params.default with matrixDesc := [v] }, ireg := i }

/-- One stored line, and a saved line 3 that RTN, pending, returns to. -/
def staleState : State :=
  { State.reset with
    lines := 1, rs := [0, 3, 0, 0], rsp := 1, pending := [.command ⟨0xC0000000, 0, 0, 0, 0, false⟩] }

theorem witness_DecodeOfEncode :
    (Instr.opPM1 0x33).wf = true ∧ (Instr.opPM1 0xFE).wf = true ∧ (Instr.opPM2 0x00).wf = true ∧
    (Instr.setws 127).wf = true ∧ (Instr.insert 0x1FF).wf = true := by decide

theorem witness_EncodeOfDecode :
    decode (.command 0x60000000) = .ok (.rreg 0) ∧ decode (.command 0x600001FF) = .ok (.rreg 511) ∧
    decode (.line [0xFE]) = .ok (.opPM1 0xFE) ∧ decode (.line [0xFF, 0x00]) = .ok (.opPM2 0x00) := by decide +kernel

theorem witness_StepRunsDecodedCommand :
    (∃ p rest, ({ State.reset with pending := [.command ⟨0xC8000000, 0, 0, 0, 0, true⟩, .save] } : State).pending =
      .command p :: rest ∧ decodeCommand p.cmd = .ok .runstep) ∧
    (∃ p rest, ({ State.reset with pending := [.command ⟨0, 0, 0, 0, 0, false⟩] } : State).pending =
      .command p :: rest ∧ decodeCommand p.cmd = .error .unassignedOp) :=
  ⟨⟨_, _, rfl, by decide +kernel⟩, ⟨_, _, rfl, by decide +kernel⟩⟩

/-- By the class of the opcode: an Other line of one byte and of two, a Goto line and a Label line. By the bytes under
the reference map: a one-byte line, an extended line, a line that fails, and the line that ends at nybble 405. -/
theorem witness_RunstepRunsStoredLine :
    ((progA 1).opcodeAt 2 = .ok 0x50 ∧ (progA 1).params.classOf 0x50 = .other ∧ (0x50 : Opcode).toNat ≤ 0xFE ∧
      (progX 1).opcodeAt 2 = .ok 0x1FE ∧ (progX 1).params.classOf 0x1FE = .other ∧ 0xFE < (0x1FE : Opcode).toNat ∧
      (oneLine 1 7).opcodeAt 1 = .ok 0x17 ∧ (oneLine 1 7).params.classOf 0x17 = .goto 7 ∧
      (progA 0).opcodeAt 1 = .ok 1 ∧ (progA 0).params.classOf 1 = .label 1) ∧
    ((progA 1).params.opcodeMap = .standard ∧ (progA 1).inc 1 = 2 ∧ (progA 1).lineAddr 2 = .ok 2 ∧
      decodeLine [BitVec.ofNat 8 ((progA 1).arena.readN 2 2), BitVec.ofNat 8 ((progA 1).arena.readN 4 2)] =
        .ok (.opPM1 0x50, [0x02]) ∧
      isNext (exec (.opPM1 0x50) { progA 1 with cur := 2, cache := (progA 1).resolve 2 }) = true) ∧
    ((progX 1).lineAddr 2 = .ok 2 ∧ (progX 1).arena.readN 2 2 = 0xFF ∧
      decodeLine [0xFF, BitVec.ofNat 8 ((progX 1).arena.readN 4 2)] = .ok (.opPM2 0xFF, []) ∧
      isNext (exec (.opPM2 0xFF) { progX 1 with cur := 2, cache := (progX 1).resolve 2 }) = true) ∧
    ((oneLine 1 7).lineAddr 1 = .ok 0 ∧
      decodeLine [BitVec.ofNat 8 ((oneLine 1 7).arena.readN 0 2), 0] = .ok (.gtoN 7, [0]) ∧
      ends (exec (.gtoN 7) { oneLine 1 7 with cur := 1, cache := (oneLine 1 7).resolve 1 })
        (fun t => t.out.err.isSome) = true) ∧
    ((fullAt 202).inc 202 = 203 ∧ fullState.lineAddr 203 = .ok 404 ∧
      decodeLine [BitVec.ofNat 8 (fullState.arena.readN 404 2), 0] = .ok (.lblN 0, [0])) := by decide +kernel

theorem witness_StopRequestIsUnread :
    (∃ t, exec .add (wordState .uns 4 1 2) = .next t) ∧
    exec .preset { State.reset with lines := 204 } = .fault (.noSuchNybble 407) :=
  ⟨isNext_iff (by decide +kernel), faults_iff (by decide +kernel)⟩

theorem witness_StepKeepsBounds :
    (({ progX 1 with pending := [.command ⟨0x940001FE, 0, 0, 0, 0, false⟩] } : State).BoundsOk) ∧
    isNext (step { progX 1 with pending := [.command ⟨0x940001FE, 0, 0, 0, 0, false⟩] }) = true ∧
    ({ fullState with pending := [.load imageP1] } : State).BoundsOk ∧
    isNext (step { fullState with pending := [.load imageP1] }) = true := by decide +kernel

/-- A step that keeps the cursor in the program; the stale return that does not; and a DELETE on line `lines + 1`. -/
theorem witness_StepKeepsStoredProgram :
    (({ progX 2 with pending := [.command ⟨0x98000000, 0, 0, 0, 0, false⟩] } : State).Inv ∧
      ends (step { progX 2 with pending := [.command ⟨0x98000000, 0, 0, 0, 0, false⟩] })
        (fun t => t.cur ≤ t.lines) = true) ∧
    (staleState.Inv ∧ ends (step staleState) (fun t => t.lines < t.cur) = true) ∧
    (let s : State := { progX 3 with pending := [.command ⟨0x98000000, 0, 0, 0, 0, false⟩] };
      s.StoreOk ∧ s.cur ≤ maxLines ∧ s.cur = s.lines + 1 ∧ ends (step s) (fun t => t.lines < t.cur) = true) :=
  ⟨by decide +kernel, by decide +kernel, by decide +kernel⟩

/-- The cursor in the program and past it, with a DELETE on the line that would stand past a full arena. -/
theorem witness_EveryStepEnds :
    (progX 1).Inv ∧ staleState.Inv ∧ (fullAt 203).Inv ∧
    ({ fullAt 204 with pending := [.command ⟨0x98000000, 0, 0, 0, 0, false⟩] } : State).StoreOk ∧
    (progX 300).StoreOk :=
  ⟨by decide +kernel, by decide +kernel, by decide +kernel, by decide +kernel, by decide +kernel⟩

/-- Two states that differ in the cache, with a command that resolves a line. -/
theorem witness_CacheIsUnobservable :
    let s : State := { progX 0 with pending := [.command ⟨0xA0000002, 0, 0, 0, 0, false⟩] };
    ({ s with cache := ⟨2, 2⟩ } : State).visible = s.visible ∧ { s with cache := ⟨2, 2⟩ } ≠ s ∧
    isNext (step { s with cache := ⟨2, 2⟩ }) = true := by decide +kernel

/-- Forward to `lines + 1`, and back to 1. -/
theorem witness_ResolveReturnsLineAddress :
    ((progX 0).ProgramOk ∧ (progX 0).CacheOk ∧ 1 ≤ 3 ∧ 3 ≤ (progX 0).lines + 1) ∧
    (({ progX 0 with cache := ⟨3, 6⟩ } : State).CacheOk ∧ 1 ≤ (progX 0).lines + 1) := by decide +kernel

theorem witness_LinesLieBackToBack :
    ((progX 0).ProgramOk ∧ 1 ≤ 1 ∧ 2 ≤ (progX 0).lines) ∧ State.reset.ProgramOk ∧ fullState.ProgramOk := by
  decide +kernel

theorem witness_RefusedCommandsChangeNothing :
    (∃ t, exec .add (floatState 0 0) = .next t ∧ t.out.refused = some .floatArithmetic) ∧
    (∃ t, exec (.insert 0x1FF) (progX 1) = .next t ∧ t.out.refused = some .reservedEncoding) ∧
    (∃ t, exec (.setws 0) (floatState 0 0) = .next t ∧ t.out.refused = some .wordSizeInFloat) ∧
    (∃ t, exec .gosubI (matrixState 1 0 0 1) = .next t ∧ t.out.refused = some .matrixDescriptor) :=
  ⟨ends_refused (by decide +kernel), ends_refused (by decide +kernel), ends_refused (by decide +kernel),
    ends_refused (by decide +kernel)⟩

/-- Nothing kept; GOSUB's push kept; RUNSTEP's increment kept; and both. -/
theorem witness_FailingCommandsKeepNothing :
    (∃ t, exec .delete State.reset = .next t ∧ t.out.err = some .progAddr) ∧
    (∃ t, exec (.gosub 9) { progA 2 with rsp := 0 } = .next t ∧ t.out.err = some .progAddr) ∧
    (∃ t, exec .runstep (oneLine 1 7) = .next t ∧ t.out.err = some .progAddr) ∧
    (∃ t, exec .runstep (oneLine 2 9) = .next t ∧ t.out.err = some .progAddr) :=
  ⟨ends_err (by decide +kernel), ends_err (by decide +kernel), ends_err (by decide +kernel),
    ends_err (by decide +kernel)⟩

theorem witness_StateWrittenOnlyByNamedCommands :
    (∃ t, exec .cmp { wordState .uns 4 1 2 with c := true, g := true, dirty := true } = .next t) ∧
    (∃ t, exec .runstep (progA 1) = .next t) :=
  ⟨isNext_iff (by decide +kernel), isNext_iff (by decide +kernel)⟩

theorem witness_UnsignedAddSub :
    (wordState .uns 1 1 1).mode = .uns ∧ (wordState .uns 1 1 1).WordOk ∧
    (wordState .uns 64 0x1FFFFFFFFFFFFFFFF 1).WordOk := by decide

/-- Both signed modes, with a sum in range and out of it. -/
theorem witness_SignedAdd :
    let s : State := wordState .twos 4 7 1;
    let t : State := wordState .ones 4 7 1;
    let u : State := wordState .ones 4 0xE 1;
    (s.WordOk ∧ s.mode = .twos ∧ s.toInt 7 + s.toInt 1 = 8) ∧ (t.WordOk ∧ t.mode = .ones ∧ t.toInt 7 + t.toInt 1 = 8) ∧
    (u.WordOk ∧ 1 - 2 ^ (u.ws - 1) ≤ u.toInt 0xE + u.toInt 1 ∧ u.toInt 0xE + u.toInt 1 ≤ 2 ^ (u.ws - 1) - 1) ∧
    (wordState .twos 1 1 1).WordOk ∧ (wordState .ones 64 1 1).WordOk := by decide

theorem witness_TwosSub :
    (wordState .twos 4 8 1).mode = .twos ∧ (wordState .twos 4 8 1).WordOk ∧ 8 = (2 ^ 4 - 8) % 2 ^ 4 ∧
    ({ wordState .twos 1 0 1 with params := { Params.default with subCarry := .borrow } } : State).WordOk := by decide

theorem witness_OnesSub :
    (wordState .ones 4 8 1).mode = .ones ∧ (wordState .ones 4 8 1).WordOk ∧ (wordState .ones 64 0 1).WordOk := by
  decide

theorem witness_IntegerNeg :
    ((wordState .uns 4 8 0).WordOk ∧ (wordState .uns 4 8 0).mode = .uns) ∧
    ((wordState .ones 1 1 0).WordOk ∧ (wordState .ones 1 1 0).mode = .ones) ∧
    ((wordState .twos 64 0x8000000000000000 0).WordOk ∧
      (wordState .twos 64 0x8000000000000000 0).mode = .twos) := by decide

theorem witness_NegTwice :
    (let s : State := wordState .ones 4 0xF 0;
      s.WordOk ∧ s.mode = .ones ∧ s.inp.x.toNat = 2 ^ s.ws - 1) ∧
    (let s : State := wordState .twos 4 8 0;
      s.WordOk ∧ s.mode = .twos ∧ s.inp.x.toNat = 2 ^ (s.ws - 1)) ∧
    (let s : State := floatState 0x04200000000000 0;
      s.WordOk ∧ s.mode = .float ∧ FloatOk s.params s.inp.x ∧ isMatrixDesc s.params 0x94200000000000 = false ∧
      ends (exec .neg s) (fun t => t.out.r == some 0x94200000000000) = true) := by decide +kernel

theorem witness_StoreResult :
    (wordState .float 56 0 0).WordOk ∧ (wordState .uns 1 0 0 (-1)).WordOk ∧ (wordState .twos 64 0 0 9).WordOk ∧
    (wordState .ones 4 0 0 (-7)).WordOk := by decide

/-- Both ends of the range, and the two patterns at the end of the word. -/
theorem witness_StoreTointRoundTrip :
    (let s : State := wordState .twos 4 0xF 0 (-8);
      s.WordOk ∧ s.mode ≠ .float ∧ minInt s.mode s.ws ≤ s.inp.n ∧ s.inp.n ≤ maxInt s.mode s.ws ∧
        s.inp.x.toNat < 2 ^ s.ws) ∧
    (let s : State := wordState .uns 4 0 0 15;
      s.WordOk ∧ minInt s.mode s.ws ≤ s.inp.n ∧ s.inp.n ≤ maxInt s.mode s.ws) ∧
    (let s : State := wordState .ones 4 0xF 0;
      s.mode = .ones ∧ s.inp.x.toNat = 2 ^ s.ws - 1) := by decide

theorem witness_CmpResult :
    (wordState .ones 4 0 15).mode ≠ .float ∧
    (let s : State := floatState 0x04200000000000 0x91500000000997;
      s.mode = .float ∧ FloatOk s.params s.inp.x ∧ FloatOk s.params s.inp.y) := by decide +kernel

/-- Both ends of the range of each mode. -/
theorem witness_IntegerIncDec :
    (wordState .twos 4 7 0).WordOk ∧ (wordState .twos 4 8 0).WordOk ∧ (wordState .ones 4 8 0).WordOk ∧
    (wordState .uns 1 1 0).WordOk ∧ (wordState .uns 1 1 0).mode ≠ .float := by decide

theorem witness_TointIszTrunc :
    (wordState .ones 4 0xF 0).WordOk ∧ (wordState .ones 4 0xF 0).mode ≠ .float ∧ (floatState 0 0).WordOk ∧
    (wordState .twos 1 1 0).WordOk := by decide

/-- A zero with a sign, and a number; and the greatest double and a zero to add to. -/
theorem witness_FloatArms :
    (dblExpField 0x7FEFFFFFFFFFFFFF ≠ 0x7FF ∧ dblExpField 0x8000000000000000 ≠ 0x7FF) ∧
    (let s : State := floatState 0x90000000000000 0;
      s.mode = .float ∧ FloatOk s.params s.inp.x ∧ mant s.inp.x = 0) ∧
    (let s : State := floatState 0x04200000000000 0;
      FloatOk s.params s.inp.x ∧ mant s.inp.x ≠ 0) := by decide +kernel

/-- An illegal float on X, on Y, in I, in the register read directly and in the register I names. -/
theorem witness_IllegalFloatRaisesSix :
    FloatBad Params.default 0x0A000000000000 ∧
    FloatOk (floatState 1 0x0A000000000000).params 1 ∧
    (let s : State := { floatState 0 0 with ireg := 0x0A000000000000 };
      s.mode = .float ∧ FloatBad s.params s.ireg) ∧
    (let s : State := { floatState 0 0 with arena := [(393, 0xA)] };
      s.mode = .float ∧ 0 < s.regCount ∧ FloatBad s.params (val (s.slotValue 0)) ∧ s.NamesRegister 0) := by
  decide +kernel

/-- A matrix descriptor on X, on Y, in I, in the register read directly and in the register I names. -/
theorem witness_FloatModeRefusals :
    (floatState 0 0).mode = .float ∧
    (let s : State := matrixState 1 1 0 0;
      s.mode = .float ∧ isMatrixDesc s.params s.inp.x = true) ∧
    (let s : State := matrixState 1 0 1 0;
      s.mode = .float ∧ FloatOk s.params s.inp.x ∧ isMatrixDesc s.params s.inp.y = true) ∧
    (let s : State := matrixState 1 0 0 1;
      s.mode = .float ∧ isMatrixDesc s.params s.ireg = true) ∧
    (let s : State := { matrixState 1 0 0 0 with arena := [(405, 1)] };
      s.mode = .float ∧ 0 < s.regCount ∧ isMatrixDesc s.params (val (s.slotValue 0)) = true ∧
        s.NamesRegister 0) := by decide +kernel

theorem witness_SetwsResult :
    (floatState 0 0).mode = .float ∧ State.reset.mode ≠ .float ∧ (0 : BitVec 7).toNat < 1 ∧
    64 < (65 : BitVec 7).toNat ∧ 1 ≤ (1 : BitVec 7).toNat ∧ (64 : BitVec 7).toNat ≤ 64 := by decide

theorem witness_FencIsLegalAndNormalised :
    isLegalFloat (floatPosInf Params.default) = true ∧ floatDigit (floatPosInf Params.default) 0 ≠ 0 ∧
    isLegalFloat (floatNegInf Params.default) = true ∧ floatDigit (floatNegInf Params.default) 0 ≠ 0 := by
  decide +kernel

/-- A state with a double on DBL_IN. -/
def doubleState (d : Double) : State := { State.reset with inp := { InPorts.zero with dblIn := d } }

theorem witness_FencSpecials :
    (let d := (doubleState 0x7FF8000000000000).inp.dblIn;
      d.toNat / 2 ^ 52 % 2 ^ 11 = 0x7FF ∧ d.toNat % 2 ^ 52 ≠ 0) ∧
    (doubleState 0x7FF0000000000000).inp.dblIn = 0x7FF0000000000000 ∧
    (doubleState 0xFFF0000000000000).inp.dblIn = 0xFFF0000000000000 ∧
    (doubleState 0x8000000000000000).inp.dblIn = 0x8000000000000000 ∧
    (100 ≤ (fromDoubleRound Params.default (dblAbs 0xFFEFFFFFFFFFFFFF)).2 ∧
      99999999995 * (10 : Rat) ^ (89 : Int) ≤ |dblValue 0xFFEFFFFFFFFFFFFF| ∧
      (0xFFEFFFFFFFFFFFFF : Double).msb = true) ∧
    ((fromDoubleRound Params.default (dblAbs 1)).2 ≤ -100 ∧
      |dblValue 1| < 99999999995 * (10 : Rat) ^ (-110 : Int)) := by decide +kernel

/-- 1.0, with the standard rounding. -/
theorem witness_FencRoundsToTenDigits :
    let s : State := doubleState 0x3FF0000000000000;
    s.params.fromDoubleRound = .standard ∧ s.inp.dblIn.toNat / 2 ^ 52 % 2 ^ 11 ≠ 0x7FF ∧
    99999999995 * (10 : Rat) ^ (-110 : Int) ≤ |dblValue s.inp.dblIn| ∧
    |dblValue s.inp.dblIn| < 99999999995 * (10 : Rat) ^ (89 : Int) := by
  have h : dblValue (doubleState 0x3FF0000000000000).inp.dblIn = 1 := by decide +kernel
  refine ⟨rfl, by decide, ?_, ?_⟩ <;> rw [h] <;> norm_num

/-- A legal float, an exponent field between the two ranges, and a matrix descriptor. -/
theorem witness_FchkFdecResult :
    (isMatrixDesc Params.default 0x01000000000901 = false ∧
      901 = 100 * nyb 0x01000000000901 2 + 10 * nyb 0x01000000000901 1 + nyb 0x01000000000901 0 ∧
      isLegalFloat 0x01000000000901 = true) ∧
    (100 = 100 * nyb 0x01000000000100 2 + 10 * nyb 0x01000000000100 1 + nyb 0x01000000000100 0 ∧
      isLegalFloat 0x01000000000100 = false) ∧
    isMatrixDesc (matrixState 1 1 0 0).params 1 = true := by decide +kernel

/-- The ends of the two exponent ranges, and the two numbers just outside them. -/
theorem witness_FexpResult :
    ((floatState 0x99 0).inp.x.toNat % 2 ^ 12 = 256 * 0 + 16 * 9 + 9 ∧ 100 * 0 + 10 * 9 + 9 ≤ 99) ∧
    ((floatState 0x901 0).inp.x.toNat % 2 ^ 12 = 256 * 9 + 16 * 0 + 1 ∧ 901 ≤ 100 * 9 + 10 * 0 + 1) ∧
    ((floatState 0x100 0).inp.x.toNat % 2 ^ 12 = 256 * 1 + 16 * 0 + 0 ∧ 99 < 100 * 1 ∧ 100 * 1 < 901) ∧
    ((floatState 0x900 0).inp.x.toNat % 2 ^ 12 = 256 * 9 + 16 * 0 + 0 ∧ 100 * 9 < 901) ∧
    ((floatState 0x9A 0).inp.x.toNat % 2 ^ 12 = 256 * 0 + 16 * 9 + 10 ∧ 9 < 10) ∧
    isLegalFloat (floatState 0x01000000000901 0).inp.x = true := by decide +kernel

/-- The last register that exists, direct and through I; and a legal float in a slot. -/
theorem witness_RregResult :
    (let s : State := { State.reset with ireg := 100 };
      s.WordOk ∧ 100 < s.regCount ∧ s.NamesRegister 100 ∧ s.mode ≠ .float) ∧
    (let s : State := { floatState 0 0 with arena := [(392, 4)], ireg := 0 };
      s.WordOk ∧ 28 < s.regCount ∧ s.mode = .float ∧ s.NamesRegister 0 ∧
        FloatOk s.params (val (s.slotValue 0))) := by decide +kernel

theorem witness_WregResult :
    (let s : State := { wordState .uns 4 7 0 with ireg := 405 };
      405 < s.regCount ∧ (405 : BitVec 9).toNat = 405 ∧ s.NamesRegister 405) ∧
    (let s : State := { floatState 0 0 with ireg := 0x02500000000000 };
      2 < s.regCount ∧ s.NamesRegister 2) := by decide +kernel

theorem witness_RegisterReadsBackWrite :
    (let s : State := wordState .twos 16 0x12345 0;
      s.WordOk ∧ (100 : BitVec 9).toNat < s.regCount ∧ s.mode ≠ .float) ∧
    (let s : State := floatState 0x04200000000000 0;
      s.WordOk ∧ (28 : BitVec 9).toNat < s.regCount ∧ FloatOk s.params (val (s.inp.x.toNat % 2 ^ s.ws))) := by
  decide +kernel

/-- The first register that does not exist; an I that is negative, at the limit of I, and just past the last register;
and a float I. -/
theorem witness_RegisterIndexErrors :
    State.reset.regCount ≤ (101 : BitVec 9).toNat ∧
    ({ State.reset with ireg := 0xFFFFFFFFFFFFFFFFF } : State).IndexReads (-1) ∧
    (({ State.reset with ireg := 2 ^ 31 } : State).IndexReads (2 ^ 31) ∧
      (State.reset.params.iaddrLimit : Int) ≤ 2 ^ 31) ∧
    (({ State.reset with ireg := 101 } : State).IndexReads 101 ∧ State.reset.regCount ≤ 101) ∧
    ({ floatState 0 0 with ireg := 0x91500000000000 } : State).IndexReads (-1) := by decide +kernel

theorem witness_WordSizeView :
    State.reset.mode ≠ .float ∧ State.reset.ws = 16 ∧ ({ State.reset with lines := 201 } : State).progSize ≤ 402 := by
  decide

theorem witness_WiRiResult :
    ((wordState .ones 8 0xFF 0).WordOk ∧ (wordState .ones 8 0xFF 0).mode ≠ .float ∧
      (wordState .ones 8 0xFF 0).toInt 0xFF = 0) ∧
    ((floatState 0x1FF00000000000001 0).WordOk ∧ (floatState 0x1FF00000000000001 0).mode = .float) := by decide

theorem witness_IndexStepResult :
    (progA 1).mode ≠ .float ∧
    (let s : State := { floatState 0 0 with ireg := 0x91000000000000 };
      s.mode = .float ∧ FloatOk s.params s.ireg) := by decide +kernel

/-- The last register, in an integer mode and in FLOAT mode. -/
theorem witness_IndirectStepResult :
    (let s : State := { wordState .uns 4 0 0 with ireg := 405 };
      s.WordOk ∧ s.NamesRegister 405 ∧ 405 < s.regCount ∧ s.mode ≠ .float) ∧
    (let s : State := { floatState 0 0 with ireg := 0x02800000000001 };
      s.WordOk ∧ s.NamesRegister 28 ∧ 28 < s.regCount ∧ s.mode = .float ∧
        FloatOk s.params (val (s.slotValue 28))) := by decide +kernel

/-- A line put in at the front, one put in at the end, the last one that fits, and one put in with the cursor just past
the last line. -/
theorem witness_InsertResult :
    ((progX 0).StoreOk ∧ (0xFF : Opcode).toNat ≤ 0x1FE ∧ (progX 0).progSize + 4 ≤ 406) ∧
    ((progX 2).StoreOk ∧ (progX 2).progSize + 2 ≤ 406) ∧
    ((almostFull 202).StoreOk ∧
      (almostFull 202).progSize + 2 ≤ 406) ∧
    ((progX 3).StoreOk ∧ (progX 3).lines < (progX 3).cur) :=
  ⟨by decide +kernel, by decide +kernel, by decide +kernel, by decide +kernel⟩

/-- The first line and the last; the line `lines + 1`, in a program with room after it and in one that fills the arena;
and one further on. -/
theorem witness_DeleteResult :
    ((progX 1).StoreOk ∧ 1 ≤ (progX 1).cur) ∧ ((progX 2).StoreOk ∧ 1 ≤ (progX 2).cur) ∧
    ((fullAt 203).StoreOk) ∧
    ((progX 3).StoreOk ∧ (progX 3).cur = (progX 3).lines + 1 ∧ (progX 3).progSize ≤ 404 ∧
      (progX 3).arena.readN 6 2 ≠ 0xFF) ∧
    ((fullAt 204).StoreOk ∧ (fullAt 204).cur = (fullAt 204).lines + 1) ∧
    ((progX 4).StoreOk ∧ (progX 4).cur ≠ (progX 4).lines + 1) :=
  ⟨by decide +kernel, by decide +kernel, by decide +kernel, by decide +kernel, by decide +kernel, by decide +kernel⟩

theorem witness_InsertThenDelete :
    ((progX 1).Inv ∧ (0x1FE : Opcode).toNat ≤ 0x1FE ∧ (progX 1).progSize + 4 ≤ 406 ∧
      (List.range 4).all (fun k => (progX 1).arena.get ((progX 1).progSize + k) == 0) = true) ∧
    ((almostFull 0).Inv ∧
      (almostFull 0).progSize + 2 ≤ 406) := by decide +kernel

theorem witness_ProgramCommandErrors :
    406 < fullState.progSize + 2 ∧ 406 < (almostFull 0).progSize + 4 ∧
    State.reset.lines = 0 ∧ (progX 0).cur = 0 ∧ (progX 0).lines < (3 : BitVec 8).toNat ∧
    (0 : BitVec 8).toNat < 1 := by decide

theorem witness_PresetSetlineReadline :
    fullState.progSize ≤ 406 ∧ (progX 0).progSize ≤ 406 ∧ (2 : BitVec 8).toNat ≤ (progX 0).lines ∧
    ((progX 0).ProgramOk ∧ 1 ≤ (1 : BitVec 8).toNat) ∧ (fullState.ProgramOk ∧ (203 : BitVec 8).toNat ≤ 203) := by
  decide +kernel

/-- Line 4 carries label 1 and is the first candidate from line 2. -/
theorem found_progA : (progA 2).FoundAt 1 4 := by
  refine ⟨by decide, 2, by decide, by decide, ⟨1, by decide +kernel, by decide +kernel⟩, fun j hj => ?_⟩
  have : j = 0 ∨ j = 1 := by omega
  rintro ⟨op, h1, h2⟩
  rcases this with rfl | rfl
  · rw [show (progA 2).opcodeAt ((progA 2).scanLine 0) = .ok 0x50 by decide +kernel] at h1
    cases h1
    exact absurd h2 (by decide +kernel)
  · rw [show (progA 2).opcodeAt ((progA 2).scanLine 1) = .ok 2 by decide +kernel] at h1
    cases h1
    exact absurd h2 (by decide +kernel)

/-- The program with the one line OP 0x050 carries no label 9. -/
theorem noLabel_oneLine : (oneLine 5 0).NoLabel 9 := by
  intro l h1 h2
  have h3 : l ≤ 1 := h2
  obtain rfl : l = 1 := by omega
  rintro ⟨op, h4, h5⟩
  rw [show (oneLine 5 0).opcodeAt 1 = .ok 0x50 by decide +kernel] at h4
  cases h4
  exact absurd h5 (by decide +kernel)

theorem witness_GotoResult :
    ((progA 2).ProgramOk ∧ (progA 2).FoundAt 1 4) ∧ ((oneLine 5 0).ProgramOk ∧ (oneLine 5 0).NoLabel 9) ∧
    ({ progA 2 with ireg := 15 } : State).NamesLabel 15 ∧
    ({ floatState 0 0 with ireg := 0x02500000000000 } : State).NamesLabel 2 ∧
    ({ progA 2 with ireg := 16 } : State).NamesNoLabel ∧
    ({ progA 2 with ireg := 0xFFFFFFFFFFFFFFFFF } : State).NamesNoLabel ∧
    ({ floatState 0 0 with ireg := 0x95000000000999 } : State).NamesNoLabel ∧
    ({ floatState 0 0 with ireg := 0x01600000000001 } : State).NamesNoLabel :=
  ⟨⟨by decide +kernel, found_progA⟩, ⟨by decide +kernel, noLabel_oneLine⟩, by decide +kernel, by decide +kernel,
    by decide +kernel, by decide +kernel, by decide +kernel, by decide +kernel⟩

/-- At a full stack, with an I that names a label, one that names none, one that is no legal float and a matrix
descriptor; from underflow and from a deeper level, with the label found and not found. -/
theorem witness_GosubResult :
    ((let s : State := { progA 2 with rsp := 3 };
        s.rsp = s.params.cap - 1 ∧ s.NamesLabel 0) ∧
      (let s : State := { progA 2 with rsp := 3, ireg := 16 };
        s.rsp = s.params.cap - 1 ∧ s.NamesNoLabel) ∧
      (let s : State := { floatState 0 0 with rsp := 3, ireg := 0x0A000000000000 };
        s.rsp = s.params.cap - 1 ∧ s.mode = .float ∧ FloatBad s.params s.ireg) ∧
      (let s : State := { matrixState 1 0 0 1 with rsp := 3 };
        s.rsp = s.params.cap - 1 ∧ isMatrixDesc s.params s.ireg = true)) ∧
    ((progA 2).StackOk ∧ (progA 2).rsp = -1 ∧ (progA 2).FoundAt 1 4) ∧
    ((oneLine 5 0).StackOk ∧ (oneLine 5 0).rsp = -1 ∧ (oneLine 5 0).NoLabel 9) ∧
    (let s : State := { progA 2 with rsp := 2 };
      s.ProgramOk ∧ s.StackOk ∧ 0 ≤ s.rsp ∧ s.rsp < s.params.cap - 1 ∧ s.FoundAt 1 4) ∧
    (let s : State := { oneLine 5 0 with rsp := 0 };
      s.StackOk ∧ 0 ≤ s.rsp ∧ s.rsp < s.params.cap - 1 ∧ s.NoLabel 9) ∧
    ({ progA 2 with ireg := 0 } : State).NamesLabel 0 :=
  ⟨by decide +kernel, ⟨by decide +kernel, rfl, found_progA⟩, ⟨by decide +kernel, rfl, noLabel_oneLine⟩,
    ⟨by decide +kernel, by decide +kernel, by decide, by decide, found_progA⟩,
    ⟨by decide +kernel, by decide, by decide, noLabel_oneLine⟩, by decide +kernel⟩

theorem witness_IndirectCallErrors :
    (let s : State := { progA 2 with ireg := 16 };
      s.rsp ≠ s.params.cap - 1 ∧ s.NamesNoLabel) ∧
    (let s : State := { floatState 0 0 with ireg := 0x0A000000000000, rsp := 2 };
      s.rsp ≠ s.params.cap - 1 ∧ s.mode = .float ∧ FloatBad s.params s.ireg) ∧
    (let s : State := matrixState 1 0 0 1;
      s.rsp ≠ s.params.cap - 1 ∧ s.mode = .float ∧ isMatrixDesc s.params s.ireg = true) := by decide +kernel

theorem witness_RtnRunResult :
    (let s : State := { progA 2 with rsp := 3, rs := [0, 0, 0, 4] };
      s.StackOk ∧ 0 < s.rsp ∧ s.rs[s.rsp.toNat]? = some 4) ∧
    (let s : State := { progA 2 with rsp := 0 };
      s.StackOk ∧ s.rsp ≤ 0) ∧ (State.reset.StackOk ∧ State.reset.rsp = -1) := by decide

/-- The phantom line 0 at both levels; a label line; an Other line, and an extended one. -/
theorem witness_RunstepResult :
    (let s : State := { progA 4 with rsp := 1, rs := [0, 2, 0, 0] };
      s.ProgramOk ∧ s.StackOk ∧ s.inc s.cur = 0 ∧ 0 < s.rsp ∧ s.rs[s.rsp.toNat]? = some 2) ∧
    (State.reset.inc State.reset.cur = 0 ∧ State.reset.rsp ≤ 0) ∧
    ((progA 0).inc 0 = 1 ∧ (progA 0).opcodeAt 1 = .ok 1 ∧ (progA 0).params.classOf 1 = .label 1) ∧
    ((progA 1).opcodeAt 2 = .ok 0x50 ∧ (progA 1).params.classOf 0x50 = .other) ∧
    ((progX 1).inc 1 = 2 ∧ (progX 1).opcodeAt 2 = .ok 0x1FE ∧ (progX 1).params.classOf 0x1FE = .other) := by
  decide +kernel

/-- The arena and the index that the storage and the index of the P1 program read as. -/
theorem imageP1_reads :
    Memory.wf [(2, 4), (3, 1), (4, 1), (6, 3)] = true ∧ imageP1.storage.length = 406 ∧
    (∀ a, a < 406 →
      imageP1.storage[a]?.bind hexDigit? = some (Memory.get [(2, 4), (3, 1), (4, 1), (6, 3)] a).toNat) ∧
    imageP1.index.map hexDigit? = [3].map some ∧ 1 ≤ [3].length ∧ [3].length ≤ 17 := by decide +kernel

/-- One image for each way a program is not valid: 204 lines, a line past the arena, the cursor past the last line, the
pointer at CAP, no stack, a stack one entry short, an entry of 204. -/
theorem imageP1_invalid :
    (let bad : Image := { imageP1 with lines := .int 204 };
      bad.lines = .int 204 ∧ (203 : Int) < 204) ∧
    (let bad : Image := { imageP1 with lines := .int 203, storage := List.replicate 404 '0' ++ ['F', 'F'] };
      let m : Memory := [(404, 15), (405, 15)];
      bad.lines = .int (203 : Nat) ∧ m.wf = true ∧ bad.storage.length = 406 ∧
        (∀ a, a < 406 → bad.storage[a]?.bind hexDigit? = some (m.get a).toNat) ∧
        ({ State.reset with arena := m } : State).lineAddr 203 = .ok 404 ∧ m.readN 404 2 = 0xFF) ∧
    (let bad : Image := { imageP1 with currentLine := .int 5 };
      bad.lines = .int 4 ∧ bad.currentLine = .int 5 ∧ (4 : Int) < 5) ∧
    (let bad : Image := { imageP1 with returnStackPos := .int 4 };
      bad.returnStackPos = .int 4 ∧ (State.reset.params.cap : Int) - 1 < 4) ∧
    ({ imageP1 with returnStack := none } : Image).returnStack = none ∧
    [JsonNum.int 0, .int 0, .int 0].length ≠ State.reset.params.cap ∧ (203 : Int) < 204 := by decide +kernel

/-- SAVE, LOAD of it elsewhere, and the images LOAD rejects: a storage one digit short, an index of 0 and of 18 digits,
a character that is no digit. The images it rolls back are those of `imageP1_invalid`. -/
theorem witness_SaveThenLoad :
    (let s : State := { progX 1 with pending := [.save] };
      s.Inv ∧ (floatState 0 0).params.cap = s.params.cap) ∧
    ({ imageP1 with storage := List.replicate 405 '0' } : Image).storage.length ≠ 406 ∧
    ({ imageP1 with index := [] } : Image).index.length < 1 ∧
    17 < ({ imageP1 with index := List.replicate 18 '0' } : Image).index.length ∧
    (∃ ch ∈ ({ imageP1 with index := ['G'] } : Image).storage ++ ['G'], hexDigit? ch = none) :=
  ⟨by decide +kernel, by decide +kernel, by decide, by decide, 'G', by simp, by decide⟩

end Sys2Proof.Tests
end

section
/-! SUPPORT. What an instruction can make of the state it finds, said once: the relation `Effect`, and that every
instruction's next state is one of its effects up to the output ports. -/

namespace Sys2Proof.Machine

/-! ### What an instruction can do -/

/-- What running a line, a return or a call can leave: one of the effects of a stored line, or, where it fails after its
push, the push (R268). -/
inductive ControlEffect (s : State) : State → Prop
  | line {u : State} : LineEffect s u → ControlEffect s u
  | push : s.rsp ≠ s.params.cap - 1 → ControlEffect s s.pushCall

/-- What instruction `i` can make of the state `s` it finds, whether it ends well, fails or is refused, but for the
output ports. A constructor names the instructions only where they write what R20 to R27 and R37 give to few. -/
inductive Effect (s : State) : Instr → State → Prop
  /-- Nothing but outputs, and every error or refusal that keeps nothing. -/
  | keep (i : Instr) : Effect s i s
  /-- ADD and SUB write both flags, WFLAG one of them. -/
  | flags {i : Instr} (c g : Bool) : (i = .add ∨ i = .sub ∨ ∃ f v, i = .wflag f v) → Effect s i ((s.setC c).setG g)
  | overflow {i : Instr} (g : Bool) : (i = .neg ∨ i = .store) → Effect s i (s.setG g)
  | wordSize (w : BitVec 7) : s.mode ≠ .float → 1 ≤ w.toNat → w.toNat ≤ 64 → Effect s (.setws w) (s.setWs w.toNat)
  | signMode (m : Mode) : m ≠ .float → Effect s (.setmode m) (s.setMode m)
  | floatMode : Effect s (.setmode .float) ((s.setMode .float).setWs 56)
  /-- STEP, SETLINE and the skips leave the cursor where it was or put it on a line. -/
  | move (i : Instr) (c : Nat) : (c = s.cur ∨ c ≤ s.lines) → Effect s i (s.setCur c)
  /-- WI, and ISZI and DSZI with their skip. -/
  | index {i : Instr} (v : Value) (c : Nat) : (i = .wi ∨ i = .iszi ∨ i = .dszi) → (c = s.cur ∨ c ≤ s.lines) →
      Effect s i (((s.setIreg v).setDirty true).setCur c)
  /-- WREG, and ISZIND and DSZIND with their skip, write one slot of a register that exists. -/
  | slot {i : Instr} (n v c : Nat) : ((∃ n, i = .wreg n) ∨ i = .wregI ∨ i = .iszind ∨ i = .dszind) →
      n < s.regCount → (c = s.cur ∨ c ≤ s.lines) →
      Effect s i (((s.setArena (s.arena.writeN (s.slotAddr n) s.npr v)).setDirty true).setCur c)
  | clear : Effect s .clrreg
      (((s.setArena (s.arena.zero s.progSize (arenaSize - s.progSize))).setIreg 0).setDirty true)
  | preset : Effect s .preset ((s.setArena (s.arena.zero 0 s.progSize)).clearProgram.setDirty true)
  | insert (opc : Opcode) {u : State} : insertLine opc s = .ok u → Effect s (.insert opc) u
  | delete {u : State} : deleteLine s = .ok u → Effect s .delete u
  /-- READLINE moves the cache to its line. -/
  | resolve (i : Instr) (l : Nat) : 1 ≤ l → l ≤ s.lines → Effect s i (s.touch l)
  | run (i : Instr) : Effect s i (s.setRsp 0)
  /-- The jumps, calls and returns; only a return can leave the lines. -/
  | control (i : Instr) {u : State} : ControlEffect s u →
      (i = .rtn ∨ i = .rtnStored ∨ u.cur = s.cur ∨ u.cur ≤ u.lines) → Effect s i u
  /-- RUNSTEP increments the cursor, and runs a line or the phantom return there. -/
  | fetch {u v : State} : u = s.setCur (s.inc s.cur) ∨
      (s.inc s.cur ≠ 0 ∧ u = (s.setCur (s.inc s.cur)).touch (s.inc s.cur)) →
      ControlEffect u v → Effect s .runstep v

/-- `u` is what instruction `i` can make of `s`, with any outputs. -/
def Effect.UpToOut (s : State) (i : Instr) (u : State) : Prop := ∃ v o, Effect s i v ∧ u = v.setOut o

theorem Effect.upToOut {s u : State} {i : Instr} (h : Effect s i u) : Effect.UpToOut s i u := ⟨u, u.out, h, rfl⟩

theorem Effect.withOut {s u : State} {i : Instr} (h : Effect s i u) (o : Outputs) : Effect.UpToOut s i (u.setOut o) :=
  ⟨u, o, h, rfl⟩

/-- Whatever `a` succeeds with meets `Q`. -/
def Attempt.Ensures {α : Type} (a : Attempt α) (Q : α → Prop) : Prop := ∀ x, a = .ok x → Q x

theorem Attempt.Ensures.ok {α : Type} {x : α} {Q : α → Prop} (h : Q x) : Attempt.Ensures (.ok x) Q := by
  rintro _ ⟨⟩
  exact h

theorem Attempt.Ensures.bind {α β : Type} {m : Attempt α} {f : α → Attempt β} {Q : β → Prop}
    (h : ∀ x, m = .ok x → Attempt.Ensures (f x) Q) : Attempt.Ensures (m >>= f) Q := fun y hy => by
  obtain ⟨x, hx, hf⟩ := Attempt.bind_eq_ok.1 hy
  exact h x hx y hf

theorem Attempt.Ensures.ite {α : Type} {p : Prop} [Decidable p] {a b : Attempt α} {Q : α → Prop}
    (ha : Attempt.Ensures a Q) (hb : Attempt.Ensures b Q) : Attempt.Ensures (if p then a else b) Q := by
  split
  · exact ha
  · exact hb

/-- A command leaves what its effect leaves, where the effect ends well or fails. -/
theorem perform_effect {f : State → Ending} {i : Instr} {s t : State} (h : perform f s = .next t)
    (hok : ∀ s u, f s = .ok u → Effect.UpToOut s i u) (herr : ∀ s c u, f s = .err c u → Effect s i u) :
    Effect.UpToOut (s.setOut Outputs.absent) i t := by
  rcases perform_next h with hf | ⟨c, k, hf, rfl⟩ | ⟨r, -, rfl⟩
  · exact hok _ _ hf
  · exact (herr _ _ _ hf).withOut _
  · exact (Effect.keep i).withOut _

/-- A command whose checks come before its writes leaves what they make, or the state it found. -/
theorem perform_attempt_effect {a : State → Attempt State} {i : Instr} {s t : State}
    (h : perform (fun s => Ending.of s (a s)) s = .next t)
    (hok : ∀ s, Attempt.Ensures (a s) (Effect.UpToOut s i)) : Effect.UpToOut (s.setOut Outputs.absent) i t :=
  perform_effect h (fun s u h => hok s u (Ending.of_eq_ok.1 h))
    fun _ _ _ h => (Ending.of_eq_err.1 h).2 ▸ Effect.keep i

/-- A command without a check leaves what it writes. -/
theorem perform_ok_effect {f : State → State} {i : Instr} {s t : State} (h : perform (fun s => .ok (f s)) s = .next t)
    (hok : ∀ s, Effect.UpToOut s i (f s)) : Effect.UpToOut (s.setOut Outputs.absent) i t :=
  perform_effect h (fun s u h => by cases h; exact hok s) fun _ _ _ h => by cases h

/-! ### The effects of the shared operations -/

theorem returnCall_effect {i : Instr} (hi : i = .rtn ∨ i = .rtnStored) {s t : State}
    (h : perform returnCall s = .next t) : Effect.UpToOut (s.setOut Outputs.absent) i t :=
  perform_effect h (fun s u h => (Effect.control i (.line (returnCall_inv h)) (hi.imp_right .inl)).upToOut)
    fun s c u h => by
      obtain ⟨t', ht⟩ := returnCall_cases s
      simp [ht] at h

theorem gotoTarget_effect {target : State → Attempt Label} (i : Instr) {s t : State}
    (h : perform (gotoTarget target) s = .next t) : Effect.UpToOut (s.setOut Outputs.absent) i t :=
  perform_effect h
    (fun s u h => by
      obtain ⟨l, h1, h2, rfl⟩ := gotoTarget_ok h
      exact (Effect.control i (.line (.jump l h1 h2)) (.inr (.inr (.inr h2)))).upToOut)
    fun s c u h => gotoTarget_err h ▸ Effect.keep i

@[simp] theorem State.pushCall_lines (s : State) : s.pushCall.lines = s.lines := by
  unfold State.pushCall; split <;> rfl

@[simp] theorem State.pushCall_cur (s : State) : s.pushCall.cur = s.cur := by
  unfold State.pushCall; split <;> rfl

theorem gosubTarget_effect {target : State → Attempt Label} (i : Instr) {s t : State}
    (h : perform (gosubTarget target) s = .next t) : Effect.UpToOut (s.setOut Outputs.absent) i t :=
  perform_effect h
    (fun s u h => by
      obtain ⟨hc, l, h1, h2, rfl⟩ := gosubTarget_ok h
      exact (Effect.control i (.line (.call l hc h1 h2))
        (.inr (.inr (.inr (by simpa [State.touch] using h2))))).upToOut)
    fun s c u h => by
      rcases gosubTarget_err h with rfl | ⟨hc, rfl⟩
      · exact .keep i
      · exact .control i (.push hc) (.inr (.inr (.inl s.pushCall_cur)))

theorem runStep_effect {s t : State} (h : perform runStep s = .next t) :
    Effect.UpToOut (s.setOut Outputs.absent) .runstep t :=
  perform_effect h
    (fun s u h => by
      rcases runStep_inv h with h | ⟨hz, h⟩
      · exact (Effect.fetch (.inl rfl) (.line h)).upToOut
      · exact (Effect.fetch (.inr ⟨hz, rfl⟩) (.line h)).upToOut)
    fun s c u h => by
      rcases runStep_err h with rfl | ⟨hc, rfl⟩
      · exact .fetch (.inl rfl) (.line .same)
      · exact .fetch (.inl rfl) (.push hc)

theorem stepX_effect {k : Int} (i : Instr) {s t : State} (h : perform (stepX k) s = .next t) :
    Effect.UpToOut (s.setOut Outputs.absent) i t :=
  perform_effect h
    (fun s u h => by
      obtain ⟨v, rfl⟩ := stepX_inv h
      exact (Effect.keep i).withOut _)
    fun _ _ _ h => (Ending.of_eq_err.1 h).2 ▸ Effect.keep i

theorem doNextIf_effect (i : Instr) (s : State) (b : Bool) : Effect s i (s.doNextIf b) := by
  rw [State.doNextIf_eq]
  cases b
  · exact .move i _ (.inr (s.inc_le s.cur))
  · exact .move i _ (.inl rfl)

/-- A skip or none leaves the cursor where it was or on a line. -/
theorem State.skip_cases {s : State} {c : Nat} (h : c = s.cur ∨ c = s.inc s.cur) : c = s.cur ∨ c ≤ s.lines :=
  h.imp_right fun h => h.trans_le (s.inc_le s.cur)

theorem stepIndex_effect {k : Int} {i : Instr} (hi : i = .wi ∨ i = .iszi ∨ i = .dszi) {s t : State}
    (h : perform (stepIndex k) s = .next t) : Effect.UpToOut (s.setOut Outputs.absent) i t :=
  perform_effect h
    (fun s u h => by
      obtain ⟨v, c, rfl, hc⟩ := stepIndex_inv h
      exact (Effect.index v c hi (s.skip_cases hc)).upToOut)
    fun _ _ _ h => (Ending.of_eq_err.1 h).2 ▸ Effect.keep i

theorem stepIndirect_effect {k : Int} {i : Instr} (hi : i = .iszind ∨ i = .dszind) {s t : State}
    (h : perform (stepIndirect k) s = .next t) : Effect.UpToOut (s.setOut Outputs.absent) i t :=
  perform_effect h
    (fun s u h => by
      obtain ⟨n, v, c, hn, rfl, hc⟩ := stepIndirect_inv h
      exact (Effect.slot n v c (.inr (.inr hi)) hn (s.skip_cases hc)).upToOut)
    fun _ _ _ h => (Ending.of_eq_err.1 h).2 ▸ Effect.keep i

theorem readRegister_effect (i : Instr) (s : State) (r : Option Nat) :
    Attempt.Ensures (readRegister s r) (Effect.UpToOut s i) := fun u h => by
  obtain ⟨v, rfl⟩ := readRegister_inv h
  exact (Effect.keep i).withOut _

theorem writeRegister_effect {i : Instr} (hi : (∃ n, i = .wreg n) ∨ i = .wregI) (s : State) (r : Option Nat) :
    Attempt.Ensures (writeRegister s r) (Effect.UpToOut s i) := fun u h => by
  obtain ⟨n, v, hn, rfl⟩ := writeRegister_inv h
  exact (Effect.slot n v s.cur (hi.imp_right .inl) hn (.inl rfl)).upToOut

/-! ### Every instruction -/

/-- What every instruction leaves is one of the effects of `Effect`, up to the output ports. -/
theorem exec_effect {i : Instr} {s t : State} (h : exec i s = .next t) :
    Effect.UpToOut (s.setOut Outputs.absent) i t := by
  cases i with dsimp only [exec] at h
  | add | sub =>
    exact perform_attempt_effect h fun s => .bind fun _ _ => .ok ((Effect.flags _ _ (by simp)).withOut _)
  | neg =>
    exact perform_attempt_effect h fun s =>
      .ite (.bind fun _ _ => .ok ((Effect.keep _).withOut _)) (.ok ((Effect.overflow _ (.inl rfl)).withOut _))
  | cmp =>
    exact perform_attempt_effect h fun s =>
      .ite (.bind fun _ _ => .bind fun _ _ => .ok ((Effect.keep _).withOut _)) (.ok ((Effect.keep _).withOut _))
  | inc | dec => exact stepX_effect _ h
  | isz =>
    exact perform_attempt_effect h fun s =>
      .ite (.bind fun _ _ => .ok ((Effect.keep _).withOut _)) (.ok ((Effect.keep _).withOut _))
  | store =>
    exact perform_attempt_effect h fun s => .bind fun _ _ => .ok ((Effect.overflow _ (.inr rfl)).withOut _)
  | toint | fdec | fexp | fchk =>
    exact perform_attempt_effect h fun s => .bind fun _ _ => .ok ((Effect.keep _).withOut _)
  | trunc | fenc | ri => exact perform_ok_effect h fun s => (Effect.keep _).withOut _
  | setws w =>
    refine perform_attempt_effect h fun s => .bind fun _ hm => .bind fun _ hw => .ok ?_
    simp only [require_eq_ok, bne_iff_ne, decide_eq_true_eq] at hm hw
    exact (Effect.wordSize w hm hw.1 hw.2).upToOut
  | setmode m =>
    refine perform_ok_effect h fun s => ?_
    split
    · subst m; exact Effect.floatMode.upToOut
    · exact (Effect.signMode m ‹_›).upToOut
  | wflag f v =>
    refine perform_ok_effect h fun s => ?_
    cases f with
    | c => exact (Effect.flags v s.g (.inr (.inr ⟨_, _, rfl⟩))).upToOut
    | g => exact (Effect.flags s.c v (.inr (.inr ⟨_, _, rfl⟩))).upToOut
  | skipflag f => exact perform_ok_effect h fun s => (doNextIf_effect _ s _).upToOut
  | skipif b => exact perform_ok_effect h fun s => (doNextIf_effect _ s b).upToOut
  | step => exact perform_ok_effect h fun s => (Effect.move _ _ (.inr (s.inc_le s.cur))).upToOut
  | rreg idx => exact perform_attempt_effect h fun s => readRegister_effect _ s _
  | rregI => exact perform_attempt_effect h fun s => .bind fun _ _ => readRegister_effect _ s _
  | wreg idx => exact perform_attempt_effect h fun s => writeRegister_effect (.inl ⟨idx, rfl⟩) s _
  | wregI => exact perform_attempt_effect h fun s => .bind fun _ _ => writeRegister_effect (.inr rfl) s _
  | wi => exact perform_ok_effect h fun s => (Effect.index s.indexOfX s.cur (.inl rfl) (.inl rfl)).upToOut
  | clrreg => exact perform_ok_effect h fun s => Effect.clear.upToOut
  | iszi => exact stepIndex_effect (.inr (.inl rfl)) h
  | dszi => exact stepIndex_effect (.inr (.inr rfl)) h
  | iszind => exact stepIndirect_effect (.inl rfl) h
  | dszind => exact stepIndirect_effect (.inr rfl) h
  | preset => exact perform_attempt_effect h fun s => .bind fun _ _ => .ok Effect.preset.upToOut
  | insert opc => exact perform_attempt_effect h fun s u hu => (Effect.insert opc hu).upToOut
  | delete => exact perform_attempt_effect h fun s u hu => (Effect.delete hu).upToOut
  | setline n =>
    refine perform_attempt_effect h fun s => .bind fun _ hn => .ok (Effect.move _ _ (.inr ?_)).upToOut
    simpa only [require_eq_ok, decide_eq_true_eq] using hn
  | readline n =>
    refine perform_attempt_effect h fun s => .bind fun _ hn => .bind fun _ _ => .ok ?_
    simp only [require_eq_ok, decide_eq_true_eq] at hn
    exact (Effect.resolve _ _ hn.1 hn.2).withOut _
  | goto _ | gotoI | gtoN _ | gtoStoredI => exact gotoTarget_effect _ h
  | gosub _ | gosubI | gsbN _ | gsbStoredI => exact gosubTarget_effect _ h
  | rtn => exact returnCall_effect (.inl rfl) h
  | rtnStored => exact returnCall_effect (.inr rfl) h
  | run =>
    refine perform_ok_effect h fun s => ?_
    split
    · exact (Effect.run _).upToOut
    · exact (Effect.keep _).upToOut
  | runstep => exact runStep_effect h
  | lblN n => exact perform_ok_effect h fun s => (Effect.keep _).upToOut
  | opPM1 o | opPM2 o => exact perform_ok_effect h fun s => (Effect.keep _).withOut _

end Sys2Proof.Machine
end

section
/-! SUPPORT. The frame of each effect of an instruction (10_state.md R20 to R40), and the lines of a sound program. -/

namespace Sys2Proof.Machine

/-! ### Frames -/

/-- INSERT writes the arena, the counts, the cache, the cursor, `dirty` and the counter. -/
theorem insertLine_frame {s u : State} {opc : Opcode} (h : insertLine opc s = .ok u) :
    ∃ m l e k c n, u = ((((((s.setArena m).setLines l).setExt e).setCache k).setCur c).setDirty true).setFreeCtr n := by
  obtain ⟨a, m, -, -, -, rfl⟩ := insertLine_inv h
  exact ⟨_, _, _, _, _, _, rfl⟩

/-- DELETE writes what INSERT does. -/
theorem deleteLine_frame {s u : State} (h : deleteLine s = .ok u) :
    ∃ m l e k c n, u = ((((((s.setArena m).setLines l).setExt e).setCache k).setCur c).setDirty true).setFreeCtr n := by
  obtain ⟨a, b, -, -, -, -, -, rfl⟩ := deleteLine_inv h
  exact ⟨_, _, _, _, _, _, rfl⟩

/-- Running a line writes the cursor, the cache, the return stack and the outputs at most. -/
theorem ControlEffect.frame {s u : State} (h : ControlEffect s u) :
    ∃ k c rs rsp o, u = ((((s.setCur c).setCache k).setRs rs).setRsp rsp).setOut o := by
  cases h with
  | line h =>
    obtain ⟨k, c, rs, rsp, o, rfl, -⟩ := h.frame
    exact ⟨k, c, rs, rsp, o, rfl⟩
  | push =>
    obtain ⟨rs, rsp, h⟩ := s.pushCall_frame
    exact ⟨s.cache, s.cur, rs, rsp, s.out, by rw [h]; rfl⟩

/-- RUNSTEP runs its line with the cursor incremented and some cache. -/
theorem fetch_eq_setCache {s u : State} (hu : u = s.setCur (s.inc s.cur) ∨
    (s.inc s.cur ≠ 0 ∧ u = (s.setCur (s.inc s.cur)).touch (s.inc s.cur))) :
    ∃ k, u = (s.setCur (s.inc s.cur)).setCache k := by
  rcases hu with rfl | ⟨-, rfl⟩
  · exact ⟨s.cache, rfl⟩
  · exact ⟨_, rfl⟩

/-- RUNSTEP writes what running a line does. -/
theorem fetch_frame {s u v : State} (hu : u = s.setCur (s.inc s.cur) ∨
    (s.inc s.cur ≠ 0 ∧ u = (s.setCur (s.inc s.cur)).touch (s.inc s.cur))) (h : ControlEffect u v) :
    ∃ k c rs rsp o, v = ((((s.setCur c).setCache k).setRs rs).setRsp rsp).setOut o := by
  obtain ⟨k, rfl⟩ := fetch_eq_setCache hu
  obtain ⟨k, c, rs, rsp, o, rfl⟩ := h.frame
  exact ⟨k, c, rs, rsp, o, rfl⟩

/-- Which instructions write the word size, the mode, the flags, I, the arena and `dirty`; none writes a parameter, an
input port or the host's queue. -/
theorem Effect.writes {s u : State} {i : Instr} (h : Effect s i u) :
    ((∀ w, i ≠ .setws w) → i ≠ .setmode .float → u.ws = s.ws) ∧
    ((∀ m, i ≠ .setmode m) → u.mode = s.mode) ∧
    ((∀ f v, i ≠ .wflag f v) → i ≠ .add → i ≠ .sub → u.c = s.c) ∧
    ((∀ f v, i ≠ .wflag f v) → i ≠ .add → i ≠ .sub → i ≠ .neg → i ≠ .store → u.g = s.g) ∧
    (i ≠ .wi → i ≠ .clrreg → i ≠ .iszi → i ≠ .dszi → u.ireg = s.ireg) ∧
    ((∀ n, i ≠ .wreg n) → i ≠ .wregI → i ≠ .clrreg → i ≠ .iszind → i ≠ .dszind → (∀ o, i ≠ .insert o) →
      i ≠ .delete → i ≠ .preset → u.arena = s.arena) ∧
    (s.dirty = true → u.dirty = true) ∧
    ((∀ n, i ≠ .wreg n) → i ≠ .wregI → i ≠ .wi → i ≠ .clrreg → i ≠ .iszi → i ≠ .dszi → i ≠ .iszind →
      i ≠ .dszind → (∀ o, i ≠ .insert o) → i ≠ .delete → i ≠ .preset → u.dirty = s.dirty) ∧
    u.params = s.params ∧ u.inp = s.inp ∧ u.pending = s.pending := by
  cases h with
  | keep | move | run => simp
  | resolve => simp [State.touch]
  | flags c g hi => rcases hi with rfl | rfl | ⟨f, v, rfl⟩ <;> simp
  | overflow g hi => rcases hi with rfl | rfl <;> simp
  | wordSize w | signMode m | floatMode | clear => simp
  | index v c hi => rcases hi with rfl | rfl | rfl <;> simp
  | slot n v c hi => rcases hi with ⟨n, rfl⟩ | rfl | rfl | rfl <;> simp
  | preset => simp [State.clearProgram]
  | insert opc h =>
    obtain ⟨m, l, e, k, c, n, rfl⟩ := insertLine_frame h
    simp
  | delete h =>
    obtain ⟨m, l, e, k, c, n, rfl⟩ := deleteLine_frame h
    simp
  | control i h =>
    obtain ⟨k, c, rs, rsp, o, rfl⟩ := h.frame
    simp
  | fetch hu h =>
    obtain ⟨k, c, rs, rsp, o, rfl⟩ := fetch_frame hu h
    simp

/-- Settles O18: each instruction has one of the effects of `Effect`, and each effect names the instructions that
can have it. -/
theorem stateWrittenOnlyByNamedCommands : Obligations.StateWrittenOnlyByNamedCommands := by
  unfold Obligations.StateWrittenOnlyByNamedCommands
  intro i s t h
  obtain ⟨u, o, hu, rfl⟩ := exec_effect h
  exact hu.writes

/-- Settles O15: the forward scan and the replay of the program walk the same lines. -/
theorem linesLieBackToBack : Obligations.LinesLieBackToBack := by
  unfold Obligations.LinesLieBackToBack
  intro s hp
  exact ⟨rfl, (replay_some hp.2).1, fun l h1 hl => hp.line h1 hl⟩

end Sys2Proof.Machine
end

section
/-! SUPPORT. What a step can do, and that every step keeps the bounds of 10_state.md R41. -/

namespace Sys2Proof.Machine

/-! ### The step -/

/-- What a step can do: it idles, runs or refuses the host's next command, or performs LOAD or SAVE. -/
theorem step_cases {s t : State} (h : step s = .next t) :
    t = s.setOut Outputs.absent ∨
    (∃ p rest i, s.pending = .command p :: rest ∧ decodeCommand p.cmd = .ok i ∧
      exec i ((s.setPending rest).setInp p) = .next t) ∨
    (∃ p rest, t = ((s.setPending rest).setInp p).reportRefusal .reservedEncoding) ∨
    (∃ img rest, t = loadImage img (s.setPending rest)) ∨
    (∃ rest, t = saveImage (s.setPending rest)) := by
  unfold step at h
  split at h
  · cases h; exact .inl rfl
  · rename_i p rest hp
    unfold stepCommand at h
    split at h
    · rename_i i hi
      exact .inr (.inl ⟨p, rest, i, hp, hi, h⟩)
    · cases h; exact .inr (.inr (.inl ⟨p, rest, rfl⟩))
  · cases h; exact .inr (.inr (.inr (.inl ⟨_, _, rfl⟩)))
  · cases h; exact .inr (.inr (.inr (.inr ⟨_, rfl⟩)))

/-! ### What the parts of R41 depend on -/

theorem State.WordOk.congr {s u : State} (h : s.WordOk) (hw : u.ws = s.ws) (hm : u.mode = s.mode) : u.WordOk := by
  rw [State.WordOk, hw, hm]
  exact h

theorem State.StackOk.congr {s u : State} (h : s.StackOk) (hp : u.params = s.params) (hrs : u.rs = s.rs)
    (hrsp : u.rsp = s.rsp) : u.StackOk := by
  rw [State.StackOk, hp, hrs, hrsp]
  exact h

theorem State.progSize_congr {s u : State} (hl : u.lines = s.lines) (he : u.ext = s.ext) :
    u.progSize = s.progSize := by
  rw [State.progSize, State.progSize, hl, he]

theorem State.ArenaOk.congr {s u : State} (h : s.ArenaOk) (ha : u.arena = s.arena) (hl : u.lines = s.lines)
    (he : u.ext = s.ext) : u.ArenaOk := by
  rw [State.ArenaOk, ha, State.progSize_congr hl he]
  exact h

/-- The cache before any line is resolved is that of line 1. -/
theorem State.cacheOk_start {s : State} (h : s.cache = LineCache.start) : s.CacheOk := by
  simp [State.CacheOk, h, LineCache.start, State.lineAddr, lineAddrFrom]

/-- A program without lines is sound. -/
theorem State.programOk_empty {s : State} (hl : s.lines = 0) (he : s.ext = 0) : s.ProgramOk := by
  simp [State.ProgramOk, State.progSize, hl, he, replay]

/-! ### The program emptied, and LOAD -/

/-- An emptied program is sound, whatever the program before it was. -/
theorem State.clearProgram_inv {s : State} (hw : s.WordOk) (hc : 1 ≤ s.params.cap) (ha : s.arena.wf = true) :
    s.clearProgram.Inv := by
  generalize ht : s.clearProgram = t
  simp only [State.clearProgram] at ht
  have hp : t.ProgramOk := State.programOk_empty (by simp [← ht]) (by simp [← ht])
  have hst : t.StackOk := by simp [State.StackOk, ← ht]; omega
  have hrs : ∀ l ∈ t.rs, l ≤ maxLines := by simp [← ht]
  exact ⟨⟨⟨hw.congr (by simp [← ht]) (by simp [← ht]), hst, by simpa [← ht] using ha, hp.size_le⟩, hp,
    State.cacheOk_start (by simp [← ht]), hrs⟩, by simp [← ht]⟩

/-- The second stage of LOAD leaves a sound program. -/
theorem loadProgram_inv (img : Image) {s : State} (hw : s.WordOk) (hc : 1 ≤ s.params.cap) (ha : s.arena.wf = true) :
    (loadProgram img s).Inv ∧ (loadProgram img s).params = s.params := by
  rcases loadProgram_cases img s with ⟨l, e, c, rs, rsp, hv, ht⟩ | ht
  · obtain ⟨hl, hr, hcur, hlen, hrs, hlo, hhi⟩ := validProgram_some hv
    generalize loadProgram img s = t at ht
    have hp : t.ProgramOk := by simp [State.ProgramOk, State.progSize, ht, hl, hr]
    have hst : t.StackOk := by simp [State.StackOk, ht]; omega
    have hst' : t.StoreOk := ⟨⟨hw.congr (by simp [ht]) (by simp [ht]), hst, by simpa [ht] using ha, hp.size_le⟩, hp,
      State.cacheOk_start (by simp [ht]), by simpa [ht] using hrs⟩
    exact ⟨⟨hst', by simpa [ht] using hcur⟩, by simp [ht]⟩
  · rw [ht]
    exact ⟨s.clearProgram_inv hw hc ha, by simp [State.clearProgram]⟩

/-- LOAD rejects the image and changes nothing but the outputs, or it leaves a sound program. -/
theorem loadImage_keeps (img : Image) {s : State} (hw : s.WordOk) (hc : 1 ≤ s.params.cap) :
    (∃ o, loadImage img s = s.setOut o) ∨ (loadImage img s).Inv ∧ (loadImage img s).params = s.params := by
  rcases loadImage_cases img s with h | ⟨ds, v, hds, h⟩
  · exact .inl ⟨_, h⟩
  · rw [h]
    exact .inr (loadProgram_inv img (s := (s.setArena (Memory.ofNybbles 0 ds)).setIreg v) hw hc
      (Memory.ofNybbles_wf 0 ds (by omega)))

/-! ### The bounds -/

theorem LineEffect.stackOk {s u : State} (h : LineEffect s u) (hs : s.StackOk) : u.StackOk := by
  obtain ⟨h1, h2, h3, h4⟩ := id hs
  cases h with
  | same | jump | disp => exact hs
  | call l hc => exact State.pushCall_stackOk hs hc
  | ret hr => simp [State.StackOk]; omega
  | halt => simp [State.StackOk]; omega

theorem ControlEffect.stackOk {s u : State} (h : ControlEffect s u) (hs : s.StackOk) : u.StackOk := by
  cases h with
  | line h => exact h.stackOk hs
  | push hc => exact State.pushCall_stackOk hs hc

theorem ControlEffect.boundsOk {s u : State} (h : ControlEffect s u) (hb : s.BoundsOk) : u.BoundsOk := by
  have hst := h.stackOk hb.2.1
  obtain ⟨k, c, rs, rsp, o, rfl⟩ := h.frame
  exact ⟨hb.1.congr (by simp) (by simp), hst, hb.2.2.congr (by simp) (by simp) (by simp)⟩

theorem storedSize_storedBytes (opc : Opcode) :
    storedSize (storedBytes opc) = 2 ∨ storedSize (storedBytes opc) = 4 := by
  unfold storedSize storedBytes
  split <;> simp

/-- INSERT keeps the arena canonical and the program inside it. -/
theorem insertLine_arenaOk {s u : State} {opc : Opcode} (h : insertLine opc s = .ok u) (ha : s.ArenaOk) :
    u.ArenaOk := by
  obtain ⟨a, m, -, hfit, hm, rfl⟩ := insertLine_inv h
  have hwf : m.wf = true := writeBytes_wf hm (Memory.wf_moveUp _ _ _ ha.1)
  rcases storedSize_storedBytes opc with hsz | hsz <;>
    simp [State.ArenaOk, State.progSize, hsz, hwf] at hfit ⊢ <;> omega

/-- DELETE keeps the arena canonical and the program inside it. -/
theorem deleteLine_arenaOk {s u : State} (h : deleteLine s = .ok u) (ha : s.ArenaOk) : u.ArenaOk := by
  obtain ⟨a, b, -, -, -, -, hP, rfl⟩ := deleteLine_inv h
  have hwf := Memory.wf_zero (s.progSize - s.deleteWidth a) (s.progSize - (s.progSize - s.deleteWidth a))
    (Memory.wf_moveDown a (s.deleteWidth a) (s.progSize - s.deleteWidth a - a) ha.1)
  refine ⟨by simpa [deleteAt] using hwf, ?_⟩
  simp [State.progSize, deleteAt] at hP ⊢
  split <;> omega

/-- Every effect of an instruction keeps the bounds. -/
theorem Effect.boundsOk {s u : State} {i : Instr} (h : Effect s i u) (hb : s.BoundsOk) : u.BoundsOk := by
  obtain ⟨hw, hs, ha⟩ := id hb
  cases h with
  | keep | flags | overflow | move | resolve => exact hb
  | index =>
    exact ⟨hw.congr (by simp) (by simp), hs.congr (by simp) (by simp) (by simp),
      ha.congr (by simp) (by simp) (by simp)⟩
  | wordSize w hm h1 h2 => exact ⟨⟨h1, h2, fun h => absurd h hm⟩, hs, ha⟩
  | signMode m hm => exact ⟨⟨hw.1, hw.2.1, fun h => absurd h hm⟩, hs, ha⟩
  | floatMode => exact ⟨by simp [State.WordOk], hs, ha⟩
  | slot n v =>
    exact ⟨hw.congr (by simp) (by simp), hs.congr (by simp) (by simp) (by simp),
      by simpa using Memory.wf_writeN (s.slotAddr n) s.npr v ha.1, by simpa [State.progSize] using ha.2⟩
  | clear =>
    exact ⟨hw.congr (by simp) (by simp), hs.congr (by simp) (by simp) (by simp),
      by simpa using Memory.wf_zero s.progSize (arenaSize - s.progSize) ha.1, by simpa [State.progSize] using ha.2⟩
  | preset =>
    exact (State.clearProgram_inv (s := s.setArena (s.arena.zero 0 s.progSize)) hw hs.1
      (Memory.wf_zero 0 s.progSize ha.1)).1.1
  | insert opc h =>
    have hA := insertLine_arenaOk h ha
    obtain ⟨m, l, e, k, c, n, rfl⟩ := insertLine_frame h
    exact ⟨hw.congr (by simp) (by simp), hs.congr (by simp) (by simp) (by simp), hA⟩
  | delete h =>
    have hA := deleteLine_arenaOk h ha
    obtain ⟨m, l, e, k, c, n, rfl⟩ := deleteLine_frame h
    exact ⟨hw.congr (by simp) (by simp), hs.congr (by simp) (by simp) (by simp), hA⟩
  | run => exact ⟨hw, by simp [State.StackOk]; omega, ha⟩
  | control i h => exact h.boundsOk hb
  | fetch hu h =>
    obtain ⟨k, rfl⟩ := fetch_eq_setCache hu
    exact h.boundsOk hb

/-- Settles O10: every effect of an instruction keeps the bounds, and so do LOAD and SAVE. -/
theorem stepKeepsBounds : Obligations.StepKeepsBounds := by
  unfold Obligations.StepKeepsBounds
  intro s t hb h
  rcases step_cases h with rfl | ⟨p, rest, i, -, -, h⟩ | ⟨p, rest, rfl⟩ | ⟨img, rest, rfl⟩ | ⟨rest, rfl⟩
  · exact ⟨hb, rfl⟩
  · obtain ⟨u, o, hu, rfl⟩ := exec_effect h
    obtain ⟨-, -, -, -, -, -, -, -, hparams, -⟩ := hu.writes
    exact ⟨hu.boundsOk hb, hparams⟩
  · exact ⟨hb, rfl⟩
  · rcases loadImage_keeps img (s := s.setPending rest) hb.1 hb.2.1.1 with ⟨o, ho⟩ | ⟨hi, hp⟩
    · rw [ho]; exact ⟨hb, rfl⟩
    · exact ⟨hi.1.1, hp⟩
  · exact ⟨hb, rfl⟩

end Sys2Proof.Machine
end

section
/-! SUPPORT. That every step keeps the stored program sound (10_state.md R28, R29, R36, R41), and where the cursor goes
(R30, R269). -/

namespace Sys2Proof.Machine

/-! ### The stored lines -/

theorem State.CacheOk.congr {s u : State} (h : s.CacheOk) (hc : u.cache = s.cache) (hl : u.lines = s.lines)
    (ha : u.lineAddr s.cache.cLine = s.lineAddr s.cache.cLine) : u.CacheOk := by
  rw [State.CacheOk, hc, hl, ha]
  exact h

/-- What a stored program is, with saved lines of a program's size. -/
abbrev State.LinesOk (s : State) : Prop := s.ProgramOk ∧ s.CacheOk ∧ ∀ l ∈ s.rs, l ≤ maxLines

/-- The lines stay sound where the arena is written above the program only. -/
theorem State.LinesOk.write_above {s u : State} (h : s.LinesOk) (hl : u.lines = s.lines) (he : u.ext = s.ext)
    (hk : u.cache = s.cache) (hrs : ∀ l ∈ u.rs, l ≤ maxLines)
    (hm : ∀ b, b < s.progSize → u.arena.get b = s.arena.get b) : u.LinesOk := by
  obtain ⟨hp, hc, -⟩ := h
  obtain ⟨a, x, hr, -, ha, hle, -⟩ := hp.split (n := s.cache.cLine - 1) (by have := hc.2.1; omega)
  refine ⟨?_, hc.congr hk hl ?_, hrs⟩
  · rw [State.ProgramOk, State.progSize_congr hl he, hl, he]
    exact ⟨hp.1, replay_congr hp.2 (Nat.zero_le _) fun b _ hb => hm b hb⟩
  · rw [State.lineAddr, State.lineAddr, ha]
    exact (replay_some (replay_congr hr (Nat.zero_le _) fun b _ hb => hm b (by omega))).1

/-- A jump to a line keeps the lines, the cache and the saved lines sound. -/
theorem State.LinesOk.jump {s : State} (h : s.LinesOk) {l c : Nat} (h1 : 1 ≤ l) (hl : l ≤ s.lines + 1) :
    ((s.touch l).setCur c).LinesOk :=
  ⟨h.1, State.touch_cacheOk h.1 h.2.1 h1 hl, h.2.2⟩

theorem State.pushCall_saved_le {s : State} (hrs : ∀ l ∈ s.rs, l ≤ maxLines) (hcur : s.cur ≤ maxLines) :
    ∀ l ∈ s.pushCall.rs, l ≤ maxLines := by
  unfold State.pushCall
  split
  · exact hrs
  · intro l hl
    rcases List.mem_or_eq_of_mem_set hl with h | rfl
    · exact hrs l h
    · exact hcur

theorem State.LinesOk.pushCall {s : State} (h : s.LinesOk) (hcur : s.cur ≤ maxLines) : s.pushCall.LinesOk := by
  obtain ⟨rs, rsp, hf⟩ := s.pushCall_frame
  exact h.write_above (by simp [hf]) (by simp [hf]) (by simp [hf]) (State.pushCall_saved_le h.2.2 hcur)
    fun b _ => by simp [hf]

theorem ControlEffect.linesOk {s u : State} (h : ControlEffect s u) (hs : s.LinesOk) (hcur : s.cur ≤ maxLines) :
    u.LinesOk := by
  cases h with
  | push => exact hs.pushCall hcur
  | line h =>
    cases h with
    | same | ret | halt | disp => exact hs
    | jump l h1 h2 => exact hs.jump h1 (by omega)
    | call l _ h1 h2 => exact (hs.pushCall hcur).jump h1 (by simp; omega)

/-- The opcode of an INSERT that ends well. -/
theorem insertLine_opcode_le {s u : State} {opc : Opcode} (h : insertLine opc s = .ok u) : opc.toNat ≤ 0x1FE := by
  simp only [insertLine, Attempt.bind_eq_ok, require_eq_ok, decide_eq_true_eq] at h
  obtain ⟨-, ho, -⟩ := h
  exact ho

theorem insertLine_linesOk {s u : State} {opc : Opcode} (h : insertLine opc s = .ok u) (hs : s.LinesOk) :
    u.LinesOk := by
  have ho := insertLine_opcode_le h
  obtain ⟨sz, hsz, hsize, -⟩ := storedBytes_spec opc ho
  obtain ⟨-, -, -, hfit, -⟩ := insertLine_inv h
  have hpt := s.insertPoint_cases
  obtain ⟨m, a, -, -, hok, -, -, -, -, -, -, ⟨hmax, hr⟩, -⟩ :=
    insertLine_spec hs.1 (c := s.insertPoint - 1) (by omega) ho hsz (hsize ▸ hfit)
  rw [hok, Except.ok.injEq] at h
  have hp : u.ProgramOk := by simp [State.ProgramOk, State.progSize, ← h, hmax, hr]
  exact ⟨hp, State.cacheOk_start (by simp [← h]), by simpa [← h] using hs.2.2⟩

theorem deleteLine_linesOk {s u : State} (h : deleteLine s = .ok u) (hs : s.LinesOk) : u.LinesOk := by
  obtain ⟨-, -, -, -, hl, hcur, -⟩ := deleteLine_inv h
  obtain ⟨h1, h2, -⟩ := State.deletePoint_cases hl hcur
  have hmax := hs.1.1
  have hp : u.ProgramOk ∧ u.cache = LineCache.start ∧ u.rs = s.rs := by
    by_cases hc : s.cur = s.lines + 1
    · obtain ⟨m, w, b, e, -, -, -, hok, -, -, -, hr⟩ := deleteLine_past hs.1 hl hc
      rw [hok, Except.ok.injEq] at h
      simp [State.ProgramOk, State.progSize, ← h, hr]
      omega
    · obtain ⟨m, a, w, e, -, -, -, -, hok, -, -, -, -, -, -, hr, -⟩ := deleteLine_spec hs.1 hcur rfl h1 (h2 hc)
      rw [hok, Except.ok.injEq] at h
      simp [State.ProgramOk, State.progSize, ← h, hr]
      omega
  exact ⟨hp.1, State.cacheOk_start hp.2.1, hp.2.2 ▸ hs.2.2⟩

/-- Every effect of an instruction keeps the lines, the cache and the saved lines sound. -/
theorem Effect.linesOk {s u : State} {i : Instr} (h : Effect s i u) (hb : s.BoundsOk) (hs : s.LinesOk)
    (hcur : s.cur ≤ maxLines) : u.LinesOk := by
  obtain ⟨hp, -, hrs⟩ := id hs
  cases h with
  | keep | flags | overflow | wordSize | signMode | floatMode | move | index | run => exact hs
  | slot n v c _ hn =>
    exact hs.write_above (by simp) (by simp) (by simp) (by simpa using hrs)
      fun b hlt => by simpa using slotWrite_below hb.2.2.2 hn b hlt
  | clear =>
    exact hs.write_above (by simp) (by simp) (by simp) (by simpa using hrs)
      fun b hlt => by simpa using Memory.get_zero_outside (.inl hlt)
  | preset =>
    exact (State.clearProgram_inv (s := s.setArena (s.arena.zero 0 s.progSize)) hb.1 hb.2.1.1
      (Memory.wf_zero 0 s.progSize hb.2.2.1)).1.2
  | insert opc h => exact insertLine_linesOk h hs
  | delete h => exact deleteLine_linesOk h hs
  | resolve i l h1 h2 => exact hs.jump (c := s.cur) h1 (by omega)
  | control i h => exact h.linesOk hs hcur
  | fetch hu h =>
    have hi := s.inc_le s.cur
    have hmax := hp.1
    rcases hu with rfl | ⟨h0, rfl⟩
    · exact h.linesOk hs (hi.trans hmax)
    · refine h.linesOk (hs.jump (c := s.inc s.cur) ?_ ?_) (hi.trans hmax) <;> omega

/-! ### The cursor -/

/-- The state `u` has popped from the return stack of `s` the line its cursor is on, with the same program. -/
def State.Pops (s u : State) : Prop :=
  0 < s.rsp ∧ s.rs[s.rsp.toNat]? = some u.cur ∧ u.rsp = s.rsp - 1 ∧ u.lines = s.lines ∧ u.arena = s.arena

/-- The cursor after running a line: on a line, where it was, or where a return went. -/
theorem ControlEffect.cur_cases {s u : State} (h : ControlEffect s u) (hs : s.StackOk) :
    u.lines = s.lines ∧ (u.cur ≤ u.lines ∨ u.cur = s.cur ∨ s.Pops u) := by
  cases h with
  | push => exact ⟨s.pushCall_lines, .inr (.inl s.pushCall_cur)⟩
  | line h =>
    cases h with
    | same | disp => exact ⟨rfl, .inr (.inl rfl)⟩
    | jump l _ h2 => exact ⟨rfl, .inl h2⟩
    | call l _ _ h2 => exact ⟨s.pushCall_lines, .inl (by simpa [State.touch] using h2)⟩
    | halt => exact ⟨rfl, .inl (Nat.zero_le _)⟩
    | ret h0 =>
      have hlt : s.rsp.toNat < s.rs.length := by omega
      exact ⟨rfl, .inr (.inr ⟨h0, by simp [hlt], rfl, rfl, rfl⟩)⟩

/-- The cursor after an instruction: on a line, where it was in the same program, where a return went, or, where DELETE
works past the last line, on the number of the line taken out. -/
theorem Effect.cur_cases {s u : State} {i : Instr} (h : Effect s i u) (hs : s.StackOk) :
    u.cur ≤ u.lines ∨ (u.cur = s.cur ∧ u.lines = s.lines) ∨ (s.lines < s.cur ∧ u.cur = s.lines) ∨
      ((i = .rtn ∨ i = .rtnStored ∨ i = .runstep) ∧ s.Pops u) := by
  cases h with
  | keep | flags | overflow | wordSize | signMode | floatMode | clear | resolve | run => exact .inr (.inl ⟨rfl, rfl⟩)
  | move i c hc | index v c _ hc | slot n v c _ _ hc =>
    rcases hc with rfl | hc
    · exact .inr (.inl (by simp))
    · exact .inl (by simpa using hc)
  | preset => exact .inl (by simp [State.clearProgram])
  | insert opc h =>
    obtain ⟨a, m, -, -, -, rfl⟩ := insertLine_inv h
    exact .inl (by simpa using s.insertPoint_cases.2.1)
  | delete h =>
    obtain ⟨a, b, -, -, hl, hcur, -, rfl⟩ := deleteLine_inv h
    obtain ⟨h1, h2, h3⟩ := State.deletePoint_cases hl hcur
    simp [deleteAt]
    omega
  | control i h hi =>
    obtain ⟨hl, hc | hc | hc⟩ := h.cur_cases hs
    · exact .inl hc
    · exact .inr (.inl ⟨hc, hl⟩)
    · rcases hi with hi | hi | hi | hi
      · exact .inr (.inr (.inr ⟨.inl hi, hc⟩))
      · exact .inr (.inr (.inr ⟨.inr (.inl hi), hc⟩))
      · exact .inr (.inl ⟨hi, hl⟩)
      · exact .inl hi
  | fetch hu h =>
    obtain ⟨k, rfl⟩ := fetch_eq_setCache hu
    obtain ⟨hl, hc | hc | hc⟩ := h.cur_cases hs
    · exact .inl hc
    · exact .inl (hc.trans_le ((s.inc_le s.cur).trans_eq hl.symm))
    · exact .inr (.inr (.inr ⟨.inr (.inr rfl), hc⟩))

/-! ### Command words -/

theorem fmtN_eq_ok {f : Nat} {i j : Instr} : fmtN f i = .ok j ↔ f = 0 ∧ i = j := by
  unfold fmtN
  split <;> simp [*]

theorem fmtField_eq_ok {k f : Nat} {g : Nat → Instr} {j : Instr} :
    fmtField k f g = .ok j ↔ f < 2 ^ k ∧ g f = j := by
  unfold fmtField
  split <;> simp [*]

theorem fmtInd_eq_ok {k f : Nat} {g : Nat → Instr} {i j : Instr} :
    fmtInd k f g i = .ok j ↔ f < 2 ^ 25 ∧ f < 2 ^ k ∧ g f = j ∨ 2 ^ 25 ≤ f ∧ f % 2 ^ 25 = 0 ∧ i = j := by
  unfold fmtInd
  generalize 2 ^ 25 = n
  by_cases h : f < n
  · rw [if_pos h]
    split <;> simp [*, Nat.not_le.2 h]
  · rw [if_neg h]
    repeat' split
    all_goals simp [*, Nat.not_lt.1 h]

/-- No command word is the stored line RTN (R72). -/
theorem decodeCommand_ne_rtnStored (w : CmdWord) : decodeCommand w ≠ .ok .rtnStored := by
  unfold decodeCommand
  split <;> simp [fmtN_eq_ok, fmtField_eq_ok, fmtInd_eq_ok]

/-- Settles O11: each effect of an instruction keeps the stored program, and takes the cursor off the lines only where a
return pops a line past the last one; LOAD and SAVE keep it too. -/
theorem stepKeepsStoredProgram : Obligations.StepKeepsStoredProgram := by
  unfold Obligations.StepKeepsStoredProgram
  intro s t hs hcur h
  rcases step_cases h with rfl | ⟨p, rest, i, hpend, hdec, h⟩ | ⟨p, rest, rfl⟩ | ⟨img, rest, rfl⟩ | ⟨rest, rfl⟩
  · exact ⟨hs, hcur, .inl⟩
  · obtain ⟨u, o, hu, rfl⟩ := exec_effect h
    have hlines := hu.linesOk hs.1 hs.2 hcur
    have hmax := hs.2.1.1
    refine ⟨⟨hu.boundsOk hs.1, hlines⟩, ?_⟩
    rcases hu.cur_cases hs.1.2.1 with hc | ⟨hc, hl⟩ | ⟨hlt, hc⟩ | ⟨hi, hpos, htop, hrsp, hl, ha⟩
    · exact ⟨hc.trans hlines.1.1, fun _ => .inl hc⟩
    · exact ⟨hc.trans_le hcur, fun h => .inl (hc.trans_le (h.trans_eq hl.symm))⟩
    · exact ⟨hc.trans_le hmax, fun h => absurd h hlt.not_ge⟩
    · refine ⟨hs.2.2.2 _ (List.mem_of_getElem? htop), fun _ => .inr ⟨⟨hpos, htop, p, rest, hpend, ?_⟩, hrsp, hl, ha⟩⟩
      rcases hi with rfl | rfl | rfl
      · exact .inl hdec
      · exact absurd hdec (decodeCommand_ne_rtnStored _)
      · exact .inr hdec
  · exact ⟨hs, hcur, .inl⟩
  · rcases loadImage_keeps img (s := s.setPending rest) hs.1.1 hs.1.2.1.1 with ⟨o, ho⟩ | ⟨⟨hst, hc⟩, -⟩
    · rw [ho]; exact ⟨hs, hcur, .inl⟩
    · exact ⟨hst, hc.trans hst.2.1.1, fun _ => .inl hc⟩
  · exact ⟨hs, hcur, .inl⟩

end Sys2Proof.Machine
end

section
/-! SUPPORT. Noninterference (10_state.md R36): a command, LOAD and SAVE give the same outcome, but for the cache, on a
state and on that state with its cache hidden. -/

namespace Sys2Proof.Machine

/-! ### The state with its cache hidden -/

@[simp] theorem State.visible_visible (s : State) : s.visible.visible = s.visible := rfl
@[simp] theorem State.visible_setCache (s : State) (k : LineCache) : (s.setCache k).visible = s.visible := rfl
@[simp] theorem State.visible_touch (s : State) (l : Nat) : (s.touch l).visible = s.visible := rfl
@[simp] theorem State.visible_params (s : State) : s.visible.params = s.params := rfl
@[simp] theorem State.visible_ws (s : State) : s.visible.ws = s.ws := rfl
@[simp] theorem State.visible_mode (s : State) : s.visible.mode = s.mode := rfl
@[simp] theorem State.visible_c (s : State) : s.visible.c = s.c := rfl
@[simp] theorem State.visible_g (s : State) : s.visible.g = s.g := rfl
@[simp] theorem State.visible_arena (s : State) : s.visible.arena = s.arena := rfl
@[simp] theorem State.visible_ireg (s : State) : s.visible.ireg = s.ireg := rfl
@[simp] theorem State.visible_lines (s : State) : s.visible.lines = s.lines := rfl
@[simp] theorem State.visible_ext (s : State) : s.visible.ext = s.ext := rfl
@[simp] theorem State.visible_cur (s : State) : s.visible.cur = s.cur := rfl
@[simp] theorem State.visible_rs (s : State) : s.visible.rs = s.rs := rfl
@[simp] theorem State.visible_rsp (s : State) : s.visible.rsp = s.rsp := rfl
@[simp] theorem State.visible_dirty (s : State) : s.visible.dirty = s.dirty := rfl
@[simp] theorem State.visible_inp (s : State) : s.visible.inp = s.inp := rfl
@[simp] theorem State.visible_pending (s : State) : s.visible.pending = s.pending := rfl
@[simp] theorem State.visible_out (s : State) : s.visible.out = s.out := rfl
@[simp] theorem State.visible_freeCtr (s : State) : s.visible.freeCtr = s.freeCtr := rfl

@[simp] theorem State.visible_setWs (s : State) (v : Nat) : (s.setWs v).visible = s.visible.setWs v := rfl
@[simp] theorem State.visible_setMode (s : State) (v : Mode) : (s.setMode v).visible = s.visible.setMode v := rfl
@[simp] theorem State.visible_setC (s : State) (v : Bool) : (s.setC v).visible = s.visible.setC v := rfl
@[simp] theorem State.visible_setG (s : State) (v : Bool) : (s.setG v).visible = s.visible.setG v := rfl
@[simp] theorem State.visible_setArena (s : State) (v : Memory) : (s.setArena v).visible = s.visible.setArena v := rfl
@[simp] theorem State.visible_setIreg (s : State) (v : Value) : (s.setIreg v).visible = s.visible.setIreg v := rfl
@[simp] theorem State.visible_setLines (s : State) (v : Nat) : (s.setLines v).visible = s.visible.setLines v := rfl
@[simp] theorem State.visible_setExt (s : State) (v : Nat) : (s.setExt v).visible = s.visible.setExt v := rfl
@[simp] theorem State.visible_setCur (s : State) (v : Nat) : (s.setCur v).visible = s.visible.setCur v := rfl
@[simp] theorem State.visible_setRs (s : State) (v : List Nat) : (s.setRs v).visible = s.visible.setRs v := rfl
@[simp] theorem State.visible_setRsp (s : State) (v : Int) : (s.setRsp v).visible = s.visible.setRsp v := rfl
@[simp] theorem State.visible_setDirty (s : State) (v : Bool) : (s.setDirty v).visible = s.visible.setDirty v := rfl
@[simp] theorem State.visible_setInp (s : State) (v : InPorts) : (s.setInp v).visible = s.visible.setInp v := rfl
@[simp] theorem State.visible_setPending (s : State) (v : List HostOp) : (s.setPending v).visible = s.visible.setPending v :=
  rfl
@[simp] theorem State.visible_setOut (s : State) (v : Outputs) : (s.setOut v).visible = s.visible.setOut v := rfl
@[simp] theorem State.visible_setFreeCtr (s : State) (v : Nat) : (s.setFreeCtr v).visible = s.visible.setFreeCtr v :=
  rfl

/-! ### What reads of the state do not see -/

@[simp] theorem State.visible_progSize (s : State) : s.visible.progSize = s.progSize := rfl
@[simp] theorem State.visible_npr (s : State) : s.visible.npr = s.npr := rfl
@[simp] theorem State.visible_slotAddr (s : State) (i : Nat) : s.visible.slotAddr i = s.slotAddr i := rfl
@[simp] theorem State.visible_xWord (s : State) : s.visible.xWord = s.xWord := rfl
@[simp] theorem State.visible_yWord (s : State) : s.visible.yWord = s.yWord := rfl
@[simp] theorem State.visible_toInt (s : State) (v : Nat) : s.visible.toInt v = s.toInt v := rfl
@[simp] theorem State.visible_encode (s : State) (n : Int) : s.visible.encode n = s.encode n := rfl
@[simp] theorem State.visible_indexOfX (s : State) : s.visible.indexOfX = s.indexOfX := rfl
@[simp] theorem State.visible_requireInteger (s : State) : s.visible.requireInteger = s.requireInteger := rfl
@[simp] theorem State.visible_iaddr (s : State) : s.visible.iaddr = s.iaddr := rfl
@[simp] theorem State.visible_labelFromI (s : State) : s.visible.labelFromI = s.labelFromI := rfl
@[simp] theorem State.visible_checkReg (s : State) (i : Option Nat) : s.visible.checkReg i = s.checkReg i := rfl
@[simp] theorem State.visible_slotRead (s : State) (i : Nat) : s.visible.slotRead i = s.slotRead i := rfl
@[simp] theorem State.visible_inc (s : State) (l : Nat) : s.visible.inc l = s.inc l := rfl
@[simp] theorem State.visible_lineAddr (s : State) (l : Nat) : s.visible.lineAddr l = s.lineAddr l := rfl
@[simp] theorem State.visible_opcodeAt (s : State) (l : Nat) : s.visible.opcodeAt l = s.opcodeAt l := rfl
@[simp] theorem State.visible_candidate (s : State) (k : Nat) : s.visible.candidate k = s.candidate k := rfl
@[simp] theorem State.visible_insertPoint (s : State) : s.visible.insertPoint = s.insertPoint := rfl
@[simp] theorem State.visible_deletePoint (s : State) : s.visible.deletePoint = s.deletePoint := rfl
@[simp] theorem State.visible_deleteWidth (s : State) (a : Nat) : s.visible.deleteWidth a = s.deleteWidth a := rfl
@[simp] theorem State.visible_ctrAfterEdit (s : State) : s.visible.ctrAfterEdit = s.ctrAfterEdit := rfl
@[simp] theorem State.visible_image (s : State) : s.visible.image = s.image := rfl

@[simp] theorem scanFrom_visible (s : State) (lbl : Label) (n k : Nat) :
    scanFrom s.visible lbl n k = scanFrom s lbl n k := by
  induction n generalizing k with
  | zero => rfl
  | succ n ih => simp only [scanFrom, State.visible_candidate, State.visible_opcodeAt, State.visible_params, ih]

@[simp] theorem State.visible_scan (s : State) (lbl : Label) : s.visible.scan lbl = s.scan lbl := by
  simp only [State.scan, State.visible_lines, scanFrom_visible]

@[simp] theorem State.visible_doNextIf (s : State) (b : Bool) : (s.doNextIf b).visible = s.visible.doNextIf b := by
  cases b <;> rfl

@[simp] theorem State.visible_pushCall (s : State) : s.pushCall.visible = s.visible.pushCall := by
  by_cases h : s.rsp = -1 <;> simp [State.pushCall, h]

theorem State.visible_clearProgram (s : State) : s.visible.clearProgram.visible = s.clearProgram.visible := by
  simp [State.clearProgram]

theorem deleteAt_visible (s : State) (a gone : Nat) :
    (deleteAt s.visible a gone).visible = (deleteAt s a gone).visible := by
  by_cases h : lineWidth s.arena gone = 4 <;> simp [deleteAt, h]

/-! ### Outcomes with the cache hidden -/

/-- What a computation answers, with the cache hidden. -/
def Attempt.hide (a : Attempt State) : Attempt State := a.map State.visible

@[simp] theorem Attempt.hide_ok (t : State) : Attempt.hide (.ok t) = .ok t.visible := rfl
@[simp] theorem Attempt.hide_error (e : Exit) : Attempt.hide (.error e) = .error e := rfl

@[simp] theorem Attempt.hide_bind {α : Type} (m : Attempt α) (f : α → Attempt State) :
    Attempt.hide (m >>= f) = m >>= fun x => Attempt.hide (f x) := by
  cases m <;> rfl

@[simp] theorem Attempt.hide_ite {p : Prop} [Decidable p] (a b : Attempt State) :
    Attempt.hide (if p then a else b) = if p then Attempt.hide a else Attempt.hide b :=
  apply_ite Attempt.hide p a b

theorem Attempt.hide_bind_congr {α : Type} {m : Attempt α} {f g : α → Attempt State}
    (h : ∀ x, Attempt.hide (f x) = Attempt.hide (g x)) : Attempt.hide (m >>= f) = Attempt.hide (m >>= g) := by
  simp only [Attempt.hide_bind, h]

theorem Attempt.hide_ite_congr {p : Prop} [Decidable p] {a b a' b' : Attempt State}
    (ha : Attempt.hide a = Attempt.hide a') (hb : Attempt.hide b = Attempt.hide b') :
    Attempt.hide (if p then a else b) = Attempt.hide (if p then a' else b') := by
  simp only [Attempt.hide_ite, ha, hb]

/-- The end of a command, with the cache hidden. -/
def Ending.hide : Ending → Ending
  | .ok t => .ok t.visible
  | .err c t => .err c t.visible
  | .refuse r => .refuse r
  | .fault f => .fault f

theorem Ending.hide_of (k : State) (a : Attempt State) :
    (Ending.of k a).hide = Ending.of k.visible (Attempt.hide a) := by
  cases a with
  | ok t => rfl
  | error e => cases e <;> rfl

@[simp] theorem Ending.hide_restoreCache (k : LineCache) (e : Ending) : (e.restoreCache k).hide = e.hide := by
  cases e <;> rfl

/-- The outcome of a step, with the cache hidden. -/
def hideOutcome : Host.Outcome State Fault Refusal → Host.Outcome State Fault Refusal
  | .next t => .next t.visible
  | .fault f => .fault f
  | .refused r => .refused r

/-- An effect whose end, but for the cache, does not depend on the cache. -/
def CacheBlind (f : State → Ending) : Prop := ∀ s, (f s.visible).hide = (f s).hide

theorem CacheBlind.congr {f : State → Ending} (hf : CacheBlind f) {s s' : State} (h : s.visible = s'.visible) :
    (f s).hide = (f s').hide := by
  rw [← hf s, h, hf s']

theorem CacheBlind.of {a : State → Attempt State} (h : ∀ s, Attempt.hide (a s.visible) = Attempt.hide (a s)) :
    CacheBlind fun s => Ending.of s (a s) := fun s => by
  rw [Ending.hide_of, Ending.hide_of, h, State.visible_visible]

theorem CacheBlind.ok {f : State → State} (h : ∀ s, (f s.visible).visible = (f s).visible) :
    CacheBlind fun s => .ok (f s) := fun s => by
  rw [Ending.hide, Ending.hide, h]

/-- How a command is reported does not depend on the cache. -/
theorem CacheBlind.perform {f : State → Ending} (hf : CacheBlind f) (s : State) :
    hideOutcome (perform f s.visible) = hideOutcome (perform f s) := by
  have h : (f (s.visible.setOut Outputs.absent)).hide = (f (s.setOut Outputs.absent)).hide :=
    hf (s.setOut Outputs.absent)
  unfold Machine.perform
  generalize f (s.visible.setOut Outputs.absent) = e at h ⊢
  generalize f (s.setOut Outputs.absent) = e' at h ⊢
  cases e <;> cases e' <;> simp_all [Ending.hide, hideOutcome, State.reportError, State.reportRefusal]

/-! ### The shared operations -/

theorem readRegister_blind (s : State) (i : Option Nat) :
    Attempt.hide (readRegister s.visible i) = Attempt.hide (readRegister s i) := by
  by_cases h : s.mode = .float <;> simp [readRegister, h]

theorem writeRegister_blind (s : State) (i : Option Nat) :
    Attempt.hide (writeRegister s.visible i) = Attempt.hide (writeRegister s i) := by
  simp [writeRegister, State.slotWrite]

theorem stepX_blind (k : Int) : CacheBlind (stepX k) := .of fun s => Attempt.hide_ite_congr (by simp) (by simp)

theorem stepIndex_blind (k : Int) : CacheBlind (stepIndex k) := .of fun s => Attempt.hide_ite_congr (by simp) (by simp)

theorem stepIndirect_blind (k : Int) : CacheBlind (stepIndirect k) := .of fun s => by
  by_cases h : s.mode = .float <;> simp [State.slotWrite, h]

theorem insertLine_blind (opc : Opcode) (s : State) :
    Attempt.hide (insertLine opc s.visible) = Attempt.hide (insertLine opc s) := by
  refine Attempt.hide_bind_congr fun _ => Attempt.hide_bind_congr fun _ => ?_
  simp [insertAt]

theorem deleteLine_blind (s : State) : Attempt.hide (deleteLine s.visible) = Attempt.hide (deleteLine s) := by
  simp [deleteLine, deleteAt_visible]

theorem gotoTarget_blind {target : State → Attempt Label} (h : ∀ s, target s.visible = target s) :
    CacheBlind (gotoTarget target) := .of fun s => by simp [h, State.jump]

theorem gosubTarget_full {target : State → Attempt Label} {s : State} (h : s.rsp = s.params.cap - 1) :
    gosubTarget target s = .err .stackOverflow s := if_pos h

theorem gosubTarget_push {target : State → Attempt Label} {s : State} (h : s.rsp ≠ s.params.cap - 1) :
    gosubTarget target s = gotoTarget target s.pushCall := if_neg h

theorem gosubTarget_blind {target : State → Attempt Label} (h : ∀ s, target s.visible = target s) :
    CacheBlind (gosubTarget target) := fun s => by
  by_cases hf : s.rsp = s.params.cap - 1
  · rw [gosubTarget_full hf, gosubTarget_full (s := s.visible) hf]
    rfl
  · rw [gosubTarget_push hf, gosubTarget_push (s := s.visible) hf]
    exact (gotoTarget_blind h).congr (by simp)

theorem returnCall_blind : CacheBlind returnCall := fun s => by
  by_cases h : 0 < s.rsp <;> simp [returnCall, h, Ending.hide]

theorem runLine_blind (op : Opcode) : CacheBlind (runLine op) := fun s => by
  simp only [runLine, State.visible_params]
  split
  · rfl
  · exact gotoTarget_blind (fun _ => rfl) s
  · exact gosubTarget_blind (fun _ => rfl) s
  · exact gotoTarget_blind State.visible_labelFromI s
  · exact gosubTarget_blind State.visible_labelFromI s
  · exact returnCall_blind s
  · split <;> rfl

theorem runStep_phantom {s : State} (h : s.inc s.cur = 0) : runStep s = returnCall (s.setCur (s.inc s.cur)) := if_pos h

theorem runStep_fault {s : State} (h : s.inc s.cur ≠ 0) {e : Exit} (ho : s.opcodeAt (s.inc s.cur) = .error e) :
    runStep s = Ending.of (s.setCur (s.inc s.cur)) (.error e) := by
  have ho' : (s.setCur (s.inc s.cur)).opcodeAt (s.inc s.cur) = .error e := ho
  simp only [runStep, State.setCur_cur, if_neg h, ho']

theorem runStep_line {s : State} (h : s.inc s.cur ≠ 0) {op : Opcode} (ho : s.opcodeAt (s.inc s.cur) = .ok op) :
    runStep s = (runLine op ((s.setCur (s.inc s.cur)).touch (s.inc s.cur))).restoreCache s.cache := by
  have ho' : (s.setCur (s.inc s.cur)).opcodeAt (s.inc s.cur) = .ok op := ho
  simp only [runStep, State.setCur_cur, if_neg h, ho']

theorem runStep_blind : CacheBlind runStep := fun s => by
  by_cases h : s.inc s.cur = 0
  · rw [runStep_phantom h, runStep_phantom (s := s.visible) h]
    exact returnCall_blind.congr (by simp)
  · cases ho : s.opcodeAt (s.inc s.cur) with
    | error e =>
      rw [runStep_fault h ho, runStep_fault (s := s.visible) h ho, Ending.hide_of, Ending.hide_of]
      simp
    | ok op =>
      rw [runStep_line h ho, runStep_line (s := s.visible) h ho, Ending.hide_restoreCache, Ending.hide_restoreCache]
      exact (runLine_blind op).congr (by simp)

/-! ### Every instruction and every step -/

/-- No instruction's outcome depends on the cache, but for the cache. -/
theorem exec_blind (i : Instr) (s : State) : hideOutcome (exec i s.visible) = hideOutcome (exec i s) := by
  cases i with dsimp only [exec]
  | add | sub | store | toint | setws _ | fdec | fexp | fchk =>
    exact CacheBlind.perform (.of fun s => by simp) s
  | neg | isz => exact CacheBlind.perform (.of fun s => Attempt.hide_ite_congr (by simp) (by simp)) s
  | cmp => exact CacheBlind.perform (.of fun s => Attempt.hide_ite_congr (by simp) (by rfl)) s
  | inc => exact (stepX_blind 1).perform s
  | dec => exact (stepX_blind (-1)).perform s
  | trunc | fenc | ri | wi | clrreg | step | skipif _ | opPM1 _ | opPM2 _ =>
    exact CacheBlind.perform (.ok fun s => by simp) s
  | setmode m => exact CacheBlind.perform (.ok fun s => by split <;> rfl) s
  | wflag f v => cases f <;> exact CacheBlind.perform (.ok fun s => rfl) s
  | skipflag f => cases f <;> exact CacheBlind.perform (.ok fun s => by simp) s
  | run => exact CacheBlind.perform (.ok fun s => by by_cases h : s.rsp = -1 <;> simp [h]) s
  | rreg idx => exact CacheBlind.perform (.of fun s => readRegister_blind s _) s
  | rregI => exact CacheBlind.perform (.of fun s => by simp [readRegister_blind]) s
  | wreg idx => exact CacheBlind.perform (.of fun s => writeRegister_blind s _) s
  | wregI => exact CacheBlind.perform (.of fun s => by simp [writeRegister_blind]) s
  | iszi => exact (stepIndex_blind 1).perform s
  | dszi => exact (stepIndex_blind (-1)).perform s
  | iszind => exact (stepIndirect_blind 1).perform s
  | dszind => exact (stepIndirect_blind (-1)).perform s
  | preset => exact CacheBlind.perform (.of fun s => by simp [State.clearProgram]) s
  | insert opc => exact CacheBlind.perform (.of fun s => insertLine_blind opc s) s
  | delete => exact CacheBlind.perform (.of fun s => deleteLine_blind s) s
  | setline n => exact CacheBlind.perform (.of fun s => Attempt.hide_bind_congr fun _ => by simp) s
  | readline n =>
    exact CacheBlind.perform
      (.of fun s => Attempt.hide_bind_congr fun _ => Attempt.hide_bind_congr fun _ => by simp) s
  | goto lbl | gtoN lbl => exact (gotoTarget_blind fun _ => rfl).perform s
  | gotoI | gtoStoredI => exact (gotoTarget_blind State.visible_labelFromI).perform s
  | gosub lbl | gsbN lbl => exact (gosubTarget_blind fun _ => rfl).perform s
  | gosubI | gsbStoredI => exact (gosubTarget_blind State.visible_labelFromI).perform s
  | rtn | rtnStored => exact returnCall_blind.perform s
  | runstep => exact runStep_blind.perform s
  | lblN n => exact CacheBlind.perform (.ok fun s => rfl) s

theorem loadProgram_blind (img : Image) (s : State) :
    (loadProgram img s.visible).visible = (loadProgram img s).visible := by
  simp only [loadProgram, State.visible_params, State.visible_arena]
  split <;> simp [State.visible_clearProgram]

theorem loadImage_blind (img : Image) (s : State) : (loadImage img s.visible).visible = (loadImage img s).visible := by
  unfold loadImage
  split
  · split
    · exact loadProgram_blind img (State.setIreg (State.setArena s _) _)
    · simp
  · simp

theorem stepCommand_blind (s : State) : hideOutcome (stepCommand s.visible) = hideOutcome (stepCommand s) := by
  simp only [stepCommand, State.visible_inp]
  split
  · exact exec_blind _ s
  · rfl

/-- No step's outcome depends on the cache, but for the cache. -/
theorem step_blind (s : State) : hideOutcome (step s.visible) = hideOutcome (step s) := by
  simp only [step, State.visible_pending]
  split
  · rfl
  · exact stepCommand_blind ((s.setPending _).setInp _)
  · exact congrArg Host.Outcome.next (loadImage_blind _ (s.setPending _))
  · rfl

/-- Settles O13: a step of each state has, but for the cache, the outcome of the step of that state with its cache
hidden. -/
theorem cacheIsUnobservable : Obligations.CacheIsUnobservable := by
  unfold Obligations.CacheIsUnobservable
  intro s s' t hs h
  have heq : hideOutcome (step s') = .next t.visible := by
    rw [← step_blind s', ← hs, step_blind s, h]
    rfl
  generalize step s' = o at heq
  cases o with
  | next t' =>
    simp only [hideOutcome, Host.Outcome.next.injEq] at heq
    exact ⟨t', rfl, heq⟩
  | fault | refused => simp [hideOutcome] at heq

end Sys2Proof.Machine
end

section
/-! SUPPORT. The register slots nybble by nybble: RREG and WREG of a register that exists, and what a slot written at
one word size reads as at another (20_memory.md R51 to R54, 42_registers.md R201 to R203, R207, R212). -/

namespace Sys2Proof.Machine

/-! ### Nybbles and bits of a number in the arena -/

/-- Four bits a nybble, the least significant nybble at the highest address (20_memory.md R52). -/
theorem Memory.readN_testBit {m : Memory} {a n j : Nat} (hj : j < 4 * n) :
    (m.readN a n).testBit j = (m.get (a + n - 1 - j / 4)).toNat.testBit (j % 4) := by
  induction n generalizing j with
  | zero => omega
  | succ n ih =>
    rw [readN, show 16 = 2 ^ 4 from rfl, Nat.mul_comm, Nat.testBit_two_pow_mul_add _ (m.get (a + n)).isLt]
    split
    · rename_i h
      rw [show a + (n + 1) - 1 - j / 4 = a + n by omega, Nat.mod_eq_of_lt h]
    · rw [ih (by omega), show a + (n + 1) - 1 - j / 4 = a + n - 1 - (j - 4) / 4 by omega,
        show (j - 4) % 4 = j % 4 by omega]

/-- The number read from `k` of the nybbles of a written number. -/
theorem Memory.readN_writeN_part {m : Memory} {a n v b k : Nat} (h : a + n ≤ arenaSize) (hb : a ≤ b)
    (hk : b + k ≤ a + n) : (m.writeN a n v).readN b k = v / 16 ^ (a + n - (b + k)) % 16 ^ k := by
  induction k with
  | zero => simp [readN, Nat.mod_one]
  | succ k ih =>
    have hhigh : v / 16 ^ (a + n - (b + k)) = v / 16 ^ (a + n - (b + (k + 1))) / 16 := by
      rw [Nat.div_div_eq_div_mul, ← Nat.pow_succ]
      congr 2
      omega
    have hlow : (m.writeN a n v).get (b + k) = BitVec.ofNat 4 (v / 16 ^ (a + n - (b + (k + 1)))) := by
      rw [get_writeN h, if_pos (by omega), show a + n - 1 - (b + k) = a + n - (b + (k + 1)) by omega]
    have hpow : 16 ^ (k + 1) = 16 * 16 ^ k := Nat.pow_succ'
    rw [readN, ih (by omega), hhigh, hlow, BitVec.toNat_ofNat, hpow, Nat.mod_mul]
    omega

/-! ### RREG and WREG on a register that exists -/

/-- A command whose checks pass makes its writes. -/
theorem perform_attempt_ok {a : State → Attempt State} {s t : State} (h : a (s.setOut Outputs.absent) = .ok t) :
    perform (fun s => Ending.of s (a s)) s = .next t := by
  rw [perform_of, h]

theorem checkFloat_ok {p : Params} {v : Value} (h : FloatOk p v) : checkFloat p v = .ok () := by
  simp [checkFloat, h.1, h.2]

/-- An I that names a register gives its number (42_registers.md R207). -/
theorem State.iaddr_of_names {s : State} {k : Nat} (h : s.NamesRegister k) : s.iaddr = .ok (some k) := by
  obtain ⟨⟨hm, hq⟩ | ⟨hm, hok, hq⟩, hlim⟩ := h
  · simp [iaddr, hm, ← hq, hlim]
  · simp [iaddr, hm, checkFloat_ok hok, ← hq, hlim]

/-- RREG answers the number in the slot, masked to the word (42_registers.md R201). -/
theorem readRegister_ok {s : State} {k : Nat} (hk : k < s.regCount)
    (hf : s.mode = .float → FloatOk s.params (val (s.slotValue k))) :
    readRegister s (some k) =
      .ok (s.setOut { Outputs.absent with r := some (val (s.slotValue k % 2 ^ s.ws)) }) := by
  have hread : s.slotRead k = .ok (s.slotValue k) := State.slotRead_ok hk
  simp only [readRegister, State.checkReg_ok hk, hread, Attempt.bind_ok]
  split
  · rename_i hm
    simp [checkFloat_ok (hf hm)]
  · rfl

/-- WREG writes X' to the slot and sets `dirty` (42_registers.md R202). -/
theorem writeRegister_ok {s : State} {k : Nat} (hk : k < s.regCount) :
    writeRegister s (some k) =
      .ok ((s.setArena (s.arena.writeN (s.slotAddr k) s.npr s.xWord)).setDirty true) := by
  simp only [writeRegister, State.checkReg_ok hk, State.slotWrite_ok hk, Attempt.bind_ok, Attempt.pure_eq]

/-- RREG, direct and through I (42_registers.md R201, R203). -/
theorem exec_rreg_ok {s : State} {i : Instr} {k : Nat} (hk : k < s.regCount)
    (hi : (∃ idx : BitVec 9, i = .rreg idx ∧ idx.toNat = k) ∨ (i = .rregI ∧ s.NamesRegister k))
    (hf : s.mode = .float → FloatOk s.params (val (s.slotValue k))) :
    exec i s = .next (s.setOut { Outputs.absent with r := some (val (s.slotValue k % 2 ^ s.ws)) }) := by
  have hread := readRegister_ok (s := s.setOut Outputs.absent) hk hf
  rcases hi with ⟨idx, rfl, rfl⟩ | ⟨rfl, hI⟩
  · exact perform_attempt_ok (a := fun s => readRegister s (some idx.toNat)) hread
  · have hbind := congrArg (· >>= readRegister (s.setOut Outputs.absent)) (State.iaddr_of_names hI)
    exact perform_attempt_ok (a := fun s => s.iaddr >>= readRegister s) (hbind.trans hread)

/-- WREG, direct and through I (42_registers.md R202, R203). -/
theorem exec_wreg_ok {s : State} {i : Instr} {k : Nat} (hk : k < s.regCount)
    (hi : (∃ idx : BitVec 9, i = .wreg idx ∧ idx.toNat = k) ∨ (i = .wregI ∧ s.NamesRegister k)) :
    exec i s = .next (((s.setOut Outputs.absent).setArena
      (s.arena.writeN (s.slotAddr k) s.npr s.xWord)).setDirty true) := by
  have hwrite := writeRegister_ok (s := s.setOut Outputs.absent) hk
  rcases hi with ⟨idx, rfl, rfl⟩ | ⟨rfl, hI⟩
  · exact perform_attempt_ok (a := fun s => writeRegister s (some idx.toNat)) hwrite
  · have hbind := congrArg (· >>= writeRegister (s.setOut Outputs.absent)) (State.iaddr_of_names hI)
    exact perform_attempt_ok (a := fun s => s.iaddr >>= writeRegister s) (hbind.trans hwrite)

/-- A word fits in its slot (00_scope.md R9). -/
theorem State.ws_le_slot_bits (s : State) : s.ws ≤ 4 * s.npr := by
  simp only [npr]
  omega

/-- The end of a register's slot (20_memory.md R51). -/
theorem State.slotAddr_add_npr {s : State} {k : Nat} (hk : k < s.regCount) :
    s.slotAddr k + s.npr = 406 - k * s.npr ∧ k * s.npr + s.npr ≤ 406 := (slot_bounds hk).2

/-- Settles O40: both forms read the number in the slot, and its bits are those of the slot's nybbles. -/
theorem rregResult : Obligations.RregResult := by
  unfold Obligations.RregResult
  intro s i k _ hk hi hf
  refine ⟨_, exec_rreg_ok hk hi hf, Nat.mod_lt _ (by positivity), fun j hj => ?_⟩
  have hbits := s.ws_le_slot_bits
  have hread : (s.slotValue k).testBit j =
      (s.arena.get (s.slotAddr k + s.npr - 1 - j / 4)).toNat.testBit (j % 4) := Memory.readN_testBit (by omega)
  have haddr : s.slotAddr k + s.npr - 1 - j / 4 = 405 - k * s.npr - j / 4 := by
    have := State.slotAddr_add_npr hk
    omega
  rw [Nat.testBit_mod_two_pow, decide_eq_true hj, Bool.true_and, hread, haddr]

/-- Settles O41: both forms write the masked X to the slot's nybbles, and a nybble outside the slot reads as before. -/
theorem wregResult : Obligations.WregResult := by
  unfold Obligations.WregResult
  intro s i k hk hi
  obtain ⟨hend, hfit⟩ := State.slotAddr_add_npr hk
  refine ⟨_, exec_wreg_ok hk hi, fun j hj => ?_, fun a ha => Memory.get_writeN_outside (hend ▸ ha)⟩
  have hin : s.slotAddr k ≤ 405 - k * s.npr - j ∧ 405 - k * s.npr - j < s.slotAddr k + s.npr := by omega
  have hdigit : s.slotAddr k + s.npr - 1 - (405 - k * s.npr - j) = j := by omega
  rw [State.setArena_arena, Memory.get_writeN (by simp only [arenaSize]; omega), if_pos hin, hdigit, BitVec.toNat_ofNat]
  rfl

/-! ### Changing the word size -/

/-- The four nybbles at the end of the arena, above the program, hold `v`, in an integer mode. -/
def State.HoldsWord (s : State) (v : Nat) : Prop :=
  s.mode ≠ .float ∧ s.progSize ≤ 402 ∧ ∃ m : Memory, s.arena = m.writeN 402 4 v

/-- WREG 0 at word size 16 puts X' there (20_memory.md R51, 42_registers.md R202). -/
theorem exec_wreg_holdsWord {s : State} (hm : s.mode ≠ .float) (hws : s.ws = 16) (hP : s.progSize ≤ 402) :
    ∃ t, exec (.wreg 0) s = .next t ∧ t.HoldsWord (s.inp.x.toNat % 65536) := by
  have hnpr : s.npr = 4 := by simp only [State.npr, hws]
  have hk : 0 < s.regCount := by
    rw [State.regCount, hnpr]
    exact Nat.div_pos (by simp only [arenaSize]; omega) (by decide)
  have hx : s.xWord = s.inp.x.toNat % 65536 := by rw [State.xWord, maskW, hws]; rfl
  have haddr : s.slotAddr 0 = 402 := by simp only [State.slotAddr, hnpr, arenaSize]
  exact ⟨_, exec_wreg_ok hk (.inl ⟨0, rfl, rfl⟩), hm, hP, s.arena, by simp [haddr, hnpr, hx]⟩

/-- SETWS in an integer mode moves no nybble (20_memory.md R54, 41_signmode.md R170). -/
theorem State.HoldsWord.setws {s : State} {v : Nat} (h : s.HoldsWord v) {w : BitVec 7} (h1 : 1 ≤ w.toNat)
    (h64 : w.toNat ≤ 64) :
    ∃ t, exec (.setws w) s = .next t ∧ t.arena = s.arena ∧ t.ws = w.toNat ∧ t.HoldsWord v := by
  have hint : (s.mode != .float) = true := by simpa using h.1
  refine ⟨(s.setOut Outputs.absent).setWs w.toNat, ?_, rfl, rfl, h⟩
  simp only [exec, execSetws]
  exact perform_attempt_ok (by simp [hint, h1, h64])

/-- A register of `n` nybbles reads as its part of the word at the end of the arena (42_registers.md R212). -/
theorem State.HoldsWord.rreg {s : State} {idx : BitVec 9} {v r : Nat} (h : s.HoldsWord v) (n : Nat)
    (hws : s.ws = 4 * n) (hn : 1 ≤ n) (hpart : idx.toNat * n + n ≤ 4)
    (hr : v / 16 ^ (idx.toNat * n) % 16 ^ n = r) :
    ∃ u, exec (.rreg idx) s = .next u ∧ u.out.r = some (val r) := by
  obtain ⟨hm, hP, m, ha⟩ := h
  have hnpr : s.npr = n := by simp only [State.npr]; omega
  have hmul : (idx.toNat + 1) * n = idx.toNat * n + n := Nat.succ_mul ..
  have hk : idx.toNat < s.regCount := by
    rw [State.regCount, hnpr]
    exact (Nat.le_div_iff_mul_le hn).2 (by rw [hmul]; simp only [arenaSize]; omega)
  have hslot : s.slotValue idx.toNat = r := by
    have hend : arenaSize - (idx.toNat * n + n) + n = 406 - idx.toNat * n := by simp only [arenaSize]; omega
    have hat : 402 + 4 - (406 - idx.toNat * n) = idx.toNat * n := by omega
    rw [State.slotValue, ha, hnpr, hmul, Memory.readN_writeN_part (by decide) (by omega) (by omega), hend, hat, hr]
  have hmask : r % 2 ^ s.ws = r := by
    rw [hws, Nat.pow_mul, ← hr]
    exact Nat.mod_mod _ _
  exact ⟨_, exec_rreg_ok hk (.inl ⟨idx, rfl, rfl⟩) (fun h => absurd h hm), by rw [State.setOut_out, hslot, hmask]⟩

/-- Settles O44: SETWS leaves the word that WREG put at the end of the arena, and each register read is a part of it. -/
theorem wordSizeView : Obligations.WordSizeView := by
  unfold Obligations.WordSizeView
  intro s hm hws hP
  obtain ⟨t, ht, hword⟩ := exec_wreg_holdsWord hm hws hP
  obtain ⟨t4, h4, ha4, hws4, hword4⟩ := hword.setws (w := 4) (by decide) (by decide)
  obtain ⟨t8, h8, ha8, hws8, hword8⟩ := hword4.setws (w := 8) (by decide) (by decide)
  obtain ⟨t16, h16, ha16, hws16, hword16⟩ := hword8.setws (w := 16) (by decide) (by decide)
  refine ⟨t, t4, t8, t16, ht, h4, h8, h16, ha4, ha8.trans ha4, ha16.trans (ha8.trans ha4), ?_, ?_, ?_, ?_, ?_⟩
  · exact hword4.rreg 1 hws4 (by decide) (by decide) (by simp)
  · exact hword4.rreg 1 hws4 (by decide) (by decide) (by simp; omega)
  · exact hword8.rreg 2 hws8 (by decide) (by decide) (by simp)
  · exact hword8.rreg 2 hws8 (by decide) (by decide) (by simp; omega)
  · exact hword16.rreg 4 hws16 (by decide) (by decide) (by simp)

end Sys2Proof.Machine
end

section
/-! SUPPORT. A step of the machine by the host's next operation (notes/assumptions/4.md; 20_memory.md R61). -/

namespace Sys2Proof.Machine

theorem step_command {s : State} {p : InPorts} {rest : List HostOp} (h : s.pending = .command p :: rest) :
    step s = stepCommand ((s.setPending rest).setInp p) := by
  rw [step, h]

theorem step_load {s : State} {img : Image} {rest : List HostOp} (h : s.pending = .load img :: rest) :
    step s = .next (loadImage img (s.setPending rest)) := by
  rw [step, h]

theorem step_save {s : State} {rest : List HostOp} (h : s.pending = .save :: rest) :
    step s = .next (saveImage (s.setPending rest)) := by
  rw [step, h]

/-- Settles O5: the decoder's answer on the latched word chooses between the meaning and the refusal. -/
theorem stepRunsDecodedCommand : Obligations.StepRunsDecodedCommand := by
  unfold Obligations.StepRunsDecodedCommand
  intro s p rest hp
  rw [step_command hp, stepCommand, State.setInp_inp]
  refine ⟨fun i hi => ?_, fun e he => ?_⟩
  · rw [hi]
    rfl
  · rw [he]
    rfl

end Sys2Proof.Machine
end

section
/-! SUPPORT. The persistence interface digit by digit: the text of a number and of the arena, what the program of an
image must be, and LOAD of an image (70_reset_and_hazards.md R333, R334, R336). -/

namespace Sys2Proof.Machine

/-! ### Digits -/

/-- The sixteen uppercase digits (R336). -/
def upperDigits : List Char := ['0', '1', '2', '3', '4', '5', '6', '7', '8', '9', 'A', 'B', 'C', 'D', 'E', 'F']

theorem upperDigits_getElem? : ∀ d < 16, upperDigits[d]? = some (hexChar d) := by decide

theorem hexDigit?_hexChar : ∀ d < 16, hexDigit? (hexChar d) = some d := by decide

/-- A text has digits where each character is one. -/
theorem hexDigits?_eq_some_iff {t : Text} {ds : List Nat} :
    hexDigits? t = some ds ↔ t.map hexDigit? = ds.map some := by
  induction t generalizing ds with
  | nil => cases ds <;> simp [hexDigits?]
  | cons ch t ih =>
    cases ds with
    | nil =>
      simp only [hexDigits?, List.map_cons, List.map_nil, reduceCtorEq, iff_false]
      split <;> simp
    | cons d ds =>
      simp only [hexDigits?, List.map_cons, List.cons.injEq, ← ih]
      split
      · rename_i h1 h2
        simp [h1, h2]
      · rename_i h
        simp only [reduceCtorEq, false_iff, not_and]
        exact h d ds

/-- A text has no digits where a character is no digit. -/
theorem hexDigits?_eq_none {t : Text} {ch : Char} (hmem : ch ∈ t) (hch : hexDigit? ch = none) :
    hexDigits? t = none := by
  cases h : hexDigits? t with
  | none => rfl
  | some ds =>
    have hin : none ∈ ds.map some := by
      rw [← hexDigits?_eq_some_iff.1 h, ← hch]
      exact List.mem_map_of_mem hmem
    simp at hin

theorem hexDigits?_map_hexChar {ds : List Nat} (h : ∀ d ∈ ds, d < 16) : hexDigits? (ds.map hexChar) = some ds := by
  rw [hexDigits?_eq_some_iff, List.map_map]
  exact List.map_congr_left fun d hd => hexDigit?_hexChar d (h d hd)

/-! ### The text of a number -/

theorem length_hexDigitsOf (k n : Nat) : (hexDigitsOf k n).length = k := by
  induction k generalizing n with
  | zero => rfl
  | succ k ih => simp [hexDigitsOf, ih]

theorem hexDigitsOf_lt {k n d : Nat} (h : d ∈ hexDigitsOf k n) : d < 16 := by
  induction k generalizing n with
  | zero => simp [hexDigitsOf] at h
  | succ k ih =>
    rcases List.mem_append.1 h with h | h
    · exact ih h
    · rw [List.mem_singleton.1 h]
      exact Nat.mod_lt _ (by decide)

theorem hexValue_hexDigitsOf {k n : Nat} (h : n < 16 ^ k) : hexValue (hexDigitsOf k n) = n := by
  induction k generalizing n with
  | zero =>
    rw [Nat.pow_zero] at h
    exact (Nat.lt_one_iff.1 h).symm
  | succ k ih =>
    have := ih (n := n / 16) (by rw [Nat.pow_succ] at h; omega)
    simp only [hexValue, hexDigitsOf, List.foldl_append, List.foldl_cons, List.foldl_nil] at this ⊢
    omega

/-- Leading zeros do not count. -/
theorem hexValue_dropWhile_zero (ds : List Nat) : hexValue (ds.dropWhile (· == 0)) = hexValue ds := by
  induction ds with
  | nil => rfl
  | cons d ds ih =>
    cases d with
    | zero => exact ih
    | succ d => rfl

theorem head?_dropWhile_zero (ds : List Nat) : (ds.dropWhile (· == 0)).head? ≠ some 0 := by
  intro h
  simpa [h] using List.head?_dropWhile_not (· == 0) ds

/-- The text of a number below 2^68: its digits without leading zeros, at least one. -/
theorem hexText_digits {n : Nat} (hn : n < 16 ^ 17) :
    ∃ ds : List Nat, hexText n = ds.map hexChar ∧ (∀ d ∈ ds, d < 16) ∧ hexValue ds = n ∧ 1 ≤ ds.length ∧
      ds.length ≤ 17 ∧ (ds.head? = some 0 → ds = [0]) := by
  have hval := (hexValue_dropWhile_zero (hexDigitsOf 17 n)).trans (hexValue_hexDigitsOf hn)
  have hsub := List.dropWhile_sublist (· == 0) (l := hexDigitsOf 17 n)
  have hhead := head?_dropWhile_zero (hexDigitsOf 17 n)
  cases h : (hexDigitsOf 17 n).dropWhile (· == 0) with
  | nil =>
    rw [h] at hval
    exact ⟨[0], by simp only [hexText, h]; rfl, by simp, hval, by simp, by simp, fun _ => rfl⟩
  | cons d ds =>
    rw [h] at hval hsub hhead
    refine ⟨d :: ds, by simp only [hexText, h], fun d hd => hexDigitsOf_lt (hsub.subset hd), hval, by simp,
      length_hexDigitsOf 17 n ▸ hsub.length_le, fun h0 => absurd h0 hhead⟩

/-! ### The arena of a storage string -/

/-- The nybbles of the arena in address order (R333). -/
def Memory.nybbles (m : Memory) : List Nat := (List.range arenaSize).map fun a => (m.get a).toNat

theorem Memory.length_nybbles (m : Memory) : m.nybbles.length = arenaSize := by
  rw [nybbles, List.length_map, List.length_range]

theorem Memory.getElem?_nybbles (m : Memory) {a : Nat} (ha : a < arenaSize) :
    m.nybbles[a]? = some (m.get a).toNat := by
  rw [nybbles, List.getElem?_map, List.getElem?_range ha]
  rfl

/-- A canonical arena is the arena of its nybbles. -/
theorem Memory.ofNybbles_nybbles {m : Memory} (hm : m.wf = true) : Memory.ofNybbles 0 m.nybbles = m := by
  have hwf : (Memory.ofNybbles 0 m.nybbles).wf = true :=
    ofNybbles_wf 0 m.nybbles (by rw [length_nybbles, Nat.zero_add])
  refine ext_wf hwf hm fun a => ?_
  rw [get_ofNybbles, length_nybbles, Nat.zero_add, Nat.sub_zero]
  split
  · rename_i ha
    rw [List.getD_eq_getElem?_getD, getElem?_nybbles m ha.2]
    simp
  · rename_i ha
    exact (get_of_wf hm (by omega)).symm

/-! ### The program of an image -/

/-- A field within bounds is that integer, and within them. -/
theorem JsonNum.within_eq_some_iff {lo hi n : Int} {j : JsonNum} :
    j.within lo hi = some n ↔ j = .int n ∧ lo ≤ n ∧ n ≤ hi := by
  refine ⟨JsonNum.within_some, ?_⟩
  rintro ⟨rfl, h⟩
  exact if_pos h

theorem JsonNum.within_natCast_iff {j : JsonNum} {n b : Nat} :
    j.within 0 b = some (n : Int) ↔ j = .int n ∧ n ≤ b := by
  rw [within_eq_some_iff]
  exact and_congr_right fun _ => by omega

/-- An entry of the return stack of an image. -/
theorem JsonNum.savedLine_iff {x : JsonNum} {l : Nat} :
    (x.within 0 maxLines).map Int.toNat = some l ↔ x = .int l ∧ l ≤ maxLines := by
  rw [← within_natCast_iff, Option.map_eq_some_iff]
  constructor
  · rintro ⟨n, hn, rfl⟩
    obtain ⟨-, hn0, -⟩ := within_some hn
    rw [Int.toNat_of_nonneg hn0, hn]
  · exact fun h => ⟨l, h, Int.toNat_natCast l⟩

/-- The entries of the return stack of an image. -/
theorem mapM_savedLine_iff {xs : List JsonNum} {rs : List Nat} :
    xs.mapM (fun x => (x.within 0 maxLines).map Int.toNat) = some rs ↔
      xs = rs.map (fun l : Nat => JsonNum.int l) ∧ ∀ l ∈ rs, l ≤ maxLines := by
  induction xs generalizing rs with
  | nil => cases rs <;> simp
  | cons x xs ih =>
    simp only [List.mapM_cons, Option.bind_eq_bind, Option.bind_eq_some_iff, Option.pure_def, Option.some.injEq,
      JsonNum.savedLine_iff, ih]
    cases rs with
    | nil => simp
    | cons l rs =>
      constructor
      · rintro ⟨_, ⟨rfl, hl⟩, _, ⟨rfl, hrs⟩, h⟩
        obtain ⟨rfl, rfl⟩ := List.cons.inj h
        exact ⟨rfl, List.forall_mem_cons.2 ⟨hl, hrs⟩⟩
      · rintro ⟨h, hle⟩
        obtain ⟨rfl, rfl⟩ := List.cons.inj h
        obtain ⟨hl, hrs⟩ := List.forall_mem_cons.1 hle
        exact ⟨l, ⟨rfl, hl⟩, rs, ⟨rfl, hrs⟩, rfl⟩

/-- The stack of an image: its entries are the lines, CAP of them, each at most 203 (R334). -/
theorem stackOf_eq_some_iff {cap : Nat} {xs : List JsonNum} {rs : List Nat} :
    stackOf cap xs = some rs ↔
      xs = rs.map (fun l : Nat => JsonNum.int l) ∧ rs.length = cap ∧ ∀ l ∈ rs, l ≤ maxLines := by
  unfold stackOf
  split
  · rename_i hlen
    rw [mapM_savedLine_iff]
    exact and_congr_right fun h => by simp [← hlen, h]
  · rename_i hlen
    refine ⟨nofun, fun ⟨h, hrs, _⟩ => absurd ?_ hlen⟩
    rw [h, List.length_map, hrs]

/-- The programs R334 takes, and the fields of an image that holds one. -/
theorem validProgram_eq_some_iff {p : Params} {m : Memory} {img : Image} {l e c : Nat} {rs : List Nat} {rsp : Int} :
    validProgram p m img = some (l, e, c, rs, rsp) ↔
      (img.lines = .int l ∧ img.currentLine = .int c ∧ img.returnStackPos = .int rsp ∧
        img.returnStack = some (rs.map fun l : Nat => JsonNum.int l)) ∧
      l ≤ maxLines ∧ replay m l 0 0 = some (2 * l + 2 * e, e) ∧ c ≤ l ∧ rs.length = p.cap ∧
      (∀ x ∈ rs, x ≤ maxLines) ∧ -1 ≤ rsp ∧ rsp ≤ p.cap - 1 := by
  constructor
  · intro h
    refine ⟨?_, validProgram_some h⟩
    simp only [validProgram, Option.bind_eq_bind, Option.bind_eq_some_iff, Option.pure_def, Option.some.injEq,
      Prod.mk.injEq] at h
    obtain ⟨L, hl, ⟨P, E⟩, -, C, hc, R, hr, xs, hxs, RS, hrs, rfl, rfl, rfl, rfl, rfl⟩ := h
    obtain ⟨hl, hl0, -⟩ := JsonNum.within_some hl
    obtain ⟨hc, hc0, -⟩ := JsonNum.within_some hc
    rw [Int.toNat_of_nonneg hl0, Int.toNat_of_nonneg hc0, hxs, (stackOf_eq_some_iff.1 hrs).1]
    exact ⟨hl, hc, (JsonNum.within_some hr).1, rfl⟩
  · rintro ⟨⟨hl, hc, hr, hs⟩, hl1, hrep, hc1, hlen, hrs, hr0, hr1⟩
    simp only [validProgram, JsonNum.within_natCast_iff.2 ⟨hl, hl1⟩, JsonNum.within_natCast_iff.2 ⟨hc, hc1⟩,
      JsonNum.within_eq_some_iff.2 ⟨hr, hr0, hr1⟩, hs, stackOf_eq_some_iff.2 ⟨rfl, hlen, hrs⟩, hrep,
      Int.toNat_natCast, Option.bind_eq_bind, Option.bind_some, Option.pure_def]

/-! ### LOAD and SAVE -/

/-- LOAD rejects an image whose strings are malformed (R333). -/
theorem loadImage_rejected {img : Image} (s : State)
    (h : img.storage.length ≠ 406 ∨ img.index.length < 1 ∨ 17 < img.index.length ∨
      ∃ ch ∈ img.storage ++ img.index, hexDigit? ch = none) :
    loadImage img s = s.setOut { Outputs.absent with load := some .rejected } := by
  unfold loadImage
  split
  · rename_i ds is hds his
    refine if_neg fun hlen => ?_
    rw [hexDigits?_length hds, hexDigits?_length his] at hlen
    rcases h with h | h | h | ⟨ch, hmem, hch⟩
    · exact h hlen.1
    · omega
    · omega
    · rcases List.mem_append.1 hmem with hmem | hmem
      · simp [hexDigits?_eq_none hmem hch] at hds
      · simp [hexDigits?_eq_none hmem hch] at his
  · rfl

/-- LOAD of well-formed strings reads the arena and I, and goes on to the program (R333). -/
theorem loadImage_read {img : Image} {m : Memory} {ds : List Nat} (s : State) (hm : m.wf = true)
    (hstorage : hexDigits? img.storage = some m.nybbles) (hindex : hexDigits? img.index = some ds)
    (h1 : 1 ≤ ds.length) (h17 : ds.length ≤ 17) :
    loadImage img s = loadProgram img ((s.setArena m).setIreg (val (hexValue ds))) := by
  simp only [loadImage, hstorage, hindex, Memory.length_nybbles, Memory.ofNybbles_nybbles hm, h1, h17, and_self,
    if_true]

/-- LOAD takes a valid program (R334). -/
theorem loadProgram_loaded {img : Image} {s : State} {l e c : Nat} {rs : List Nat} {rsp : Int}
    (h : validProgram s.params s.arena img = some (l, e, c, rs, rsp)) :
    loadProgram img s =
      { s with
        lines := l, ext := e, cur := c, rs := rs, rsp := rsp, cache := ⟨1, 0⟩, dirty := false
        out := { Outputs.absent with load := some .loaded } } := by
  simp only [loadProgram, h, State.setLines, State.setExt, State.setCur, State.setRs, State.setRsp, State.setCache,
    State.setDirty, State.setOut, LineCache.start]

/-- LOAD rolls back a program that is not valid (R334). -/
theorem loadProgram_rolledBack {img : Image} {s : State} (h : validProgram s.params s.arena img = none) :
    loadProgram img s =
      { s with
        lines := 0, ext := 0, cur := 0, rs := List.replicate s.params.cap 0, rsp := -1, cache := ⟨1, 0⟩, dirty := true
        out := { Outputs.absent with load := some .rolledBack } } := by
  simp only [loadProgram, h, State.clearProgram, State.setLines, State.setExt, State.setCur, State.setRs, State.setRsp,
    State.setCache, State.setDirty, State.setOut, LineCache.start]

/-- A storage string that is read nybble by nybble is that of the arena (R333). -/
theorem hexDigits?_storage {t : Text} {m : Memory} (hlen : t.length = 406)
    (h : ∀ a, a < 406 → t[a]?.bind hexDigit? = some (m.get a).toNat) : hexDigits? t = some m.nybbles := by
  rw [hexDigits?_eq_some_iff]
  refine List.ext_getElem? fun a => ?_
  rw [List.getElem?_map, List.getElem?_map]
  by_cases ha : a < 406
  · have hread := h a ha
    rw [List.getElem?_eq_getElem (hlen ▸ ha), Option.bind_some] at hread
    rw [Memory.getElem?_nybbles m ha, List.getElem?_eq_getElem (hlen ▸ ha), Option.map_some, Option.map_some, hread]
  · rw [List.getElem?_eq_none (by omega), List.getElem?_eq_none ((Memory.length_nybbles m).trans_le (Nat.not_lt.1 ha))]
    rfl

/-- The saved storage is the text of the arena's nybbles (R336). -/
theorem State.image_storage (s : State) : s.image.storage = s.arena.nybbles.map hexChar := by
  rw [Memory.nybbles, List.map_map]
  rfl

theorem State.image_index (s : State) : s.image.index = hexText s.ireg.toNat := by rw [image]

theorem Memory.nybbles_lt {m : Memory} {d : Nat} (h : d ∈ m.nybbles) : d < 16 := by
  obtain ⟨a, -, rfl⟩ := List.mem_map.1 h
  exact (m.get a).isLt

/-- The program in a saved image is valid for a block with the same CAP (R334, R336). -/
theorem validProgram_image {s : State} {p : Params} (h : s.Inv) (hcap : p.cap = s.params.cap) :
    validProgram p s.arena s.image = some (s.lines, s.ext, s.cur, s.rs, s.rsp) := by
  obtain ⟨⟨⟨-, ⟨-, hlen, hr0, hr1⟩, -⟩, ⟨hl, hrep⟩, -, hrs⟩, hcur⟩ := h
  exact validProgram_eq_some_iff.2
    ⟨⟨rfl, rfl, rfl, rfl⟩, hl, hrep, hcur, hlen.trans hcap.symm, hrs, hr0, by omega⟩

/-- The ways in which the program of an image fails (R334). -/
theorem validProgram_eq_none {u : State} {m : Memory} {img : Image}
    (h : (∀ n, img.lines = .int n → n < 0 ∨ 203 < n) ∨
      (∃ n l a : Nat, img.lines = .int n ∧ 1 ≤ l ∧ l ≤ n ∧ ({ u with arena := m } : State).lineAddr l = .ok a ∧
        406 < a + (if m.readN a 2 = 0xFF then 4 else 2)) ∨
      (∃ n, img.lines = .int n ∧ ∀ c, img.currentLine = .int c → c < 0 ∨ n < c) ∨
      (∀ p, img.returnStackPos = .int p → p < -1 ∨ (u.params.cap : Int) - 1 < p) ∨
      img.returnStack = none ∨
      (∃ xs, img.returnStack = some xs ∧
        (xs.length ≠ u.params.cap ∨ ∃ x ∈ xs, ∀ n, x = .int n → n < 0 ∨ 203 < n))) :
    validProgram u.params m img = none := by
  refine Option.eq_none_iff_forall_ne_some.2 ?_
  rintro ⟨l, e, c, rs, rsp⟩ hvalid
  obtain ⟨⟨hl, hc, hr, hs⟩, hl1, hrep, hc1, hlen, hrs, hr0, hr1⟩ := validProgram_eq_some_iff.1 hvalid
  simp only [maxLines] at hl1 hrs
  rcases h with h | ⟨n, k, a, hn, hk1, hkn, hka, hpast⟩ | ⟨n, hn, h⟩ | h | h | ⟨xs, hxs, hlength | ⟨x, hx, h⟩⟩
  · have := h l hl
    omega
  · rw [hl, JsonNum.int.injEq] at hn
    have hp : ({ u with arena := m, lines := l, ext := e } : State).ProgramOk := ⟨hl1, hrep⟩
    obtain ⟨b, hb, -, hfit⟩ := hp.line hk1 (show k ≤ l by omega)
    have hab : a = b := Except.ok.inj (hka.symm.trans hb)
    have hsize := hp.size_le
    simp only [lineWidth, ← hab, arenaSize] at hfit hsize
    omega
  · rw [hl, JsonNum.int.injEq] at hn
    have := h c hc
    omega
  · have := h rsp hr
    omega
  · rw [h] at hs
    cases hs
  · rw [hxs, Option.some.injEq] at hs
    rw [hs, List.length_map] at hlength
    exact hlength hlen
  · rw [hxs, Option.some.injEq] at hs
    rw [hs] at hx
    obtain ⟨k, hk, rfl⟩ := List.mem_map.1 hx
    have := h k rfl
    have := hrs k hk
    omega

/-- Settles O60: SAVE writes the digits of the arena and of I; LOAD reads them back, rejects malformed strings,
and rolls an invalid program back. -/
theorem saveThenLoad : Obligations.SaveThenLoad := by
  unfold Obligations.SaveThenLoad
  intro s u more more' hinv hsave hcap
  have hwf : s.arena.wf = true := by
    obtain ⟨⟨⟨-, -, hwf, -⟩, -⟩, -⟩ := hinv
    exact hwf
  obtain ⟨ds, htext, hlt, hval, h1, h17, hzero⟩ := hexText_digits s.ireg.isLt
  refine ⟨s.image, upperDigits, rfl, step_save hsave, ?_, ?_, rfl, rfl,
    rfl, rfl, ⟨ds, hlt, ?_, hval, h1, h17, hzero⟩, ?_, fun bad hbad => ⟨?_, ?_⟩⟩
  · rw [State.image_storage, List.length_map, Memory.length_nybbles]
  · intro a ha
    rw [State.image_storage, List.getElem?_map, Memory.getElem?_nybbles _ ha,
      upperDigits_getElem? _ (s.arena.get a).isLt]
    rfl
  · rw [State.image_index, htext]
    refine List.map_congr_left fun d hd => ?_
    rw [List.getD_eq_getElem?_getD, upperDigits_getElem? d (hlt d hd)]
    rfl
  · intro hload
    have hstorage : hexDigits? s.image.storage = some s.arena.nybbles := by
      rw [State.image_storage, hexDigits?_map_hexChar fun _ => Memory.nybbles_lt]
    have hindex : hexDigits? s.image.index = some ds := by
      rw [State.image_index, htext, hexDigits?_map_hexChar hlt]
    have hireg : val (hexValue ds) = s.ireg := by rw [hval, val, BitVec.ofNat_toNat, BitVec.setWidth_eq]
    have hvalid := validProgram_image (p := u.params) hinv hcap
    rw [step_load hload, loadImage_read _ hwf hstorage hindex h1 h17, hireg, loadProgram_loaded hvalid]
    rfl
  · intro h
    rw [step_load hbad, loadImage_rejected _ h]
    rfl
  · intro m ds hm hlen hread hindex h1 h17 h
    have hnone := validProgram_eq_none h
    rw [step_load hbad, loadImage_read _ hm (hexDigits?_storage hlen hread) (hexDigits?_eq_some_iff.2 hindex) h1 h17,
      loadProgram_rolledBack hnone]
    rfl

end Sys2Proof.Machine
end

section
/-! SUPPORT. The decoder and the encoder are inverse to each other, on command words by opcode and operand field and on
stored lines by opcode (30_encoding.md R71 to R78). -/

namespace Sys2Proof

/-! ### Command words by opcode and operand field -/

/-- A field of `k` bits as an operand is its number. -/
theorem toNat_ofNat_field {k f : Nat} (h : f < 2 ^ k) : (BitVec.ofNat k f).toNat = f := by
  rw [BitVec.toNat_ofNat, Nat.mod_eq_of_lt h]

/-- The number of an operand as a field is the operand. -/
theorem ofNat_toNat_field {k : Nat} (x : BitVec k) : BitVec.ofNat k x.toNat = x := by
  rw [BitVec.ofNat_toNat, BitVec.setWidth_eq]

/-- A command word is its opcode and its operand field. -/
theorem commandCode_fields (w : CmdWord) : commandCode (w.toNat / 2 ^ 26) (w.toNat % 2 ^ 26) = .command w := by
  rw [commandCode, Nat.div_add_mod', ofNat_toNat_field]

/-- What the decoder reads from a command's code, from what it reads from its opcode and its field. -/
theorem decode_commandCode {op f : Nat} {r : Except DecodeReject Instr} (ho : op < 2 ^ 6) (hf : f < 2 ^ 26)
    (h : ∀ w : CmdWord, w.toNat / 2 ^ 26 = op → w.toNat % 2 ^ 26 = f → decodeCommand w = r) :
    decode (commandCode op f) = r := by
  apply h <;> rw [BitVec.toNat_ofNat] <;> omega

/-- The instruction is well-formed and its code is the command word with this opcode and this field. -/
def EncodesTo (i : Instr) (op f : Nat) : Prop := i.wf = true ∧ encode i = commandCode op f

theorem EncodesTo.of_fmtN {op f : Nat} {i j : Instr} (h : fmtN f i = .ok j) (hi : EncodesTo i op 0) :
    EncodesTo j op f := by
  obtain ⟨rfl, rfl⟩ := Machine.fmtN_eq_ok.1 h
  exact hi

theorem EncodesTo.of_fmtField {op k f : Nat} {g : Nat → Instr} {j : Instr}
    (h : fmtField k f g = .ok j) (hg : ∀ f < 2 ^ k, EncodesTo (g f) op f) : EncodesTo j op f := by
  obtain ⟨hf, rfl⟩ := Machine.fmtField_eq_ok.1 h
  exact hg f hf

theorem EncodesTo.of_fmtInd {op k f : Nat} {g : Nat → Instr} {i j : Instr} (h : fmtInd k f g i = .ok j)
    (hf : f < 2 ^ 26) (hg : ∀ f < 2 ^ k, EncodesTo (g f) op f) (hi : EncodesTo i op (2 ^ 25)) :
    EncodesTo j op f := by
  obtain ⟨-, hk, rfl⟩ | ⟨hle, h0, rfl⟩ := Machine.fmtInd_eq_ok.1 h
  · exact hg f hk
  · rwa [show f = 2 ^ 25 by omega]

/-- What decodes from a command word encodes to it, row by row of R72. -/
theorem encodesTo_of_decodeCommand {w : CmdWord} {i : Instr} (h : decodeCommand w = .ok i) :
    EncodesTo i (w.toNat / 2 ^ 26) (w.toNat % 2 ^ 26) := by
  have hf : w.toNat % 2 ^ 26 < 2 ^ 26 := Nat.mod_lt _ (by decide)
  unfold decodeCommand at h
  generalize w.toNat % 2 ^ 26 = f, w.toNat / 2 ^ 26 = op at h hf ⊢
  split at h
  any_goals exact .of_fmtN h ⟨rfl, rfl⟩
  -- SETWS, INSERT, SETLINE and READLINE: the operand is the field itself.
  case h_11 | h_29 | h_31 | h_32 =>
    exact .of_fmtField h fun f hf => ⟨rfl, by rw [encode, toNat_ofNat_field hf]⟩
  -- SETMODE, WFLAG, SKIPFLAG and SKIPIF: the field is a code of at most two bits.
  case h_12 | h_13 | h_14 | h_34 =>
    exact .of_fmtField h fun f hf => ⟨rfl, by interval_cases f <;> rfl⟩
  -- RREG, WREG, GOTO and GOSUB: the operand is the field, or `ind` is set and the field is 0.
  case h_19 | h_20 | h_35 | h_36 =>
    exact .of_fmtInd h hf (fun f hf => ⟨rfl, by rw [encode, toNat_ofNat_field hf]⟩) ⟨rfl, rfl⟩
  case h_40 => cases h

/-! ### Stored lines by opcode -/

/-- The stored instruction of an opcode under the reference map (R78). -/
def refLine (op : Opcode) : Instr := lineInstr op (referenceMap op)

/-- The ranges of R78, and the two stored forms of an Other opcode (R75). -/
theorem refLine_cases (op : Opcode) :
    (op.toNat < 0x10 ∧ refLine op = .lblN (BitVec.ofNat 4 op.toNat)) ∨
    (0x10 ≤ op.toNat ∧ op.toNat < 0x20 ∧ refLine op = .gtoN (BitVec.ofNat 4 (op.toNat - 0x10))) ∨
    (0x20 ≤ op.toNat ∧ op.toNat < 0x30 ∧ refLine op = .gsbN (BitVec.ofNat 4 (op.toNat - 0x20))) ∨
    (op.toNat = 0x30 ∧ refLine op = .rtnStored) ∨
    (op.toNat = 0x31 ∧ refLine op = .gtoStoredI) ∨
    (op.toNat = 0x32 ∧ refLine op = .gsbStoredI) ∨
    (0x33 ≤ op.toNat ∧ op.toNat ≤ 0xFE ∧ refLine op = .opPM1 (BitVec.ofNat 8 op.toNat)) ∨
    (0xFF ≤ op.toNat ∧ refLine op = .opPM2 (BitVec.ofNat 8 (op.toNat - 0xFF))) := by
  simp only [refLine, referenceMap]
  split_ifs
  case neg =>
    rw [lineInstr]
    split <;> simp <;> omega
  all_goals
    simp [lineInstr]
    omega

/-- An opcode of a line is 0..0x1FE (R75); the instruction it stands for encodes to its stored form. -/
theorem encode_refLine {op : Opcode} (h : op.toNat ≤ 0x1FE) :
    (refLine op).wf = true ∧ encode (refLine op) = .line (storedBytes op) := by
  have hline {n : Nat} (hn : n = op.toNat) : Code.line (storedBytes (BitVec.ofNat 9 n)) = .line (storedBytes op) := by
    rw [hn, ofNat_toNat_field]
  rcases refLine_cases op with ⟨h1, hr⟩ | ⟨h1, h2, hr⟩ | ⟨h1, h2, hr⟩ | ⟨h1, hr⟩ | ⟨h1, hr⟩ | ⟨h1, hr⟩ |
      ⟨h1, h2, hr⟩ | ⟨h1, hr⟩ <;> rw [hr]
  · exact ⟨rfl, hline (by rw [BitVec.toNat_ofNat]; omega)⟩
  · exact ⟨rfl, hline (by rw [BitVec.toNat_ofNat]; omega)⟩
  · exact ⟨rfl, hline (by rw [BitVec.toNat_ofNat]; omega)⟩
  · exact ⟨rfl, hline h1.symm⟩
  · exact ⟨rfl, hline h1.symm⟩
  · exact ⟨rfl, hline h1.symm⟩
  · exact ⟨by simp [Instr.wf]; omega, hline (by rw [BitVec.toNat_ofNat]; omega)⟩
  · exact ⟨rfl, hline (by rw [BitVec.toNat_ofNat]; omega)⟩

/-- A byte other than the escape byte is a whole line (R76). -/
theorem decodeLine_byte {b0 : Byte} (h : b0 ≠ 0xFF) (rest : List Byte) :
    decodeLine (b0 :: rest) = .ok (refLine (opcodeOfBytes b0.toNat 0), rest) :=
  if_neg h

/-- The escape byte and the byte after it are a line (R76). -/
theorem decodeLine_escape (b1 : Byte) (rest : List Byte) :
    decodeLine (0xFF :: b1 :: rest) = .ok (refLine (opcodeOfBytes 0xFF b1.toNat), rest) := rfl

theorem toNat_ne_escape {b : Byte} (h : b ≠ 0xFF) : b.toNat ≠ 0xFF := fun he => h (BitVec.eq_of_toNat_eq he)

theorem toNat_opcodeOfBytes_byte {b0 : Byte} (h : b0 ≠ 0xFF) : (opcodeOfBytes b0.toNat 0).toNat = b0.toNat := by
  rw [opcodeOfBytes, if_neg (toNat_ne_escape h), toNat_ofNat_field (by omega)]

theorem toNat_opcodeOfBytes_escape (b1 : Byte) : (opcodeOfBytes 0xFF b1.toNat).toNat = 0xFF + b1.toNat := by
  rw [opcodeOfBytes, if_pos rfl, toNat_ofNat_field (by omega)]

theorem storedBytes_opcodeOfBytes_byte {b0 : Byte} (h : b0 ≠ 0xFF) : storedBytes (opcodeOfBytes b0.toNat 0) = [b0] := by
  have := toNat_ne_escape h
  rw [storedBytes, toNat_opcodeOfBytes_byte h, if_pos (by omega), ofNat_toNat_field]

theorem storedBytes_opcodeOfBytes_escape (b1 : Byte) : storedBytes (opcodeOfBytes 0xFF b1.toNat) = [0xFF, b1] := by
  rw [storedBytes, toNat_opcodeOfBytes_escape, if_neg (by omega), Nat.add_sub_cancel_left, ofNat_toNat_field]

/-- The opcodes 0..0x1FE are those that bytes store (R75). -/
theorem exists_bytes_of_opcode {op : Opcode} (h : op.toNat ≤ 0x1FE) :
    (∃ b0 : Byte, b0 ≠ 0xFF ∧ opcodeOfBytes b0.toNat 0 = op) ∨ ∃ b1 : Byte, opcodeOfBytes 0xFF b1.toNat = op := by
  by_cases hle : op.toNat ≤ 0xFE
  · have hb : (BitVec.ofNat 8 op.toNat).toNat = op.toNat := toNat_ofNat_field (by omega)
    have hne : BitVec.ofNat 8 op.toNat ≠ 0xFF := fun he =>
      Nat.ne_of_lt (show op.toNat < 0xFF by omega) (hb.symm.trans (congrArg BitVec.toNat he))
    exact .inl ⟨_, hne, BitVec.eq_of_toNat_eq (by rw [toNat_opcodeOfBytes_byte hne, hb])⟩
  · have hb : (BitVec.ofNat 8 (op.toNat - 0xFF)).toNat = op.toNat - 0xFF := toNat_ofNat_field (by omega)
    exact .inr ⟨_, BitVec.eq_of_toNat_eq (by rw [toNat_opcodeOfBytes_escape, hb]; omega)⟩

/-- A line's bytes decode to the instruction of the opcode they store. -/
theorem decodeLine_storedBytes {op : Opcode} (h : op.toNat ≤ 0x1FE) :
    decodeLine (storedBytes op) = .ok (refLine op, []) := by
  obtain ⟨b0, hne, rfl⟩ | ⟨b1, rfl⟩ := exists_bytes_of_opcode h
  · rw [storedBytes_opcodeOfBytes_byte hne, decodeLine_byte hne]
  · rw [storedBytes_opcodeOfBytes_escape, decodeLine_escape]

/-- What decodes from the bytes of one line is the instruction of the opcode they store. -/
theorem opcode_of_decodeLine {bs : List Byte} {i : Instr} (h : decodeLine bs = .ok (i, [])) :
    ∃ op : Opcode, op.toNat ≤ 0x1FE ∧ bs = storedBytes op ∧ refLine op = i := by
  match bs with
  | [] => cases h
  | b0 :: rest =>
    by_cases hesc : b0 = 0xFF
    · subst hesc
      match rest with
      | [] => cases h
      | b1 :: rest =>
        rw [decodeLine_escape] at h
        cases h
        exact ⟨_, by rw [toNat_opcodeOfBytes_escape]; omega, (storedBytes_opcodeOfBytes_escape b1).symm, rfl⟩
    · rw [decodeLine_byte hesc] at h
      cases h
      exact ⟨_, by rw [toNat_opcodeOfBytes_byte hesc]; omega, (storedBytes_opcodeOfBytes_byte hesc).symm, rfl⟩

theorem decode_line_eq_ok {bs : List Byte} {i : Instr} :
    decode (.line bs) = .ok i ↔ decodeLine bs = .ok (i, []) := by
  simp only [decode]
  split <;> simp [*]

/-- The instruction an opcode stands for decodes from its code. -/
theorem decode_encode_refLine {op : Opcode} {i : Instr} (h : op.toNat ≤ 0x1FE) (hi : refLine op = i) :
    decode (encode i) = .ok i := by
  rw [← hi, (encode_refLine h).2, decode_line_eq_ok, decodeLine_storedBytes h]

theorem refLine_lblN : ∀ n : Label, refLine (BitVec.ofNat 9 n.toNat) = .lblN n := by decide

theorem refLine_gtoN : ∀ n : Label, refLine (BitVec.ofNat 9 (0x10 + n.toNat)) = .gtoN n := by decide

theorem refLine_gsbN : ∀ n : Label, refLine (BitVec.ofNat 9 (0x20 + n.toNat)) = .gsbN n := by decide

theorem refLine_opPM1 {o : Byte} (h : (Instr.opPM1 o).wf = true) : refLine (BitVec.ofNat 9 o.toNat) = .opPM1 o := by
  simp only [Instr.wf, Bool.and_eq_true, decide_eq_true_eq] at h
  have ho : (BitVec.ofNat 9 o.toNat).toNat = o.toNat := toNat_ofNat_field (by omega)
  simp only [refLine, referenceMap, ho]
  repeat rw [if_neg (by omega)]
  rw [lineInstr, ho, if_pos h.2, ofNat_toNat_field]

theorem refLine_opPM2 (o : Byte) : refLine (BitVec.ofNat 9 (0xFF + o.toNat)) = .opPM2 o := by
  have ho : (BitVec.ofNat 9 (0xFF + o.toNat)).toNat = 0xFF + o.toNat := toNat_ofNat_field (by omega)
  simp only [refLine, referenceMap, ho]
  repeat rw [if_neg (by omega)]
  rw [lineInstr, ho, if_neg (by omega), Nat.add_sub_cancel_left, ofNat_toNat_field]

/-! ### The decoder and the encoder -/

/-- Settles O1: a command by its opcode and its operand field, a stored line by the opcode it stands for. -/
theorem decodeOfEncode : Obligations.DecodeOfEncode := by
  unfold Obligations.DecodeOfEncode
  intro i hwf
  cases i
  case setws n | insert n | setline n | readline n =>
    refine decode_commandCode (by decide) (by omega) fun w hop hf => ?_
    simp only [decodeCommand, hop, hf, fmtField, n.isLt, if_true, ofNat_toNat_field]
  case rreg n | wreg n | goto n | gosub n =>
    refine decode_commandCode (by decide) (by omega) fun w hop hf => ?_
    simp only [decodeCommand, hop, hf, fmtInd, n.isLt, if_true, ofNat_toNat_field]
    rw [if_pos (by omega)]
  case setmode m => cases m <;> rfl
  case wflag f v => cases f <;> cases v <;> rfl
  case skipflag f => cases f <;> rfl
  case skipif b => cases b <;> rfl
  case lblN n => exact decode_encode_refLine (by rw [BitVec.toNat_ofNat]; omega) (refLine_lblN n)
  case gtoN n => exact decode_encode_refLine (by rw [BitVec.toNat_ofNat]; omega) (refLine_gtoN n)
  case gsbN n => exact decode_encode_refLine (by rw [BitVec.toNat_ofNat]; omega) (refLine_gsbN n)
  case opPM1 o => exact decode_encode_refLine (by rw [BitVec.toNat_ofNat]; omega) (refLine_opPM1 hwf)
  case opPM2 o => exact decode_encode_refLine (by rw [BitVec.toNat_ofNat]; omega) (refLine_opPM2 o)
  -- No operand: the code is one word or one line, and the decoder evaluates on it.
  all_goals rfl

/-- Settles O2: row by row of R72 for a command word, by the opcode that the bytes store for a line. -/
theorem encodeOfDecode : Obligations.EncodeOfDecode := by
  unfold Obligations.EncodeOfDecode
  intro k i h
  cases k with
  | command w =>
    rw [← commandCode_fields w]
    exact encodesTo_of_decodeCommand h
  | line bs =>
    obtain ⟨op, hop, rfl, rfl⟩ := opcode_of_decodeLine (decode_line_eq_ok.1 h)
    exact encode_refLine hop

/-- Settles O4: each sample code is what the encoder writes for its instruction, so O1 gives all but the reserved
word. -/
theorem sampleCodesDecode : Obligations.SampleCodesDecode :=
  ⟨decodeOfEncode .add rfl, decodeOfEncode (.setws 4) rfl, decodeOfEncode (.wreg 1) rfl, decodeOfEncode .wregI rfl,
    decodeOfEncode (.goto 2) rfl, decodeOfEncode .gosubI rfl, decodeOfEncode (.insert 0x1FE) rfl,
    decodeOfEncode (.lblN 15) rfl, decodeOfEncode (.gtoN 2) rfl, decodeOfEncode (.gsbN 3) rfl,
    decodeOfEncode .rtnStored rfl, decodeOfEncode .gtoStoredI rfl, decodeOfEncode .gsbStoredI rfl,
    decodeOfEncode (.opPM1 0x40) rfl, decodeOfEncode (.opPM2 0xFF) rfl, rfl⟩

end Sys2Proof
end

section
/-! SUPPORT. The words that decode, by opcode and operand field, and the rows of the opcode table in the same terms
(30_encoding.md R72 to R74). -/

namespace Sys2Proof

theorem exists_fmtN {f : Nat} {i : Instr} : (∃ j, fmtN f i = .ok j) ↔ f = 0 := by
  simp [Machine.fmtN_eq_ok]

theorem exists_fmtField {k f : Nat} {g : Nat → Instr} : (∃ j, fmtField k f g = .ok j) ↔ f < 2 ^ k := by
  simp [Machine.fmtField_eq_ok]

theorem exists_fmtInd {k f : Nat} {g : Nat → Instr} {i : Instr} (hk : k ≤ 25) (hf : f < 2 ^ 26) :
    (∃ j, fmtInd k f g i = .ok j) ↔ f < 2 ^ k ∨ f = 2 ^ 25 := by
  have := Nat.pow_le_pow_right (n := 2) (by decide) hk
  simp only [Machine.fmtInd_eq_ok, exists_or, exists_and_left, exists_eq', and_true]
  omega

theorem word_eq_iff (w c : CmdWord) :
    w = c ↔ w.toNat / 2 ^ 26 = c.toNat / 2 ^ 26 ∧ w.toNat % 2 ^ 26 = c.toNat % 2 ^ 26 := by
  rw [← BitVec.toNat_inj]
  omega

/-- Under a mask of the opcode and of all but the `k` low bits of the field, a row's match has its opcode and any field
of `k` bits. -/
theorem and_mask_eq_iff (k : Nat) (m : CmdWord) (hm : m = BitVec.allOnes 32 <<< k) (hk : k ≤ 26) {w c : CmdWord}
    (hc : c.toNat % 2 ^ 26 = 0) :
    w &&& m = c ↔ w.toNat / 2 ^ 26 = c.toNat / 2 ^ 26 ∧ w.toNat % 2 ^ 26 < 2 ^ k := by
  have hlow : (w &&& m).toNat = w.toNat - w.toNat % 2 ^ 26 % 2 ^ k := by
    rw [hm, ← BitVec.shiftLeft_ushiftRight, BitVec.toNat_shiftLeft, BitVec.toNat_ushiftRight, Nat.shiftLeft_eq,
      Nat.shiftRight_eq_div_pow, Nat.mod_eq_of_lt (Nat.lt_of_le_of_lt (Nat.div_mul_le_self _ _) w.isLt),
      Nat.div_mul_self_eq_mod_sub_self, Nat.mod_mod_of_dvd _ (Nat.pow_dvd_pow 2 hk)]
  have hle := Nat.mod_le (w.toNat % 2 ^ 26) (2 ^ k)
  have hlt := Nat.mod_lt (w.toNat % 2 ^ 26) (Nat.two_pow_pos k)
  have heq : w.toNat % 2 ^ 26 < 2 ^ k → _ := Nat.mod_eq_of_lt
  rw [← BitVec.toNat_inj, hlow]
  omega

/-- Settles O3: with both sides in terms of the opcode and the operand field, they agree opcode by opcode. -/
theorem decoderFollowsOpcodeTable : Obligations.DecoderFollowsOpcodeTable := by
  unfold Obligations.DecoderFollowsOpcodeTable
  intro w
  have hf : w.toNat % 2 ^ 26 < 2 ^ 26 := Nat.mod_lt _ (by decide)
  simp (disch := decide) only [List.mem_cons, List.not_mem_nil, or_false, word_eq_iff w,
    and_mask_eq_iff 1 0xFFFFFFFE rfl, and_mask_eq_iff 2 0xFFFFFFFC rfl, and_mask_eq_iff 4 0xFFFFFFF0 rfl,
    and_mask_eq_iff 7 0xFFFFFF80 rfl, and_mask_eq_iff 8 0xFFFFFF00 rfl, and_mask_eq_iff 9 0xFFFFFE00 rfl]
  unfold decodeCommand
  generalize w.toNat % 2 ^ 26 = f, w.toNat / 2 ^ 26 = op at hf ⊢
  simp only [BitVec.reduceToNat, Nat.reduceMod, Nat.reduceDiv, Nat.reducePow]
  split
  case h_19 | h_20 | h_35 | h_36 =>
    rw [exists_fmtInd (by decide) hf]
    simp [or_comm]
  -- An opcode that is not in the table: it differs from that of every row.
  case h_40 => simp_all
  all_goals simp [exists_fmtN, exists_fmtField]

end Sys2Proof
end

section
/-! SUPPORT. RUNSTEP on a line is the line's own instruction on the incremented cursor (30_encoding.md R76, R77,
44_control_flow.md R271, R272). -/

namespace Sys2Proof.Machine

/-- The instruction of a stored opcode has the meaning that RUNSTEP finds by the opcode's class (R271, R272). -/
theorem exec_lineInstr (op : Opcode) (s : State) :
    exec (lineInstr op (s.params.classOf op)) s = perform (runLine op) s := by
  rw [perform, runLine, State.setOut_params]
  cases s.params.classOf op with
  | other =>
    simp only [lineInstr]
    split <;> rfl
  | _ => rfl

/-- A stored line that ends well reports neither an error nor a refusal. -/
theorem runLine_out {op : Opcode} {s t : State} (hs : s.out = Outputs.absent) (h : runLine op s = .ok t) :
    t.out.err = none ∧ t.out.refused = none := by
  obtain ⟨k, c, rs, rsp, o, rfl, rfl | ho⟩ := (runLine_inv h).frame
  · rw [State.setOut_out, hs]
    exact ⟨rfl, rfl⟩
  · exact ho

/-- RUNSTEP on a line is the line on the incremented cursor, but that a refusal restores the state (R303) and an error
the cache (notes/assumptions/8.md). -/
theorem exec_runstep_line {s t : State} {op : Opcode} (hz : s.inc s.cur ≠ 0)
    (hop : s.opcodeAt (s.inc s.cur) = .ok op)
    (h : perform (runLine op) { s with cur := s.inc s.cur, cache := s.resolve (s.inc s.cur) } = .next t) :
    exec .runstep s = .next
      (if t.out.refused.isSome then { s with out := t.out }
       else if t.out.err.isSome then { t with cache := s.cache }
       else t) := by
  have hrun : exec .runstep s = ((runLine op (({ s with
      cur := s.inc s.cur
      cache := s.resolve (s.inc s.cur) } : State).setOut Outputs.absent)).restoreCache s.cache).conclude s :=
    congrArg (Ending.conclude s) (runStep_line (s := s.setOut Outputs.absent) hz hop)
  rw [hrun]
  rw [perform] at h
  generalize hr : runLine op _ = e at h ⊢
  cases e with
  | ok u =>
    cases h
    obtain ⟨herr, href⟩ := runLine_out rfl hr
    simp [herr, href, Ending.restoreCache]
  | err c u =>
    cases h
    rfl
  | refuse r =>
    cases h
    rfl
  | fault f => cases h

/-- Two bytes begin with a line, whose opcode R76 reads from them. -/
theorem decodeLine_pair (b0 b1 : Byte) :
    ∃ more, decodeLine [b0, b1] = .ok (refLine (opcodeOfBytes b0.toNat b1.toNat), more) := by
  by_cases h : b0 = 0xFF
  · exact ⟨[], h ▸ decodeLine_escape b1 []⟩
  · have hop : opcodeOfBytes b0.toNat b1.toNat = opcodeOfBytes b0.toNat 0 := by
      rw [opcodeOfBytes, opcodeOfBytes, if_neg (toNat_ne_escape h), if_neg (toNat_ne_escape h)]
    exact ⟨[b1], hop ▸ decodeLine_byte h [b1]⟩

/-- Under the reference map the instruction a line's bytes decode to is that of its opcode's class. -/
theorem lineInstr_of_decodeLine {s : State} {l a : Nat} {i : Instr} {more : List Byte}
    (hmap : s.params.opcodeMap = .standard) (ha : s.lineAddr l = .ok a) (hfit : a + lineWidth s.arena a ≤ arenaSize)
    (h : decodeLine [BitVec.ofNat 8 (s.arena.readN a 2), BitVec.ofNat 8 (s.arena.readN (a + 2) 2)] = .ok (i, more)) :
    ∃ op, s.opcodeAt l = .ok op ∧ lineInstr op (s.params.classOf op) = i := by
  refine ⟨_, State.opcodeAt_of_lineAddr ha hfit, ?_⟩
  obtain ⟨more', h'⟩ := decodeLine_pair (BitVec.ofNat 8 (s.arena.readN a 2)) (BitVec.ofNat 8 (s.arena.readN (a + 2) 2))
  rw [toNat_ofNat_field (s.arena.readN_lt a 2), toNat_ofNat_field (s.arena.readN_lt (a + 2) 2)] at h'
  rw [Params.classOf, hmap]
  cases h'.symm.trans h
  rfl

/-- Settles O6: either reading of the line gives the instruction of its opcode's class, and RUNSTEP runs that. -/
theorem runstepRunsStoredLine : Obligations.RunstepRunsStoredLine := by
  unfold Obligations.RunstepRunsStoredLine
  intro s i hz hi t ht
  obtain ⟨op, hop, rfl⟩ : ∃ op, s.opcodeAt (s.inc s.cur) = .ok op ∧ lineInstr op (s.params.classOf op) = i := by
    rcases hi with ⟨op, hop, hclass⟩ | ⟨hmap, a, more, ha, hfit, hdec⟩
    · refine ⟨op, hop, ?_⟩
      rcases hclass with ⟨n, hc, rfl⟩ | ⟨n, hc, rfl⟩ | ⟨n, hc, rfl⟩ | ⟨hc, rfl⟩ | ⟨hc, rfl⟩ | ⟨hc, rfl⟩ |
          ⟨hc, hle, rfl⟩ | ⟨hc, hlt, rfl⟩ <;> rw [hc, lineInstr]
      · rw [if_pos hle]
      · rw [if_neg (Nat.not_le.2 hlt)]
    · refine lineInstr_of_decodeLine hmap ha ?_ hdec
      rw [lineWidth]
      split at hfit <;> simp [*]
  exact exec_runstep_line hz hop ((exec_lineInstr op _).symm.trans ht)

end Sys2Proof.Machine
end

section
/-! SUPPORT. The fields of a float (40_value_bcd.md R102 to R106): its exponent field, what makes it legal, its exact
value, and the fields of a float packed from a sign, a mantissa and an exponent field (R110). -/

namespace Sys2Proof.Machine

/-! ### The exponent field -/

/-- The exponent digits as a number (40_value_bcd.md R104). -/
def expField (v : Value) : Nat := 100 * nyb v 2 + 10 * nyb v 1 + nyb v 0

/-- The exponent digits are decimal (40_value_bcd.md R104). -/
def ExpDecimal (v : Value) : Prop := nyb v 2 ≤ 9 ∧ nyb v 1 ≤ 9 ∧ nyb v 0 ≤ 9

theorem floatExp?_of_not_decimal {v : Value} (h : ¬ ExpDecimal v) : floatExp? v = none := by
  unfold ExpDecimal at h
  exact if_pos (by omega)

theorem floatExp?_of_decimal {v : Value} (h : ExpDecimal v) :
    floatExp? v = if expField v ≤ 99 then some (expField v : Int)
      else if 901 ≤ expField v then some ((expField v : Int) - 1000) else none := by
  obtain ⟨h2, h1, h0⟩ := h
  exact if_neg (by omega)

theorem floatExp?_isSome_iff (v : Value) :
    (floatExp? v).isSome = true ↔ ExpDecimal v ∧ (expField v ≤ 99 ∨ 901 ≤ expField v) := by
  by_cases h : ExpDecimal v
  · rw [floatExp?_of_decimal h]
    split
    · simp [*]
    · split <;> simp [*]
  · simp [floatExp?_of_not_decimal h, h]

/-- An exponent is in -99..99 (40_value_bcd.md R104). -/
theorem floatExp?_range {v : Value} {e : Int} (h : floatExp? v = some e) : -99 ≤ e ∧ e ≤ 99 := by
  obtain ⟨hd, -⟩ := (floatExp?_isSome_iff v).1 (by rw [h]; rfl)
  have hlt : expField v ≤ 999 := by
    obtain ⟨h2, h1, h0⟩ := hd
    unfold expField
    omega
  rw [floatExp?_of_decimal hd] at h
  split at h
  · cases h
    omega
  · split at h
    · cases h
      omega
    · cases h

/-! ### Legality and value -/

/-- What makes a float legal (40_value_bcd.md R105). -/
theorem isLegalFloat_iff (v : Value) :
    isLegalFloat v = true ↔ v.toNat < 2 ^ 56 ∧ (∀ j, j < 10 → nyb v (12 - j) ≤ 9) ∧ ExpDecimal v ∧
      (expField v ≤ 99 ∨ 901 ≤ expField v) ∧ (mant v = 0 ∨ nyb v 13 = 0 ∨ nyb v 13 = 9) := by
  have hhi : floatHi v = 0 ↔ v.toNat < 2 ^ 56 := by
    unfold floatHi
    omega
  simp only [isLegalFloat, Bool.and_eq_true, beq_iff_eq, hhi, List.all_eq_true, List.mem_range, decide_eq_true_eq,
    floatExp?_isSome_iff, Bool.or_eq_true, and_assoc, or_assoc]
  rfl

theorem floatDigits_lt {v : Value} {k : Nat} (h : ∀ j < k, floatDigit v j ≤ 9) : floatDigits v k < 10 ^ k := by
  induction k with
  | zero => exact Nat.one_pos
  | succ k ih =>
    have hk := ih fun j hj => h j (by omega)
    have hd := h k (by omega)
    rw [floatDigits, Nat.pow_succ]
    omega

/-- The first mantissa digits, as the sum of their place values. -/
theorem floatDigits_eq_sum (v : Value) (k : Nat) :
    (floatDigits v k : Rat) = ((List.range k).map fun j => (floatDigit v j : Rat) * 10 ^ (k - 1 - j)).sum := by
  induction k with
  | zero => simp [floatDigits]
  | succ k ih =>
    have hshift : ∀ j ∈ List.range k, (floatDigit v j : Rat) * 10 ^ (k + 1 - 1 - j) =
        (floatDigit v j : Rat) * 10 ^ (k - 1 - j) * 10 := fun j hj => by
      rw [List.mem_range] at hj
      rw [mul_assoc, ← pow_succ]
      congr 2
      omega
    rw [List.sum_range_succ, List.map_congr_left hshift, List.sum_map_mul_right, ← ih, floatDigits]
    simp

/-- An integer power of ten as a quotient of natural powers, one of which is 1. -/
theorem ten_pow_toNat_div (e : Int) : (10 : Rat) ^ e.toNat / 10 ^ (-e).toNat = 10 ^ e := by
  rw [← zpow_natCast, ← zpow_natCast, ← zpow_sub₀ (by norm_num)]
  congr 1
  omega

/-- The value of a float, by its sign, mantissa and exponent (40_value_bcd.md R106). -/
theorem floatValue_eq {v : Value} {e : Int} (h : floatExp? v = some e) :
    floatValue v = (if floatSgn v = 9 then -1 else 1) * ((mant v : Rat) * 10 ^ (e - 9)) := by
  simp only [floatValue, h, Option.getD_some, Rat.mkRat_eq_div]
  split <;> push_cast <;> rw [mul_div_assoc, ten_pow_toNat_div] <;> ring

/-- A legal float is below 10^100. -/
theorem abs_floatValue_lt {v : Value} (h : isLegalFloat v = true) : |floatValue v| < (10 : Rat) ^ (100 : Int) := by
  obtain ⟨-, hdig, hdec, hexp, -⟩ := (isLegalFloat_iff v).1 h
  obtain ⟨e, he⟩ := Option.isSome_iff_exists.1 ((floatExp?_isSome_iff v).2 ⟨hdec, hexp⟩)
  have hm : (mant v : Rat) < 10 ^ (10 : Int) := by exact_mod_cast floatDigits_lt (v := v) (k := 10) hdig
  have hsign : |(if floatSgn v = 9 then -1 else 1 : Rat)| = 1 := by split <;> simp
  have he99 := (floatExp?_range he).2
  rw [floatValue_eq he, abs_mul, hsign, one_mul, abs_of_nonneg (by positivity)]
  calc (mant v : Rat) * 10 ^ (e - 9) < 10 ^ (10 : Int) * 10 ^ (e - 9) := by gcongr
    _ = 10 ^ (10 + (e - 9)) := (zpow_add₀ (by norm_num) _ _).symm
    _ ≤ 10 ^ (100 : Int) := zpow_le_zpow_right₀ (by norm_num) (by omega)

/-! ### A packed float (R110) -/

theorem bcd_lt (k n : Nat) : bcd k n < 16 ^ k := by
  induction k generalizing n with
  | zero => exact Nat.one_pos
  | succ k ih =>
    have := ih (n / 10)
    rw [bcd, Nat.pow_succ]
    omega

/-- Nybble `j` of a decimal coding is digit `j`. -/
theorem bcd_nybble {k j : Nat} (n : Nat) (h : j < k) : bcd k n / 16 ^ j % 16 = n / 10 ^ j % 10 := by
  induction k generalizing n j with
  | zero => omega
  | succ k ih =>
    rw [bcd]
    cases j with
    | zero => omega
    | succ j =>
      rw [Nat.pow_succ', ← Nat.div_div_eq_div_mul, Nat.pow_succ', ← Nat.div_div_eq_div_mul, ← ih (n / 10) (by omega)]
      congr 2
      omega

theorem toNat_packFloat {sgn : Nat} (m e : Nat) (h : sgn ≤ 9) :
    (packFloat sgn m e).toNat = sgn * 2 ^ 52 + bcd 10 m * 2 ^ 12 + bcd 3 e := by
  have := bcd_lt 10 m
  have := bcd_lt 3 e
  rw [packFloat, BitVec.toNat_ofNat]
  omega

theorem floatSgn_packFloat {sgn : Nat} (m e : Nat) (h : sgn ≤ 9) : floatSgn (packFloat sgn m e) = sgn := by
  have := bcd_lt 10 m
  have := bcd_lt 3 e
  rw [floatSgn, nyb, toNat_packFloat m e h]
  omega

theorem nyb_packFloat_exp {sgn j : Nat} (m e : Nat) (h : sgn ≤ 9) (hj : j < 3) :
    nyb (packFloat sgn m e) j = e / 10 ^ j % 10 := by
  rw [nyb, toNat_packFloat m e h, ← bcd_nybble e hj]
  interval_cases j <;> omega

theorem floatDigit_packFloat {sgn j : Nat} (m e : Nat) (h : sgn ≤ 9) (hj : j < 10) :
    floatDigit (packFloat sgn m e) j = m / 10 ^ (9 - j) % 10 := by
  have := bcd_lt 3 e
  rw [floatDigit, nyb, toNat_packFloat m e h, ← bcd_nybble (k := 10) m (show 9 - j < 10 by omega)]
  interval_cases j <;> omega

theorem floatDigits_packFloat {sgn m k : Nat} (e : Nat) (h : sgn ≤ 9) (hm : m < 10 ^ 10) (hk : k ≤ 10) :
    floatDigits (packFloat sgn m e) k = m / 10 ^ (10 - k) := by
  induction k with
  | zero => exact (Nat.div_eq_of_lt hm).symm
  | succ k ih =>
    rw [floatDigits, ih (by omega), floatDigit_packFloat m e h (by omega), show 10 - k = 9 - k + 1 by omega,
      Nat.pow_succ, ← Nat.div_div_eq_div_mul, Nat.add_sub_add_right 9 1 k]
    omega

theorem mant_packFloat {sgn m : Nat} (e : Nat) (h : sgn ≤ 9) (hm : m < 10 ^ 10) : mant (packFloat sgn m e) = m :=
  (floatDigits_packFloat e h hm le_rfl).trans (Nat.div_one m)

theorem expDecimal_packFloat {sgn : Nat} (m e : Nat) (h : sgn ≤ 9) : ExpDecimal (packFloat sgn m e) := by
  simp only [ExpDecimal, nyb_packFloat_exp m e h, Nat.reduceLT]
  omega

theorem expField_packFloat {sgn e : Nat} (m : Nat) (h : sgn ≤ 9) (he : e < 1000) :
    expField (packFloat sgn m e) = e := by
  simp only [expField, nyb_packFloat_exp m e h, Nat.reduceLT]
  omega

/-- A packed float is legal where its sign and its exponent field are (40_value_bcd.md R105, R110). -/
theorem isLegalFloat_packFloat {sgn e : Nat} (m : Nat) (h : sgn = 0 ∨ sgn = 9) (he : e ≤ 99 ∨ 901 ≤ e)
    (he' : e < 1000) : isLegalFloat (packFloat sgn m e) = true := by
  have h9 : sgn ≤ 9 := by omega
  refine (isLegalFloat_iff _).2 ⟨?_, fun j hj => ?_, expDecimal_packFloat m e h9, ?_, ?_⟩
  · have := bcd_lt 10 m
    have := bcd_lt 3 e
    rw [toNat_packFloat m e h9]
    omega
  · have : nyb (packFloat sgn m e) (12 - j) = _ := floatDigit_packFloat m e h9 hj
    omega
  · rwa [expField_packFloat m h9 he']
  · have : nyb (packFloat sgn m e) 13 = sgn := floatSgn_packFloat m e h9
    omega

end Sys2Proof.Machine
end

section
/-! SUPPORT. What rounding a positive fraction to 10 decimal digits gives (40_value_bcd.md R110): the digits, how near
they are, and the exponent. -/

namespace Sys2Proof.Machine

/-! ### The decimal exponent -/

theorem floorLog10Nat_eq_log {fuel n : Nat} (h : n < 10 ^ fuel) : floorLog10Nat fuel n = Nat.log 10 n := by
  induction fuel generalizing n with
  | zero =>
    have : n = 0 := by omega
    rw [this, Nat.log_zero_right, floorLog10Nat]
  | succ fuel ih =>
    rw [floorLog10Nat]
    split
    · rename_i hlt
      exact (Nat.log_of_lt hlt).symm
    · rename_i hge
      rw [Nat.log_of_one_lt_of_le (by norm_num) (not_lt.1 hge), ih (by omega)]

/-- `atLeastPow` for base 10, as a comparison of rationals. -/
theorem atLeastPow_ten {n d : Nat} (hd : 0 < d) (e : Int) :
    atLeastPow 10 n d e = true ↔ (10 : Rat) ^ e ≤ (n : Rat) / d := by
  have hdq : (0 : Rat) < d := by exact_mod_cast hd
  rw [atLeastPow, decide_eq_true_eq, ← ten_pow_toNat_div, div_le_div_iff₀ (by positivity) hdq, mul_comm d]
  exact_mod_cast Iff.rfl

/-- A fraction scaled by a power of ten, in Nat. -/
theorem scaled_ten (n d : Nat) (e : Int) :
    ((n * 10 ^ (-e).toNat : Nat) : Rat) / ((d * 10 ^ e.toNat : Nat) : Rat) = (n : Rat) / d / 10 ^ e := by
  rw [← ten_pow_toNat_div e]
  push_cast
  field_simp

theorem floorLog10_bounds {n d : Nat} (hn : 0 < n) (hd : 0 < d) (hn' : n < 10 ^ 400) (hd' : d < 10 ^ 400) :
    (10 : Rat) ^ floorLog10 n d ≤ (n : Rat) / d ∧ (n : Rat) / d < 10 ^ (floorLog10 n d + 1) := by
  have hdq : (0 : Rat) < d := by exact_mod_cast hd
  have hn1 : (10 : Rat) ^ (Nat.log 10 n : Int) ≤ n := by exact_mod_cast Nat.pow_log_le_self 10 hn.ne'
  have hn2 : (n : Rat) < 10 ^ ((Nat.log 10 n : Int) + 1) := by
    exact_mod_cast Nat.lt_pow_succ_log_self (by norm_num) n
  have hd1 : (10 : Rat) ^ (Nat.log 10 d : Int) ≤ d := by exact_mod_cast Nat.pow_log_le_self 10 hd.ne'
  have hd2 : (d : Rat) < 10 ^ ((Nat.log 10 d : Int) + 1) := by
    exact_mod_cast Nat.lt_pow_succ_log_self (by norm_num) d
  have lower : (10 : Rat) ^ ((Nat.log 10 n : Int) - (Nat.log 10 d + 1)) ≤ (n : Rat) / d := by
    rw [zpow_sub₀ (by norm_num)]
    gcongr
  have upper : (n : Rat) / d < 10 ^ ((Nat.log 10 n : Int) + 1 - Nat.log 10 d) := by
    rw [zpow_sub₀ (by norm_num)]
    gcongr
  simp only [floorLog10, floorLog10Nat_eq_log hn', floorLog10Nat_eq_log hd', atLeastPow_ten hd]
  split
  · rename_i h
    exact ⟨h, by convert upper using 2; ring⟩
  · rename_i h
    exact ⟨by convert lower using 2; ring, by simpa using h⟩

/-! ### The ten digits -/

/-- `(m, e)` is the positive `q` to 10 significant digits, to nearest, ties to even (40_value_bcd.md R110): ten digits
within half a unit of the last, and an exponent that the magnitudes from 9.9999999995 · 10^(e-1) on have and those from
9.9999999995 · 10^e on have not. -/
structure TenDigits (q : Rat) (m : Nat) (e : Int) : Prop where
  lo : 10 ^ 9 ≤ m
  hi : m < 10 ^ 10
  near : 2 * |(m : Rat) * 10 ^ (e - 9) - q| ≤ 10 ^ (e - 9)
  exp_le : 99999999995 * (10 : Rat) ^ (e - 11) ≤ q
  lt_exp : q < 99999999995 * (10 : Rat) ^ (e - 10)

/-- Which magnitudes round to an exponent of at most `k`. -/
theorem TenDigits.le_iff {q : Rat} {m : Nat} {e : Int} (h : TenDigits q m e) (k : Int) :
    e ≤ k ↔ q < 99999999995 * (10 : Rat) ^ (k - 10) := by
  constructor
  · intro hk
    refine h.lt_exp.trans_le ?_
    gcongr
    norm_num
  · intro hq
    by_contra hk
    have hle : 99999999995 * (10 : Rat) ^ (k - 10) ≤ 99999999995 * 10 ^ (e - 11) :=
      mul_le_mul_of_nonneg_left (zpow_le_zpow_right₀ (by norm_num) (by omega)) (by norm_num)
    exact absurd (hle.trans h.exp_le) (not_le.2 hq)

theorem TenDigits.lt_iff {q : Rat} {m : Nat} {e : Int} (h : TenDigits q m e) (k : Int) :
    k < e ↔ 99999999995 * (10 : Rat) ^ (k - 10) ≤ q := by
  rw [← not_le, h.le_iff, not_lt]

/-- An integer nearest to a scaled magnitude in [10^9, 10^10), ties to even: ten digits, or 10^10. -/
theorem tenDigits_of_near {m : Nat} {x : Rat} (hx : 10 ^ 9 ≤ x) (hx' : x < 10 ^ 10) (h : 2 * |(m : Rat) - x| ≤ 1)
    (heven : 2 * |(m : Rat) - x| = 1 → m % 2 = 0) :
    10 ^ 9 ≤ m ∧ m ≤ 10 ^ 10 ∧ (m = 10 ^ 10 ↔ 99999999995 / 10 ≤ x) := by
  obtain ⟨h1, h2⟩ := abs_le.1 (show |(m : Rat) - x| ≤ 1 / 2 by linarith)
  have lo : 10 ^ 9 ≤ m := by
    by_contra hc
    have : (m : Rat) + 1 ≤ 10 ^ 9 := by exact_mod_cast not_le.1 hc
    linarith
  have hi : m ≤ 10 ^ 10 := by
    by_contra hc
    have : (10 : Rat) ^ 10 + 1 ≤ m := by exact_mod_cast not_le.1 hc
    linarith
  refine ⟨lo, hi, fun hm => ?_, fun hm => ?_⟩
  · subst hm
    push_cast at h1 h2
    linarith
  · by_contra hc
    -- only 9999999999 is as near, it is a tie there, and it is odd
    have hle : m ≤ 9999999999 := by omega
    have hleq : (m : Rat) ≤ 9999999999 := by exact_mod_cast hle
    have hge : 9999999999 ≤ m := by exact_mod_cast (show (9999999999 : Rat) ≤ m by linarith)
    obtain rfl : m = 9999999999 := le_antisymm hle hge
    have htie : x = 99999999995 / 10 := by
      push_cast at h1 h2
      linarith
    rw [htie] at heven
    norm_num at heven

/-- A magnitude `x · 10^(e-9)` with `x` rounded to `m`: ten digits and `e`, or where `m` is 10^10 the carry. -/
theorem tenDigits_scaled {m : Nat} {x : Rat} (e : Int) (hx : 10 ^ 9 ≤ x) (hx' : x < 10 ^ 10)
    (h : 2 * |(m : Rat) - x| ≤ 1) (heven : 2 * |(m : Rat) - x| = 1 → m % 2 = 0) {r : Nat × Int}
    (hr : r = if m = 10 ^ 10 then (10 ^ 9, e + 1) else (m, e)) : TenDigits (x * 10 ^ (e - 9)) r.1 r.2 := by
  obtain ⟨lo, hi, htop⟩ := tenDigits_of_near hx hx' h heven
  have hp : (0 : Rat) < 10 ^ (e - 9) := by positivity
  have pow : ∀ i j : Int, i = e - 9 + j → (10 : Rat) ^ i = 10 ^ j * 10 ^ (e - 9) := fun i j h => by
    rw [h, zpow_add₀ (by norm_num), mul_comm]
  have hnear : 2 * |(m : Rat) * 10 ^ (e - 9) - x * 10 ^ (e - 9)| ≤ 10 ^ (e - 9) := by
    rw [← sub_mul, abs_mul, abs_of_pos hp, ← mul_assoc]
    exact mul_le_of_le_one_left hp.le h
  split at hr <;> subst hr <;> rename_i hm
  · have hge := htop.1 hm
    have hunit : (10 : Rat) ^ (e + 1 - 9) = 10 * 10 ^ (e - 9) := by
      rw [pow (e + 1 - 9) 1 (by ring), zpow_one]
    have hvalue : ((10 ^ 9 : Nat) : Rat) * 10 ^ (e + 1 - 9) = m * 10 ^ (e - 9) := by
      rw [hm, hunit]
      push_cast
      ring
    refine ⟨le_rfl, by norm_num, ?_, ?_, ?_⟩
    · rw [hvalue, hunit]
      linarith
    · rw [pow (e + 1 - 11) (-1) (by ring), ← mul_assoc]
      exact mul_le_mul_of_nonneg_right (by norm_num; linarith) hp.le
    · rw [pow (e + 1 - 10) 0 (by ring), ← mul_assoc]
      exact mul_lt_mul_of_pos_right (by norm_num; linarith) hp
  · have hlt := not_le.1 (mt htop.2 hm)
    refine ⟨lo, lt_of_le_of_ne hi hm, hnear, ?_, ?_⟩
    · rw [pow (e - 11) (-2) (by ring), ← mul_assoc]
      exact mul_le_mul_of_nonneg_right (by norm_num; linarith) hp.le
    · rw [pow (e - 10) (-1) (by ring), ← mul_assoc]
      exact mul_lt_mul_of_pos_right (by norm_num; linarith) hp

theorem roundDecimal_tenDigits {n d : Nat} (hn : 0 < n) (hd : 0 < d) (hn' : n < 10 ^ 400) (hd' : d < 10 ^ 400) :
    TenDigits ((n : Rat) / d) (roundDecimal n d).1 (roundDecimal n d).2 := by
  obtain ⟨hlow, hhigh⟩ := floorLog10_bounds hn hd hn' hd'
  have near := roundEven_near (n := n * 10 ^ (9 - floorLog10 n d).toNat) (d := d * 10 ^ (floorLog10 n d - 9).toNat)
    (by positivity)
  have hscale := scaled_ten n d (floorLog10 n d - 9)
  rw [neg_sub] at hscale
  rw [hscale] at near
  have hp : (0 : Rat) < 10 ^ (floorLog10 n d - 9) := by positivity
  have hx : 10 ^ 9 ≤ (n : Rat) / d / 10 ^ (floorLog10 n d - 9) := by
    rw [le_div_iff₀ hp, ← zpow_natCast, ← zpow_add₀ (by norm_num)]
    simpa using hlow
  have hx' : (n : Rat) / d / 10 ^ (floorLog10 n d - 9) < 10 ^ 10 := by
    rw [div_lt_iff₀ hp, ← zpow_natCast, ← zpow_add₀ (by norm_num),
      show ((10 : Nat) : Int) + (floorLog10 n d - 9) = floorLog10 n d + 1 by push_cast; ring]
    exact hhigh
  have := tenDigits_scaled (floorLog10 n d) hx hx' near.1 near.2 (r := roundDecimal n d) rfl
  rwa [div_mul_cancel₀ _ hp.ne'] at this

end Sys2Proof.Machine
end

section
/-! SUPPORT. FENC by the kinds of its double (40_value_bcd.md R110, R115), and what its result is. -/

namespace Sys2Proof.Machine

/-! ### The magnitude of a double -/

theorem dblExpField_dblAbs (d : Double) : dblExpField (dblAbs d) = dblExpField d := by
  simp only [dblExpField, dblAbs, BitVec.toNat_ofNat]
  omega

theorem dblFrac_dblAbs (d : Double) : dblFrac (dblAbs d) = dblFrac d := by
  simp only [dblFrac, dblAbs, BitVec.toNat_ofNat]
  omega

theorem dblNum_dblAbs (d : Double) : dblNum (dblAbs d) = dblNum d := by
  simp only [dblNum, dblSignificand, dblScale, dblExpField_dblAbs, dblFrac_dblAbs]

theorem dblDen_dblAbs (d : Double) : dblDen (dblAbs d) = dblDen d := by
  simp only [dblDen, dblScale, dblExpField_dblAbs]

theorem dblDen_pos (d : Double) : 0 < dblDen d := Nat.two_pow_pos _

/-- The value of a double, by its sign and its magnitude. -/
theorem dblValue_eq_sign_mul (d : Double) :
    dblValue d = (if dblNeg d then -1 else 1) * ((dblNum d : Rat) / dblDen d) := by
  simp only [dblValue, Rat.mkRat_eq_div]
  split <;> push_cast <;> ring

theorem abs_dblValue (d : Double) : |dblValue d| = (dblNum d : Rat) / dblDen d := by
  have hsign : |(if dblNeg d then -1 else 1 : Rat)| = 1 := by split <;> simp
  rw [dblValue_eq_sign_mul, abs_mul, hsign, one_mul, abs_of_nonneg (by positivity)]

theorem dblSignificand_eq_zero_iff (d : Double) : dblSignificand d = 0 ↔ dblIsZero d = true := by
  have hsplit : d.toNat % 2 ^ 63 = dblExpField d * 2 ^ 52 + dblFrac d := by
    simp only [dblExpField, dblFrac]
    omega
  rw [dblIsZero, beq_iff_eq, hsplit, dblSignificand]
  split <;> omega

theorem dblNum_pos_iff (d : Double) : 0 < dblNum d ↔ dblIsZero d = false := by
  rw [Nat.pos_iff_ne_zero, dblNum, Ne, Nat.mul_eq_zero, dblSignificand_eq_zero_iff]
  simp

theorem two_pow_lt_ten_pow {k n : Nat} (h : k ≤ 3 * n) (hn : n ≠ 0) : 2 ^ k < 10 ^ n :=
  calc 2 ^ k ≤ 2 ^ (3 * n) := Nat.pow_le_pow_right (by norm_num) h
    _ = 8 ^ n := Nat.pow_mul 2 3 n
    _ < 10 ^ n := Nat.pow_lt_pow_left (by norm_num) hn

theorem dblNum_lt (d : Double) : dblNum d < 10 ^ 400 := by
  have he : (dblScale d).toNat ≤ 972 := by
    have : dblExpField d < 2 ^ 11 := Nat.mod_lt _ (by norm_num)
    simp only [dblScale]
    omega
  calc dblNum d ≤ 2 ^ 53 * 2 ^ (dblScale d).toNat := Nat.mul_le_mul_right _ (dblSignificand_lt d).1.le
    _ = 2 ^ (53 + (dblScale d).toNat) := (Nat.pow_add ..).symm
    _ < 10 ^ 400 := two_pow_lt_ten_pow (by omega) (by norm_num)

theorem dblDen_lt (d : Double) : dblDen d < 10 ^ 400 := by
  have := (dblSignificand_lt d).2
  exact two_pow_lt_ten_pow (by omega) (by norm_num)

/-! ### The rounding of a finite non-zero double -/

/-- The standard rounding is to ten digits of the magnitude (40_value_bcd.md R110). -/
theorem fromDoubleRound_tenDigits {p : Params} {d : Double} (hp : p.fromDoubleRound = .standard)
    (hz : dblIsZero d = false) :
    TenDigits |dblValue d| (fromDoubleRound p (dblAbs d)).1 (fromDoubleRound p (dblAbs d)).2 := by
  simp only [fromDoubleRound, hp, dblNum_dblAbs, dblDen_dblAbs, abs_dblValue]
  exact roundDecimal_tenDigits ((dblNum_pos_iff d).2 hz) (dblDen_pos d) (dblNum_lt d) (dblDen_lt d)

/-- Every rounding gives a mantissa of ten digits (40_value_bcd.md R110). -/
theorem fromDoubleRound_mantissa (p : Params) {d : Double} (hz : dblIsZero d = false) :
    10 ^ 9 ≤ (fromDoubleRound p (dblAbs d)).1 ∧ (fromDoubleRound p (dblAbs d)).1 < 10 ^ 10 := by
  cases hp : p.fromDoubleRound with
  | standard =>
    have h := fromDoubleRound_tenDigits hp hz
    exact ⟨h.lo, h.hi⟩
  | other k =>
    have := (Config.fromDoubleRound k (dblAbs d)).1.isLt
    simp only [fromDoubleRound, hp]
    omega

/-! ### The result of FENC -/

/-- The exponent field of an exponent in -99..99 (40_value_bcd.md R104, R110). -/
def fieldOfExp (e : Int) : Nat := (if e ≥ 0 then e else 1000 + e).toNat

theorem fieldOfExp_range {e : Int} (h : -100 < e) (h' : e < 100) :
    (fieldOfExp e ≤ 99 ∨ 901 ≤ fieldOfExp e) ∧ fieldOfExp e < 1000 := by
  unfold fieldOfExp
  split <;> omega

/-- A float packed from an exponent has that exponent (40_value_bcd.md R104, R110). -/
theorem floatExp?_packFloat {sgn : Nat} (m : Nat) {e : Int} (hs : sgn ≤ 9) (h : -100 < e) (h' : e < 100) :
    floatExp? (packFloat sgn m (fieldOfExp e)) = some e := by
  rw [floatExp?_of_decimal (expDecimal_packFloat m _ hs), expField_packFloat m hs (fieldOfExp_range h h').2, fieldOfExp]
  by_cases he : e ≥ 0
  · rw [if_pos he, if_pos (by omega), Int.toNat_of_nonneg he]
  · rw [if_neg he, if_neg (by omega), if_pos (by omega), Int.toNat_of_nonneg (by omega), add_sub_cancel_left]

theorem fromDouble_nan (p : Params) {d : Double} (h : dblExpField d = 0x7FF) (hfrac : dblFrac d ≠ 0) :
    fromDouble p d = floatPosInf p :=
  if_pos (by simp [dblIsNaN, h, hfrac])

theorem fromDouble_inf (p : Params) {d : Double} (h : dblExpField d = 0x7FF) (hfrac : dblFrac d = 0) :
    fromDouble p d = if d.msb then floatNegInf p else floatPosInf p := by
  have hnan : ¬ dblIsNaN d = true := by simp [dblIsNaN, hfrac]
  rw [fromDouble, if_neg hnan, if_pos (by simp [dblIsInf, h, hfrac])]
  rfl

/-- A finite double is a zero, overflows to the infinity of its sign, underflows to 0, or is packed from its sign, its
rounded mantissa and its exponent (40_value_bcd.md R110). -/
theorem fromDouble_finite (p : Params) {d : Double} (hf : dblExpField d ≠ 0x7FF) :
    fromDouble p d = if dblIsZero d then 0
      else if (fromDoubleRound p (dblAbs d)).2 ≥ 100 then (if d.msb then floatNegInf p else floatPosInf p)
      else if (fromDoubleRound p (dblAbs d)).2 ≤ -100 then 0
      else packFloat (if d.msb then 9 else 0) (fromDoubleRound p (dblAbs d)).1
        (fieldOfExp (fromDoubleRound p (dblAbs d)).2) := by
  have hnan : ¬ dblIsNaN d = true := by simp [dblIsNaN, hf]
  have hinf : ¬ dblIsInf d = true := by simp [dblIsInf, hf]
  rw [fromDouble, if_neg hnan, if_neg hinf]
  rfl

section
variable (p : Params) {d : Double} (hf : dblExpField d ≠ 0x7FF)
include hf

theorem fromDouble_zero (hz : dblIsZero d = true) : fromDouble p d = 0 := by
  rw [fromDouble_finite p hf, if_pos hz]

theorem fromDouble_overflow (hz : dblIsZero d = false) (he : 100 ≤ (fromDoubleRound p (dblAbs d)).2) :
    fromDouble p d = if d.msb then floatNegInf p else floatPosInf p := by
  rw [fromDouble_finite p hf, if_neg (by simp [hz]), if_pos he]

theorem fromDouble_underflow (hz : dblIsZero d = false) (he : (fromDoubleRound p (dblAbs d)).2 ≤ -100) :
    fromDouble p d = 0 := by
  rw [fromDouble_finite p hf, if_neg (by simp [hz]), if_neg (by omega), if_pos he]

theorem fromDouble_packed (hz : dblIsZero d = false) (he : -100 < (fromDoubleRound p (dblAbs d)).2)
    (he' : (fromDoubleRound p (dblAbs d)).2 < 100) :
    fromDouble p d = packFloat (if d.msb then 9 else 0) (fromDoubleRound p (dblAbs d)).1
      (fieldOfExp (fromDoubleRound p (dblAbs d)).2) := by
  rw [fromDouble_finite p hf, if_neg (by simp [hz]), if_neg (by omega), if_neg (by omega)]

end

theorem exec_fenc (s : State) :
    exec .fenc s = .next { s with out := { Outputs.absent with r := some (fromDouble s.params s.inp.dblIn) } } := rfl

/-! ### Legal and normalised -/

/-- A float that is 0 or has a non-zero first digit, and is legal (40_value_bcd.md R110). -/
def Normalised (r : Value) : Prop := isLegalFloat r = true ∧ (r = 0 ∨ floatDigit r 0 ≠ 0)

theorem normalised_zero : Normalised 0 := ⟨by decide +kernel, .inl rfl⟩

theorem normalised_packFloat {sgn m : Nat} {e : Int} (hs : sgn = 0 ∨ sgn = 9) (hm : 10 ^ 9 ≤ m) (hm' : m < 10 ^ 10)
    (he : -100 < e) (he' : e < 100) : Normalised (packFloat sgn m (fieldOfExp e)) := by
  obtain ⟨hfield, hfield'⟩ := fieldOfExp_range he he'
  refine ⟨isLegalFloat_packFloat m hs hfield hfield', .inr ?_⟩
  rw [floatDigit_packFloat m _ (by omega) (by norm_num)]
  omega

theorem fromDouble_normalised {p : Params} (d : Double) (hpos : Normalised (floatPosInf p))
    (hneg : Normalised (floatNegInf p)) : Normalised (fromDouble p d) := by
  have hinf : Normalised (if d.msb then floatNegInf p else floatPosInf p) := by
    split
    · exact hneg
    · exact hpos
  by_cases hf : dblExpField d = 0x7FF
  · by_cases hfrac : dblFrac d = 0
    · rwa [fromDouble_inf p hf hfrac]
    · rwa [fromDouble_nan p hf hfrac]
  cases hz : dblIsZero d with
  | true =>
    rw [fromDouble_zero p hf hz]
    exact normalised_zero
  | false =>
    obtain ⟨hm, hm'⟩ := fromDoubleRound_mantissa p hz
    by_cases hover : 100 ≤ (fromDoubleRound p (dblAbs d)).2
    · rwa [fromDouble_overflow p hf hz hover]
    by_cases hunder : (fromDoubleRound p (dblAbs d)).2 ≤ -100
    · rw [fromDouble_underflow p hf hz hunder]
      exact normalised_zero
    rw [fromDouble_packed p hf hz (by omega) (by omega)]
    exact normalised_packFloat (by split <;> simp) hm hm' (by omega) (by omega)

/-- Settles O35: zero, the two infinities and a packed float are legal and normalised. -/
theorem fencIsLegalAndNormalised : Obligations.FencIsLegalAndNormalised := by
  unfold Obligations.FencIsLegalAndNormalised
  intro s hpos hposDigit hneg hnegDigit
  exact ⟨_, exec_fenc s, fromDouble_normalised _ ⟨hpos, .inr hposDigit⟩ ⟨hneg, .inr hnegDigit⟩⟩

/-! ### Special values, overflow and underflow -/

theorem abs_dblValue_of_zero {d : Double} (hz : dblIsZero d = true) : |dblValue d| = 0 := by
  have hnum : dblNum d = 0 := Nat.eq_zero_of_not_pos fun h => by simp [(dblNum_pos_iff d).1 h] at hz
  rw [abs_dblValue, hnum, Nat.cast_zero, zero_div]

theorem not_zero_of_abs_pos {d : Double} (h : 0 < |dblValue d|) : dblIsZero d = false := by
  by_contra hz
  rw [abs_dblValue_of_zero (by simpa using hz)] at h
  exact absurd h (lt_irrefl _)

section
variable {p : Params} {d : Double} (hp : p.fromDoubleRound = .standard) (hz : dblIsZero d = false)
include hp hz

/-- The magnitudes that overflow under the standard rounding (40_value_bcd.md R110). -/
theorem overflow_iff_le_abs :
    100 ≤ (fromDoubleRound p (dblAbs d)).2 ↔ 99999999995 * (10 : Rat) ^ (89 : Int) ≤ |dblValue d| :=
  (fromDoubleRound_tenDigits hp hz).lt_iff 99

/-- The magnitudes that underflow under the standard rounding (40_value_bcd.md R110). -/
theorem underflow_iff_abs_lt :
    (fromDoubleRound p (dblAbs d)).2 ≤ -100 ↔ |dblValue d| < 99999999995 * (10 : Rat) ^ (-110 : Int) :=
  (fromDoubleRound_tenDigits hp hz).le_iff (-100)

end

/-- Settles O36: the kinds of double in turn; under the standard rounding the thresholds are those of its exponent. -/
theorem fencSpecials : Obligations.FencSpecials := by
  unfold Obligations.FencSpecials
  rintro s r d rfl h
  rw [exec_fenc]
  suffices hr : fromDouble s.params s.inp.dblIn = r by rw [hr]
  generalize s.inp.dblIn = d at *
  rcases h with ⟨hexp, hfrac, rfl⟩ | ⟨rfl, rfl⟩ | ⟨rfl, rfl⟩ | ⟨rfl | rfl, rfl⟩ | ⟨hf, hz, h⟩ | ⟨hp, hf, h⟩
  · exact fromDouble_nan _ hexp hfrac
  · exact fromDouble_inf _ (by decide) (by decide)
  · exact fromDouble_inf _ (by decide) (by decide)
  · exact fromDouble_zero _ (by decide) (by decide)
  · exact fromDouble_zero _ (by decide) (by decide)
  · have hz' : dblIsZero d = false := beq_false_of_ne hz
    rcases h with ⟨hover, rfl⟩ | ⟨hunder, rfl⟩
    · exact fromDouble_overflow _ hf hz' hover
    · exact fromDouble_underflow _ hf hz' hunder
  · rcases h with ⟨hover, rfl⟩ | ⟨hunder, rfl⟩
    · have hz : dblIsZero d = false := not_zero_of_abs_pos (lt_of_lt_of_le (by positivity) hover)
      exact fromDouble_overflow _ hf hz ((overflow_iff_le_abs hp hz).2 hover)
    · cases hz : dblIsZero d with
      | true => exact fromDouble_zero _ hf hz
      | false => exact fromDouble_underflow _ hf hz ((underflow_iff_abs_lt hp hz).2 hunder)

/-! ### The rounded value -/

/-- The value of a float packed from an exponent (40_value_bcd.md R106, R110). -/
theorem floatValue_packFloat (neg : Bool) {m : Nat} {e : Int} (hm : m < 10 ^ 10) (h : -100 < e) (h' : e < 100) :
    floatValue (packFloat (if neg then 9 else 0) m (fieldOfExp e)) =
      (if neg then -1 else 1) * ((m : Rat) * 10 ^ (e - 9)) := by
  have hs : (if neg then 9 else 0) ≤ 9 := by split <;> norm_num
  rw [floatValue_eq (floatExp?_packFloat m hs h h'), floatSgn_packFloat m _ hs, mant_packFloat _ hs hm]
  cases neg <;> rfl

/-- Settles O37: the packed digits are those of the magnitude to within half a unit, and the sign is that of the
double. -/
theorem fencRoundsToTenDigits : Obligations.FencRoundsToTenDigits := by
  unfold Obligations.FencRoundsToTenDigits
  intro s hp hf hlow hhigh
  have hz : dblIsZero s.inp.dblIn = false := not_zero_of_abs_pos (lt_of_lt_of_le (by positivity) hlow)
  have hunder := mt (underflow_iff_abs_lt hp hz).1 (not_lt.2 hlow)
  have hover := mt (overflow_iff_le_abs hp hz).1 (not_le.2 hhigh)
  have ten := fromDoubleRound_tenDigits hp hz
  refine ⟨_, (fromDoubleRound s.params (dblAbs s.inp.dblIn)).2, exec_fenc s, ?_, ?_⟩ <;>
    rw [fromDouble_packed _ hf hz (by omega) (by omega)]
  · exact floatExp?_packFloat _ (by split <;> norm_num) (by omega) (by omega)
  · rw [floatValue_packFloat _ ten.hi (by omega) (by omega), dblValue_eq_sign_mul, ← abs_dblValue]
    have hsign : ∀ a b : Rat, |(if s.inp.dblIn.msb then -1 else 1) * a - (if s.inp.dblIn.msb then -1 else 1) * b| =
        |a - b| := fun a b => by
      rw [← mul_sub, abs_mul]
      split <;> simp
    exact (congrArg (2 * ·) (hsign _ _)).trans_le ten.near

end Sys2Proof.Machine
end

section
/-! SUPPORT. The float operand a command checks, and how a failed check ends it (40_value_bcd.md R120, 60_exceptions.md
R306): an illegal float, a matrix descriptor, and the integer commands in FLOAT mode (41_signmode.md R140). -/

namespace Sys2Proof.Machine

/-! ### Checks that fail -/

/-- A command whose check fails ends with it. -/
theorem perform_attempt_error {a : State → Attempt State} {s : State} {x : Exit}
    (h : a (s.setOut Outputs.absent) = .error x) :
    perform (fun s => Ending.of s (a s)) s = (Ending.of (s.setOut Outputs.absent) (.error x)).conclude s := by
  rw [perform, h]

theorem Attempt.bind_of_error {α β : Type} {m : Attempt α} {x : Exit} (h : m = .error x) (f : α → Attempt β) :
    m >>= f = .error x := by
  rw [h, Attempt.bind_error]

theorem checkFloat_matrix {p : Params} {v : Value} (h : isMatrixDesc p v = true) :
    checkFloat p v = .error (.refuse .matrixDescriptor) := by
  simp [checkFloat, h]

theorem checkFloat_bad {p : Params} {v : Value} (h : FloatBad p v) : checkFloat p v = .error (.err .badFloat) := by
  simp [checkFloat, h.1, h.2]

/-! ### The operand a command checks -/

/-- Instruction `i` in state `s` comes to check the float `v`: the checks before that one pass (60_exceptions.md R306). -/
inductive ChecksFloat (s : State) : Instr → Value → Prop
  /-- FDEC and FCHK check X in every mode (40_value_bcd.md R116, R118). -/
  | codec {i : Instr} : (i = .fdec ∨ i = .fchk) → ChecksFloat s i s.inp.x
  | x {i : Instr} : s.mode = .float → (i = .neg ∨ i = .cmp ∨ i = .inc ∨ i = .dec ∨ i = .isz) →
      ChecksFloat s i s.inp.x
  /-- CMP checks Y after X (41_signmode.md R159). -/
  | y : s.mode = .float → FloatOk s.params s.inp.x → ChecksFloat s .cmp s.inp.y
  | index {i : Instr} : s.mode = .float →
      (i = .iszi ∨ i = .dszi ∨ i = .iszind ∨ i = .dszind ∨ i = .rregI ∨ i = .wregI ∨ i = .gotoI ∨ i = .gtoStoredI) →
      ChecksFloat s i s.ireg
  /-- The slot of a register that exists, directly or through I (42_registers.md R201, R210, R211). -/
  | slot {i : Instr} {k : Nat} : s.mode = .float → k < s.regCount →
      ((∃ idx : BitVec 9, i = .rreg idx ∧ idx.toNat = k) ∨
        (s.NamesRegister k ∧ (i = .rregI ∨ i = .iszind ∨ i = .dszind))) →
      ChecksFloat s i (val (s.slotValue k))

section
variable {s : State} {x : Exit} (hm : s.mode = .float)
include hm

theorem State.iaddr_error (h : checkFloat s.params s.ireg = .error x) : s.iaddr = .error x := by
  simp [iaddr, hm, h]

theorem State.labelFromI_error (h : checkFloat s.params s.ireg = .error x) : s.labelFromI = .error x := by
  simp [labelFromI, hm, h]

theorem readRegister_error {k : Nat} (hk : k < s.regCount)
    (h : checkFloat s.params (val (s.slotValue k)) = .error x) : readRegister s (some k) = .error x := by
  have hread : s.slotRead k = .ok (s.slotValue k) := State.slotRead_ok hk
  simp [readRegister, State.checkReg_ok hk, hread, hm, h]

/-- INC and DEC end with the failed check of X. -/
theorem stepX_error {k : Int} (h : checkFloat s.params s.inp.x = .error x) : stepX k s = Ending.of s (.error x) := by
  simp [stepX, hm, h]

/-- ISZI and DSZI end with the failed check of I. -/
theorem stepIndex_error {k : Int} (h : checkFloat s.params s.ireg = .error x) :
    stepIndex k s = Ending.of s (.error x) := by
  simp [stepIndex, hm, h]

/-- ISZIND and DSZIND end with the failed check of I. -/
theorem stepIndirect_error_index {k : Int} (h : checkFloat s.params s.ireg = .error x) :
    stepIndirect k s = Ending.of s (.error x) := by
  simp [stepIndirect, State.iaddr_error hm h]

/-- ISZIND and DSZIND end with the failed check of the slot I names. -/
theorem stepIndirect_error_slot {k : Int} {j : Nat} (hI : s.NamesRegister j) (hj : j < s.regCount)
    (h : checkFloat s.params (val (s.slotValue j)) = .error x) : stepIndirect k s = Ending.of s (.error x) := by
  have hread : s.slotRead j = .ok (s.slotValue j) := State.slotRead_ok hj
  simp [stepIndirect, State.iaddr_of_names hI, State.checkReg_ok hj, hread, hm, h]

end

/-- A command ends with the failed check of its float operand, and changes nothing. -/
theorem ChecksFloat.exec_error {s : State} {i : Instr} {v : Value} {x : Exit} (hc : ChecksFloat s i v)
    (h : checkFloat s.params v = .error x) :
    exec i s = (Ending.of (s.setOut Outputs.absent) (.error x)).conclude s := by
  cases hc with
  | codec hi =>
    rcases hi with rfl | rfl
    · exact (perform_attempt_error (Attempt.bind_of_error h _) : execFdec s = _)
    · exact (perform_attempt_error (Attempt.bind_of_error h _) : execFchk s = _)
  | x hm hi =>
    have hstep := fun k => stepX_error (k := k) (s := s.setOut Outputs.absent) hm h
    rcases hi with rfl | rfl | rfl | rfl | rfl
    · exact (perform_attempt_error (x := x) (by simp [hm, h]) : execNeg s = _)
    · exact (perform_attempt_error (x := x) (by simp [hm, h]) : execCmp s = _)
    · exact congrArg (Ending.conclude s) (hstep 1)
    · exact congrArg (Ending.conclude s) (hstep (-1))
    · exact (perform_attempt_error (x := x) (by simp [hm, h]) : execIsz s = _)
  | y hm hx => exact (perform_attempt_error (x := x) (by simp [hm, checkFloat_ok hx, h]) : execCmp s = _)
  | index hm hi =>
    have hstep := fun k => stepIndex_error (k := k) (s := s.setOut Outputs.absent) hm h
    have hind := fun k => stepIndirect_error_index (k := k) (s := s.setOut Outputs.absent) hm h
    have haddr := State.iaddr_error (s := s.setOut Outputs.absent) hm h
    have hlabel := State.labelFromI_error (s := s.setOut Outputs.absent) hm h
    rcases hi with rfl | rfl | rfl | rfl | rfl | rfl | rfl | rfl
    · exact congrArg (Ending.conclude s) (hstep 1)
    · exact congrArg (Ending.conclude s) (hstep (-1))
    · exact congrArg (Ending.conclude s) (hind 1)
    · exact congrArg (Ending.conclude s) (hind (-1))
    · exact (perform_attempt_error (Attempt.bind_of_error haddr _) : execRregI s = _)
    · exact (perform_attempt_error (Attempt.bind_of_error haddr _) : execWregI s = _)
    · exact (perform_attempt_error (Attempt.bind_of_error hlabel _) : execGotoI s = _)
    · exact (perform_attempt_error (Attempt.bind_of_error hlabel _) : execGtoStoredI s = _)
  | slot hm hk hi =>
    have hread := readRegister_error (s := s.setOut Outputs.absent) hm hk h
    rcases hi with ⟨idx, rfl, rfl⟩ | ⟨hI, rfl | rfl | rfl⟩
    · exact (perform_attempt_error hread : execRreg idx s = _)
    · have haddr := congrArg (· >>= readRegister (s.setOut Outputs.absent)) (State.iaddr_of_names hI)
      exact (perform_attempt_error (haddr.trans hread) : execRregI s = _)
    · exact congrArg (Ending.conclude s) (stepIndirect_error_slot (s := s.setOut Outputs.absent) hm hI hk h)
    · exact congrArg (Ending.conclude s) (stepIndirect_error_slot (s := s.setOut Outputs.absent) hm hI hk h)

theorem ChecksFloat.exec_bad {s : State} {i : Instr} {v : Value} (hc : ChecksFloat s i v) (h : FloatBad s.params v) :
    exec i s = .next { s with out := { Outputs.absent with err := some .badFloat } } :=
  hc.exec_error (checkFloat_bad h)

theorem ChecksFloat.exec_matrix {s : State} {i : Instr} {v : Value} (hc : ChecksFloat s i v)
    (h : isMatrixDesc s.params v = true) :
    exec i s = .next { s with out := { Outputs.absent with refused := some .matrixDescriptor } } :=
  hc.exec_error (checkFloat_matrix h)

/-- Settles O31: each of the named operands is one the command comes to check. -/
theorem illegalFloatRaisesSix : Obligations.IllegalFloatRaisesSix := by
  unfold Obligations.IllegalFloatRaisesSix
  rintro s i (⟨hbad, rfl | rfl | ⟨hm, hi⟩⟩ | ⟨hm, rfl, hx, hbad⟩ | ⟨hm, hbad, hi⟩ | ⟨hm, k, hk, hbad, hi⟩)
  · exact (ChecksFloat.codec (.inl rfl)).exec_bad hbad
  · exact (ChecksFloat.codec (.inr rfl)).exec_bad hbad
  · exact (ChecksFloat.x hm hi).exec_bad hbad
  · exact (ChecksFloat.y hm hx).exec_bad hbad
  · exact (ChecksFloat.index hm hi).exec_bad hbad
  · exact (ChecksFloat.slot hm hk hi).exec_bad hbad

/-! ### Refusals in FLOAT mode -/

theorem State.requireInteger_float {s : State} (hm : s.mode = .float) :
    s.requireInteger = .error (.refuse .floatArithmetic) := by
  simp [requireInteger, hm]

/-- ADD, SUB, STORE and TOINT have no FLOAT meaning (41_signmode.md R140). -/
theorem exec_integer_only {s : State} {i : Instr} (hm : s.mode = .float)
    (hi : i = .add ∨ i = .sub ∨ i = .store ∨ i = .toint) :
    exec i s = .next { s with out := { Outputs.absent with refused := some .floatArithmetic } } := by
  have hint := State.requireInteger_float (s := s.setOut Outputs.absent) hm
  rcases hi with rfl | rfl | rfl | rfl
  · exact (perform_attempt_error (Attempt.bind_of_error hint _) : execAdd s = _)
  · exact (perform_attempt_error (Attempt.bind_of_error hint _) : execSub s = _)
  · exact (perform_attempt_error (Attempt.bind_of_error hint _) : execStore s = _)
  · exact (perform_attempt_error (Attempt.bind_of_error hint _) : execToint s = _)

/-- Settles O32: the integer commands ask for an integer mode first, and each of the named operands is one the command
comes to check. -/
theorem floatModeRefusals : Obligations.FloatModeRefusals := by
  unfold Obligations.FloatModeRefusals
  refine fun s i hm => ⟨exec_integer_only hm, ?_⟩
  rintro (⟨hmat, hi⟩ | ⟨rfl, hx, hmat⟩ | ⟨hmat, hi⟩ | ⟨k, hk, hmat, hi⟩)
  · exact (ChecksFloat.x hm hi).exec_matrix hmat
  · exact (ChecksFloat.y hm hx).exec_matrix hmat
  · exact (ChecksFloat.index hm hi).exec_matrix hmat
  · exact (ChecksFloat.slot hm hk hi).exec_matrix hmat

end Sys2Proof.Machine
end

section
/-! SUPPORT. The FLOAT arms of NEG, INC, DEC and ISZ (41_signmode.md R156 to R164), and that the binary64 sums and
TO_DOUBLE are to nearest, ties to even (40_value_bcd.md R109, R119). -/

namespace Sys2Proof.Machine

/-! ### To nearest -/

/-- A signed fraction below the overflow threshold rounds to a finite double nearest to it, ties to even. -/
theorem roundToDouble_int_nearest (n : Int) {d : Nat} (hd : 0 < d)
    (hb : |(n : Rat) / d| + 2 ^ (970 : Int) < 2 ^ (1024 : Int)) :
    IsNearest (roundToDouble (n < 0) n.natAbs d) ((n : Rat) / d) := by
  have habs : |(n : Rat) / d| = (n.natAbs : Rat) / d := by
    rw [abs_div, Nat.abs_cast, Nat.cast_natAbs, Int.cast_abs]
  have hsign : (n : Rat) / d = (if decide (n < 0) = true then -1 else 1) * ((n.natAbs : Rat) / d) := by
    rw [Nat.cast_natAbs, Int.cast_abs]
    split <;> rename_i h <;> rw [decide_eq_true_eq] at h
    · rw [abs_of_neg (by exact_mod_cast h)]
      ring
    · rw [abs_of_nonneg (by exact_mod_cast not_lt.1 h), one_mul]
  rw [habs] at hb
  rw [hsign]
  exact roundToDouble_nearest _ hd hb

/-- A magnitude at most 1 above the largest finite double is below the overflow threshold. -/
theorem below_overflow {x : Rat} (h : x ≤ (2 ^ 53 - 1) * 2 ^ (971 : Int) + 1) :
    x + 2 ^ (970 : Int) < 2 ^ (1024 : Int) := by
  have hunit : (1 : Rat) < 2 ^ (970 : Int) := one_lt_zpow₀ (by norm_num) (by norm_num)
  rw [show (971 : Int) = 970 + 1 by norm_num, zpow_add_one₀ (by norm_num)] at h
  rw [show (1024 : Int) = 970 + (54 : Nat) by norm_num, zpow_add₀ (by norm_num), zpow_natCast]
  generalize (2 : Rat) ^ (970 : Int) = unit at *
  linarith

/-- The standard `TO_DOUBLE` of a legal float's value is nearest to it (40_value_bcd.md R109). -/
theorem toDouble_nearest {p : Params} {v : Value} (hp : p.toDouble = .standard) (hv : isLegalFloat v = true) :
    IsNearest (toDouble p (floatValue v)) (floatValue v) := by
  have hle : |floatValue v| ≤ 2 ^ (971 : Int) :=
    calc |floatValue v| ≤ 10 ^ (100 : Int) := (abs_floatValue_lt hv).le
      _ ≤ (2 ^ (4 : Int)) ^ (100 : Int) := by norm_num
      _ = 2 ^ (400 : Int) := (zpow_mul 2 4 100).symm
      _ ≤ 2 ^ (971 : Int) := zpow_le_zpow_right₀ (by norm_num) (by norm_num)
  have hmax : (2 : Rat) ^ (971 : Int) ≤ (2 ^ 53 - 1) * 2 ^ (971 : Int) + 1 := by
    have : (0 : Rat) < 2 ^ (971 : Int) := by positivity
    generalize (2 : Rat) ^ (971 : Int) = unit at *
    linarith
  have hq := Rat.num_div_den (floatValue v)
  have hnear := roundToDouble_int_nearest (floatValue v).num (floatValue v).den_pos
    (below_overflow (by rw [hq]; exact hle.trans hmax))
  rw [hq] at hnear
  rwa [toDouble, hp]

/-- The sum with 1 or -1 is nearest to the exact one (40_value_bcd.md R119): it stays below the overflow threshold. -/
theorem dblAddUnit_nearest {d : Double} {k : Int} (hf : dblExpField d ≠ 0x7FF) (hk : k = 1 ∨ k = -1) :
    IsNearest (dblAddUnit d k) (dblValue d + k) := by
  have hden : (dblDen d : Rat) ≠ 0 := by exact_mod_cast (dblDen_pos d).ne'
  have hsum : (((if dblNeg d then -(dblNum d : Int) else dblNum d) + k * dblDen d : Int) : Rat) / dblDen d =
      dblValue d + k := by
    rw [dblValue, Rat.mkRat_eq_div]
    push_cast
    rw [add_div, mul_div_cancel_right₀ _ hden]
  have hone : |(k : Rat)| = 1 := by rcases hk with rfl | rfl <;> norm_num
  have hle : |dblValue d + k| ≤ (2 ^ 53 - 1) * 2 ^ (971 : Int) + 1 :=
    calc |dblValue d + k| ≤ |dblValue d| + |(k : Rat)| := abs_add_le _ _
      _ ≤ (2 ^ 53 - 1) * 2 ^ (971 : Int) + 1 := add_le_add (abs_dblValue_le hf) hone.le
  have hnear := roundToDouble_int_nearest _ (dblDen_pos d) (below_overflow (by rwa [hsum]))
  rw [hsum] at hnear
  rwa [dblAddUnit, if_neg hf]

/-! ### NEG -/

/-- NEG of a non-zero float replaces its sign nybble (40_value_bcd.md R111). -/
theorem toNat_negateAsFloat {v : Value} (h : mant v ≠ 0) :
    (negateAsFloat v).toNat = v.toNat - floatSgn v * 2 ^ 52 + (if floatSgn v = 0 then 9 else 0) * 2 ^ 52 := by
  have hv := v.isLt
  rw [negateAsFloat, if_neg h, BitVec.toNat_ofNat, floatSgn, nyb]
  apply Nat.mod_eq_of_lt
  split <;> omega

theorem floatSgn_negateAsFloat {v : Value} (h : mant v ≠ 0) :
    floatSgn (negateAsFloat v) = if floatSgn v = 0 then 9 else 0 := by
  rw [floatSgn, nyb, toNat_negateAsFloat h, floatSgn, nyb]
  split <;> omega

/-- NEG keeps every other nybble. -/
theorem nyb_negateAsFloat {v : Value} (h : mant v ≠ 0) {k : Nat} (hk : k ≠ 13) :
    nyb (negateAsFloat v) k = nyb v k := by
  rw [nyb, nyb, toNat_negateAsFloat h, floatSgn, nyb]
  have hsgn : (if v.toNat / 16 ^ 13 % 16 = 0 then 9 else 0) ≤ 9 := by split <;> norm_num
  generalize (if v.toNat / 16 ^ 13 % 16 = 0 then 9 else 0) = sgn at *
  rcases lt_or_gt_of_ne hk with hlt | hgt
  · interval_cases k <;> omega
  · obtain ⟨i, rfl⟩ := Nat.exists_eq_add_of_lt hgt
    rw [show 13 + i + 1 = 14 + i by omega, Nat.pow_add, ← Nat.div_div_eq_div_mul, ← Nat.div_div_eq_div_mul]
    congr 2
    omega

@[simp] theorem State.setOut_setOut (s : State) (o o' : Outputs) : (s.setOut o).setOut o' = s.setOut o' := rfl

/-! ### NEG, INC, DEC and ISZ in FLOAT mode -/

section
variable {s : State} (hm : s.mode = .float) (hx : FloatOk s.params s.inp.x)
include hm hx

theorem exec_neg_float : exec .neg s = .next (s.setOut { Outputs.absent with r := some (negateAsFloat s.inp.x) }) :=
  (perform_attempt_ok (by simp [hm, checkFloat_ok hx]) : execNeg s = _)

theorem exec_isz_float : exec .isz s = .next (s.setOut { Outputs.absent with z := some (floatIsZero s.inp.x) }) :=
  (perform_attempt_ok (by simp [hm, checkFloat_ok hx]) : execIsz s = _)

theorem stepX_float (k : Int) :
    stepX k s = .ok (s.setOut { Outputs.absent with r := some (floatIncr s.params s.inp.x k) }) := by
  simp [stepX, hm, checkFloat_ok hx]

end

/-- Settles O30: NEG replaces the sign nybble of a non-zero float alone; the sum that INC and DEC encode is the rounding
of a fraction below the overflow threshold. -/
theorem floatArms : Obligations.FloatArms := by
  unfold Obligations.FloatArms
  refine ⟨fun s hm hx => ⟨⟨_, exec_neg_float hm hx, ?_, ?_⟩, ?_, ?_, exec_isz_float hm hx⟩,
    fun d k => dblAddUnit_nearest⟩
  · exact fun h => if_pos h
  · exact fun h => ⟨floatSgn_negateAsFloat h, fun k => nyb_negateAsFloat h⟩
  · exact perform_of_ok (stepX_float (s := s.setOut Outputs.absent) hm hx 1)
  · exact perform_of_ok (stepX_float (s := s.setOut Outputs.absent) hm hx (-1))

/-! ### FCHK, FDEC and FEXP -/

theorem exec_fchk_ok {s : State} (h : FloatOk s.params s.inp.x) :
    exec .fchk s = .next (s.setOut { Outputs.absent with z := some true }) :=
  (perform_attempt_ok (by simp [checkFloat_ok h]) : execFchk s = _)

theorem exec_fdec_ok {s : State} (h : FloatOk s.params s.inp.x) :
    exec .fdec s = .next (s.setOut { Outputs.absent with dblOut := some (asDouble s.params s.inp.x) }) :=
  (perform_attempt_ok (by simp [checkFloat_ok h]) : execFdec s = _)

/-- Settles O38: the statement's condition is legality, FCHK and FDEC check X, and the standard `TO_DOUBLE` is to
nearest. -/
theorem fchkFdecResult : Obligations.FchkFdecResult := by
  unfold Obligations.FchkFdecResult
  rintro s v e rfl rfl
  have hlegal := isLegalFloat_iff s.inp.x
  simp only [ExpDecimal, and_assoc, expField] at hlegal
  rw [← hlegal]
  refine ⟨fun hmat i hi => ?_, fun hmat hv => ⟨?_, ?_, fun hp => toDouble_nearest hp hv⟩, fun hmat hv i hi => ?_⟩
  · exact (ChecksFloat.codec hi.symm).exec_matrix hmat
  · exact exec_fchk_ok ⟨hmat, hv⟩
  · exact exec_fdec_ok ⟨hmat, hv⟩
  · exact (ChecksFloat.codec hi.symm).exec_bad ⟨hmat, by simpa using hv⟩

theorem exec_fexp_some {s : State} {e : Int} (h : floatExp? s.inp.x = some e) :
    exec .fexp s = .next (s.setOut { Outputs.absent with exp := some e }) :=
  (perform_attempt_ok (by simp [floatExp, h]) : execFexp s = _)

theorem exec_fexp_none {s : State} (h : floatExp? s.inp.x = none) :
    exec .fexp s = .next (s.setOut { Outputs.absent with err := some .badFloat }) :=
  (perform_attempt_error (x := .err .badFloat) (by simp [floatExp, h]) : execFexp s = _)

/-- Settles O39: the three digits are the nybbles of the exponent field; the value by its digits is the sum of their
places. -/
theorem fexpResult : Obligations.FexpResult := by
  unfold Obligations.FexpResult
  intro s d2 d1 d0 e hx hlt2 hlt1 hlt0 he
  obtain ⟨rfl, rfl, rfl⟩ : d2 = nyb s.inp.x 2 ∧ d1 = nyb s.inp.x 1 ∧ d0 = nyb s.inp.x 0 := by
    simp only [nyb]
    omega
  replace he : e = expField s.inp.x := he
  subst he
  refine ⟨fun h2 h1 h0 he => ?_, fun h2 h1 h0 he => ?_, fun h => ?_, fun hv q hq => ?_⟩
  · exact exec_fexp_some (by rw [floatExp?_of_decimal ⟨h2, h1, h0⟩, if_pos he])
  · exact exec_fexp_some (by rw [floatExp?_of_decimal ⟨h2, h1, h0⟩, if_neg (by omega), if_pos he])
  · have hnot : ¬ (ExpDecimal s.inp.x ∧ (expField s.inp.x ≤ 99 ∨ 901 ≤ expField s.inp.x)) := by
      unfold ExpDecimal
      omega
    exact exec_fexp_none (Option.not_isSome_iff_eq_none.1 (mt (floatExp?_isSome_iff _).1 hnot))
  · obtain ⟨-, -, hdec, hrange, -⟩ := (isLegalFloat_iff _).1 hv
    have hexp : floatExp? s.inp.x = some q := by
      rw [floatExp?_of_decimal hdec, hq]
      split
      · rfl
      · rw [if_pos (by omega)]
    rw [floatValue_eq hexp, mant, floatDigits_eq_sum, ← mul_assoc]
    rfl

end Sys2Proof.Machine
end

section
/-! SUPPORT. The adder, the composed subtraction, NEG and the step to the next number, on patterns and their signed
readings (41_signmode.md R141 to R148, R153, R156, R161, R162). -/

namespace Sys2Proof.Machine

/-! ### Patterns modulo the word -/

/-- The sum of two patterns, less the word where it carries. -/
theorem add_mod_word {w a b : Nat} (ha : a < 2 ^ w) (hb : b < 2 ^ w) :
    (a + b) % 2 ^ w = if 2 ^ w ≤ a + b then a + b - 2 ^ w else a + b := by
  split
  · rename_i h
    rw [Nat.mod_eq_sub_mod h, Nat.mod_eq_of_lt (by omega)]
  · exact Nat.mod_eq_of_lt (by omega)

/-- The two's complement of a pattern. -/
theorem complement_mod_word {w x : Nat} (hx : x < 2 ^ w) :
    (2 ^ w - x) % 2 ^ w = if x = 0 then 0 else 2 ^ w - x := by
  split
  · rename_i h
    rw [h, Nat.sub_zero, Nat.mod_self]
  · exact Nat.mod_eq_of_lt (by omega)

/-- The difference of two patterns, with the word added where it borrows. -/
theorem sub_mod_word {w x y : Nat} (hx : x < 2 ^ w) (hy : y < 2 ^ w) :
    (y + 2 ^ w - x) % 2 ^ w = if x ≤ y then y - x else y + 2 ^ w - x := by
  split
  · rw [show y + 2 ^ w - x = y - x + 2 ^ w by omega, Nat.add_mod_right, Nat.mod_eq_of_lt (by omega)]
  · exact Nat.mod_eq_of_lt (by omega)

/-- Subtraction is the addition of the two's complement. -/
theorem complement_add_mod_word {w x y : Nat} (hx : x < 2 ^ w) :
    ((2 ^ w - x) % 2 ^ w + y) % 2 ^ w = (y + 2 ^ w - x) % 2 ^ w := by
  rw [Nat.mod_add_mod, show 2 ^ w - x + y = y + 2 ^ w - x by omega]

/-! ### Signed readings -/

theorem storeOverflow_eq (mode : Mode) (w : Nat) (n : Int) :
    storeOverflow mode w n = decide (n < minInt mode w ∨ maxInt mode w < n) :=
  (Bool.decide_or ..).symm

/-- In ONES the complement of a pattern reads as the negated number. -/
theorem toIntW_ones_complement {w x : Nat} (h : 1 ≤ w) (hx : x < 2 ^ w) :
    toIntW .ones w (2 ^ w - 1 - x) = -toIntW .ones w x := by
  have hp := two_pow_half h
  have hcast : ((2 ^ w : Nat) : Int) = 2 ^ w := by norm_cast
  simp only [toIntW, Nat.mod_eq_of_lt hx, Nat.mod_eq_of_lt (show 2 ^ w - 1 - x < 2 ^ w by omega)]
  split <;> split <;> omega

/-- The signed reading, by the sign bit (R141). -/
theorem toIntW_eq {mode : Mode} (hm : mode ≠ .float) (w v : Nat) :
    toIntW mode w v =
      if mode = .uns ∨ v % 2 ^ w < 2 ^ (w - 1) then ((v % 2 ^ w : Nat) : Int)
      else if mode = .twos then ((v % 2 ^ w : Nat) : Int) - 2 ^ w
      else ((v % 2 ^ w : Nat) : Int) - (2 ^ w - 1) := by
  cases mode with simp only [toIntW, reduceCtorEq, true_or, false_or, if_true, if_false]
  | float => exact absurd rfl hm
  | twos | ones => simp only [← not_lt, ite_not]

theorem isZeroW_eq (mode : Mode) (w v : Nat) :
    isZeroW mode w v = decide (v % 2 ^ w = 0 ∨ (mode = .ones ∧ v % 2 ^ w = 2 ^ w - 1)) := by
  rw [Bool.decide_or, Bool.decide_and]
  cases mode <;> rfl

theorem encodeW_ones (w : Nat) (n : Int) :
    encodeW .ones w n = ((if 0 ≤ n then n else n - 1) % 2 ^ w).toNat := by
  rw [encodeW]
  split <;> rfl

/-! ### The adder (R148) -/

theorem addw_carry (mode : Mode) (w a b : Nat) : (addw mode w a b).c = decide (2 ^ w ≤ a + b) := by
  have hpos : 0 < 2 ^ w := Nat.two_pow_pos w
  have hiff : a + b > 2 ^ w - 1 ↔ 2 ^ w ≤ a + b := by omega
  cases mode <;> exact decide_eq_decide.2 hiff

theorem addw_result {mode : Mode} {w a b : Nat} (ha : a < 2 ^ w) (hb : b < 2 ^ w) :
    (addw mode w a b).r =
      if 2 ^ w ≤ a + b then (if mode = .ones then a + b - (2 ^ w - 1) else a + b - 2 ^ w) else a + b := by
  have hmod := add_mod_word ha hb
  cases mode
  case ones =>
    change (if (addw .ones w a b).c = true then _ else _) = _
    simp [addw_carry]
  all_goals simpa [addw] using hmod

theorem addw_lt {mode : Mode} {w a b : Nat} (ha : a < 2 ^ w) (hb : b < 2 ^ w) : (addw mode w a b).r < 2 ^ w := by
  rw [addw_result ha hb]
  split
  · split <;> omega
  · omega

/-- The adder's overflow is that the sum of the readings is out of range. -/
theorem addw_overflow {mode : Mode} {w a b : Nat} (h : 1 ≤ w) (ha : a < 2 ^ w) (hb : b < 2 ^ w) :
    (addw mode w a b).g = storeOverflow mode w (toIntW mode w a + toIntW mode w b) := by
  have hp := two_pow_half h
  have hp' := two_pow_half_int h
  have hcast : ((2 ^ (w - 1) : Nat) : Int) = 2 ^ (w - 1) := by norm_cast
  have hr := addw_result (mode := mode) ha hb
  have hlt := addw_lt (mode := mode) ha hb
  have hsign := signOverflow_eq h ha hb hlt
  rw [storeOverflow_eq]
  cases mode with simp only [toIntW, minInt, maxInt, Nat.mod_eq_of_lt ha, Nat.mod_eq_of_lt hb]
  | uns | float => exact decide_eq_decide.2 (by omega)
  | twos | ones =>
    refine hsign.trans (decide_eq_decide.2 ?_)
    simp only [reduceCtorEq, if_true, if_false] at hr
    split at hr <;> split <;> split <;> omega

/-- The adder, with the overflow by the sum `n` of the readings. -/
theorem addw_eq {mode : Mode} {w a b r : Nat} {n : Int} (h : 1 ≤ w) (ha : a < 2 ^ w) (hb : b < 2 ^ w)
    (hr : (addw mode w a b).r = r) (hn : n = toIntW mode w a + toIntW mode w b) :
    addw mode w a b = ⟨r, decide (2 ^ w ≤ a + b), decide (n < minInt mode w ∨ maxInt mode w < n)⟩ := by
  rw [← hr, hn, ← storeOverflow_eq, ← addw_overflow h ha hb, ← addw_carry mode]

theorem addw_uns (w a b : Nat) :
    addw .uns w a b = ⟨(a + b) % 2 ^ w, decide (2 ^ w ≤ a + b), decide (2 ^ w ≤ a + b)⟩ := by
  rw [← addw_carry .uns]
  rfl

/-- A sum in range is what the adder's result reads as. -/
theorem toIntW_addw {mode : Mode} {w a b : Nat} (h : 1 ≤ w) (ha : a < 2 ^ w) (hb : b < 2 ^ w)
    (hg : (addw mode w a b).g = false) : toIntW mode w (addw mode w a b).r = toIntW mode w a + toIntW mode w b := by
  have hp := two_pow_half h
  have hp' := two_pow_half_int h
  have hcast : ((2 ^ (w - 1) : Nat) : Int) = 2 ^ (w - 1) := by norm_cast
  have hr := addw_result (mode := mode) ha hb
  have hlt := addw_lt (mode := mode) ha hb
  rw [addw_overflow h ha hb, storeOverflow_eq, decide_eq_false_iff_not] at hg
  cases mode with
    simp only [toIntW, minInt, maxInt, Nat.mod_eq_of_lt ha, Nat.mod_eq_of_lt hb, Nat.mod_eq_of_lt hlt] at hg ⊢
  | uns | float =>
    simp only [reduceCtorEq, if_false] at hr
    split at hr <;> omega
  | twos | ones =>
    simp only [reduceCtorEq, if_true, if_false] at hr
    split at hr <;> split at hg <;> split at hg <;> split <;> omega

/-! ### Subtraction (R153) -/

section
variable {w x y : Nat} (p : Params) (hx : x < 2 ^ w) (hy : y < 2 ^ w)
include hx hy

theorem subw_uns :
    subw p .uns w x y = ⟨(y + 2 ^ w - x) % 2 ^ w, decide (y < x), decide (y < x)⟩ := by
  rw [sub_mod_word hx hy, subw]
  split
  · rw [decide_eq_false (by omega)]
  · rw [decide_eq_true (by omega)]

theorem subw_twos (h : 1 ≤ w) {z : Nat} {n : Int} (hz : z = (2 ^ w - x) % 2 ^ w)
    (hn : n = toIntW .twos w z + toIntW .twos w y) :
    subw p .twos w x y = ⟨(y + 2 ^ w - x) % 2 ^ w, subCarry p (decide (2 ^ w ≤ z + y)) x y,
      decide (n < minInt .twos w ∨ maxInt .twos w < n)⟩ := by
  have hlt : z < 2 ^ w := hz ▸ Nat.mod_lt _ (Nat.two_pow_pos w)
  rw [subw, ← hz, addw_eq h hlt hy rfl hn, ← complement_add_mod_word hx, ← hz]
  rfl

theorem subw_ones (h : 1 ≤ w) {n : Int} (hn : n = toIntW .ones w y - toIntW .ones w x) :
    subw p .ones w x y = ⟨if x < y then y - x else 2 ^ w - 1 - x + y, subCarry p (decide (x < y)) x y,
      decide (n < minInt .ones w ∨ maxInt .ones w < n)⟩ := by
  have hlt : 2 ^ w - 1 - x < 2 ^ w := by omega
  have hcarry : 2 ^ w ≤ 2 ^ w - 1 - x + y ↔ x < y := by omega
  have hsum : n = toIntW .ones w (2 ^ w - 1 - x) + toIntW .ones w y := by
    rw [hn, toIntW_ones_complement h hx, neg_add_eq_sub]
  rw [subw, xor_wordMask hx, addw_eq h hlt hy (addw_result hlt hy) hsum, if_pos rfl]
  simp only [hcarry]
  split
  · rw [show 2 ^ w - 1 - x + y - (2 ^ w - 1) = y - x by omega]
  · rfl

end

/-! ### NEG (R156) -/

section
variable {w x : Nat} (hx : x < 2 ^ w)
include hx

theorem negw_ones : negw .ones w x = (if x = 0 then 0 else 2 ^ w - 1 - x, false) := by
  rw [negw, xor_wordMask hx]

theorem negw_twos : negw .twos w x = (if x = 0 then 0 else 2 ^ w - x, decide (x = 2 ^ (w - 1))) := by
  rw [negw, complement_mod_word hx]
  rfl

theorem negw_lt (mode : Mode) : (negw mode w x).1 < 2 ^ w := by
  cases mode
  case ones => rw [negw_ones hx]; dsimp only; split <;> omega
  case twos => rw [negw_twos hx]; dsimp only; split <;> omega
  all_goals exact hx

/-- NEG gives a pattern back, but for the second zero of ONES (R179). -/
theorem negw_negw (h : 1 ≤ w) (mode : Mode) :
    (negw mode w (negw mode w x).1).1 = if mode = .ones ∧ x = 2 ^ w - 1 then 0 else x := by
  have hlt := negw_lt hx mode
  have hp := two_pow_half h
  have hpos : 0 < 2 ^ (w - 1) := Nat.two_pow_pos _
  cases mode
  case ones =>
    rw [negw_ones hlt, negw_ones hx]
    simp only [true_and]
    split <;> split <;> split at * <;> omega
  case twos =>
    rw [negw_twos hlt, negw_twos hx]
    simp only [reduceCtorEq, false_and, if_false]
    split <;> split at * <;> omega
  all_goals rfl

end

/-- The least number of TWOS is its own negation. -/
theorem negw_twos_half {w : Nat} (h : 1 ≤ w) : negw .twos w (2 ^ (w - 1)) = (2 ^ (w - 1), true) := by
  have hp := two_pow_half h
  have hpos : 0 < 2 ^ (w - 1) := Nat.two_pow_pos _
  rw [negw_twos (by omega), if_neg (by omega), decide_eq_true rfl, show 2 ^ w - 2 ^ (w - 1) = 2 ^ (w - 1) by omega]

/-! ### The next number (R161, R162) -/

theorem encodeW_zero (mode : Mode) (w : Nat) : encodeW mode w 0 = 0 := by
  cases mode <;> simp [encodeW]

/-- A number less than a word below 0 encodes as it is with the word added. -/
theorem emod_word_of_neg {w : Nat} {n : Int} (h : n < 0) (h' : -2 ^ w ≤ n) : n % 2 ^ w = n + 2 ^ w := by
  rw [← Int.add_emod_right]
  exact Int.emod_eq_of_lt (by omega) (by omega)

/-- The number past the end of the range. -/
theorem encodeW_max_add_one {mode : Mode} {w : Nat} (h : 1 ≤ w) (hm : mode ≠ .float) :
    encodeW mode w (maxInt mode w + 1) = if mode = .uns then 0 else 2 ^ (w - 1) := by
  have hp := two_pow_half_int h
  have hpos : (0 : Int) < 2 ^ (w - 1) := by positivity
  have hhalf : ((2 : Int) ^ (w - 1) % 2 ^ w).toNat = 2 ^ (w - 1) := by
    rw [Int.emod_eq_of_lt hpos.le (by omega)]
    exact_mod_cast Int.toNat_natCast (2 ^ (w - 1))
  cases mode
  case float => exact absurd rfl hm
  case uns => simp [encodeW, maxInt]
  all_goals simp [encodeW, maxInt, hhalf, hpos.le]

theorem encodeW_min_sub_one {mode : Mode} {w : Nat} (h : 1 ≤ w) (hm : mode ≠ .float) :
    encodeW mode w (minInt mode w - 1) = if mode = .uns then 2 ^ w - 1 else 2 ^ (w - 1) - 1 := by
  have hp := two_pow_half_int h
  have hpos : (0 : Int) < 2 ^ (w - 1) := by positivity
  have hcast : ((2 ^ (w - 1) : Nat) : Int) = 2 ^ (w - 1) := by norm_cast
  have hcast' : ((2 ^ w : Nat) : Int) = 2 ^ w := by norm_cast
  cases mode with simp only [minInt, reduceCtorEq, if_true, if_false]
  | float => exact absurd rfl hm
  | uns | twos =>
    simp only [encodeW]
    rw [emod_word_of_neg (by omega) (by omega)]
    omega
  | ones =>
    simp only [encodeW]
    rw [if_neg (by omega), emod_word_of_neg (by omega) (by omega)]
    omega

/-- Encoding the stepped reading steps to the next number, or wraps. -/
theorem stepped_encodeW {mode : Mode} {w : Nat} {k : Int} (h : 1 ≤ w) (hm : mode ≠ .float) (hk : k = 1 ∨ k = -1)
    (a : Nat) : Stepped mode w k a (encodeW mode w (toIntW mode w a + k)) := by
  obtain ⟨hmin, hmax⟩ := toIntW_range (mode := mode) h a
  refine ⟨encodeW_lt _ _ _, fun ⟨h1, h2⟩ => ⟨toIntW_encodeW h h1 h2, fun hz => ?_⟩, fun hgt => ?_, fun hlt => ?_⟩
  · rw [hz, encodeW_zero]
  · rw [show toIntW mode w a + k = maxInt mode w + 1 by omega, encodeW_max_add_one h hm]
  · rw [show toIntW mode w a + k = minInt mode w - 1 by omega, encodeW_min_sub_one h hm]

end Sys2Proof.Machine
end

section
/-! SUPPORT. The commands of 41_signmode.md in the integer modes (R140 to R175): the whole next state of each. -/

namespace Sys2Proof.Machine

/-! ### Words on a port -/

theorem State.xWord_lt (s : State) : s.xWord < 2 ^ s.ws := Nat.mod_lt _ (Nat.two_pow_pos _)

theorem State.yWord_lt (s : State) : s.yWord < 2 ^ s.ws := Nat.mod_lt _ (Nat.two_pow_pos _)

theorem State.toInt_x (s : State) : s.toInt s.inp.x.toNat = toIntW s.mode s.ws s.xWord := (toIntW_mod ..).symm

theorem State.toInt_y (s : State) : s.toInt s.inp.y.toNat = toIntW s.mode s.ws s.yWord := (toIntW_mod ..).symm

/-- A pattern of at most 64 bits reads back from a port. -/
theorem toNat_val {w n : Nat} (hw : w ≤ 64) (hn : n < 2 ^ w) : (val n).toNat = n := by
  rw [BitVec.toNat_ofNat]
  exact Nat.mod_eq_of_lt (hn.trans_le (Nat.pow_le_pow_right (by decide) (by omega)))

theorem val_toNat (v : Value) : val v.toNat = v := by
  rw [val, BitVec.ofNat_toNat, BitVec.setWidth_eq]

/-! ### The commands in the integer modes -/

theorem Attempt.bind_of_ok {α β : Type} {m : Attempt α} {x : α} (h : m = .ok x) (f : α → Attempt β) :
    m >>= f = f x := by
  rw [h, Attempt.bind_ok]

/-- The state after ADD or SUB: the flags and the result of the adder (R150, R153). -/
def State.writeSum (s : State) (a : Sum) : State :=
  ((s.setC a.c).setG a.g).setOut { Outputs.absent with r := some (val a.r) }

section
variable {s : State} {m : Mode} (hm : s.mode = m) (hf : m ≠ .float)
include hm hf

theorem State.requireInteger_ok : s.requireInteger = .ok () :=
  require_eq_ok.2 (by simpa [hm] using hf)

theorem exec_add_integer : exec .add s = .next (s.writeSum (addw m s.ws s.xWord s.yWord)) := by
  have hint := State.requireInteger_ok (s := s.setOut Outputs.absent) hm hf
  subst hm
  exact (perform_attempt_ok (Attempt.bind_of_ok hint _) : execAdd s = _)

theorem exec_sub_integer : exec .sub s = .next (s.writeSum (subw s.params m s.ws s.xWord s.yWord)) := by
  have hint := State.requireInteger_ok (s := s.setOut Outputs.absent) hm hf
  subst hm
  exact (perform_attempt_ok (Attempt.bind_of_ok hint _) : execSub s = _)

theorem exec_neg_integer : exec .neg s = .next ((s.setG (negw m s.ws s.xWord).2).setOut
    { Outputs.absent with r := some (val (negw m s.ws s.xWord).1) }) := by
  subst hm
  exact (perform_attempt_ok (if_neg hf) : execNeg s = _)

theorem exec_store_integer : exec .store s = .next ((s.setG (storeOverflow m s.ws s.inp.n)).setOut
    { Outputs.absent with r := some (val (encodeW m s.ws s.inp.n)) }) := by
  have hint := State.requireInteger_ok (s := s.setOut Outputs.absent) hm hf
  subst hm
  exact (perform_attempt_ok (Attempt.bind_of_ok hint _) : execStore s = _)

theorem exec_toint_integer : exec .toint s = .next (s.setOut { Outputs.absent with
    int := some (toIntW m s.ws s.inp.x.toNat) }) := by
  have hint := State.requireInteger_ok (s := s.setOut Outputs.absent) hm hf
  subst hm
  exact (perform_attempt_ok (Attempt.bind_of_ok hint _) : execToint s = _)

end

section
variable {s : State} (hf : s.mode ≠ .float)
include hf

theorem exec_cmp_integer : exec .cmp s = .next (s.setOut { Outputs.absent with
    ord := some (compare (s.toInt s.inp.x.toNat) (s.toInt s.inp.y.toNat)) }) :=
  (perform_attempt_ok (if_neg hf) : execCmp s = _)

theorem exec_isz_integer : exec .isz s = .next (s.setOut { Outputs.absent with
    z := some (isZeroW s.mode s.ws s.inp.x.toNat) }) :=
  (perform_attempt_ok (if_neg hf) : execIsz s = _)

theorem stepX_integer (k : Int) : stepX k s = .ok (s.setOut { Outputs.absent with
    r := some (val (encodeW s.mode s.ws (toIntW s.mode s.ws s.inp.x.toNat + k))) }) :=
  congrArg (Ending.of s) (if_neg hf)

end

/-! ### ADD and SUB -/

/-- Settles O19: the borrow of an unsigned difference is that the subtrahend is the greater. -/
theorem unsignedAddSub : Obligations.UnsignedAddSub := by
  unfold Obligations.UnsignedAddSub
  rintro s x y hm - rfl rfl
  refine ⟨?_, ?_⟩
  · rw [exec_add_integer hm (by decide), addw_uns]
    rfl
  · rw [exec_sub_integer hm (by decide), subw_uns s.params s.xWord_lt s.yWord_lt]
    rfl

/-- Settles O20: the adder's overflow is that the true sum is out of range, in either mode. -/
theorem signedAdd : Obligations.SignedAdd := by
  unfold Obligations.SignedAdd
  rintro s x y n ⟨h1, -, -⟩ rfl rfl hn
  rw [s.toInt_x, s.toInt_y] at hn
  have hx := s.xWord_lt
  have hy := s.yWord_lt
  refine ⟨fun hm => ?_, fun hm => ⟨_, ?_, addw_lt (mode := .ones) hx hy, ?_, fun hmin hmax => ?_⟩⟩
  all_goals rw [hm] at hn
  · have hr : (addw .twos s.ws s.xWord s.yWord).r = (s.yWord + s.xWord) % 2 ^ s.ws :=
      congrArg (· % 2 ^ s.ws) (Nat.add_comm ..)
    rw [exec_add_integer hm (by decide), addw_eq h1 hx hy hr hn]
    rfl
  · rw [addw_result hx hy, if_pos rfl]
    rfl
  · rw [exec_add_integer hm (by decide), addw_eq h1 hx hy rfl hn]
    rfl
  · rw [State.toInt, hm, hn]
    refine toIntW_addw h1 hx hy ?_
    rw [addw_eq h1 hx hy rfl hn]
    exact decide_eq_false (by simp only [minInt, maxInt]; omega)

/-- Settles O21: TWOS SUB is the addition of the two's complement. -/
theorem twosSub : Obligations.TwosSub := by
  unfold Obligations.TwosSub
  rintro s x y z n hm ⟨h1, -, -⟩ rfl rfl hz hn
  rw [State.toInt, State.toInt, hm] at hn
  rw [exec_sub_integer hm (by decide), subw_twos s.params s.xWord_lt s.yWord_lt h1 hz hn]
  rfl

/-- Settles O22: ONES SUB is the addition of the complement, which reads as the negated subtrahend. -/
theorem onesSub : Obligations.OnesSub := by
  unfold Obligations.OnesSub
  rintro s x y n hm ⟨h1, -, -⟩ rfl rfl hn
  rw [s.toInt_x, s.toInt_y, hm] at hn
  rw [exec_sub_integer hm (by decide), subw_ones s.params s.xWord_lt s.yWord_lt h1 hn]
  rfl

/-! ### NEG -/

/-- Settles O23: the complement of a pattern, by the mode. -/
theorem integerNeg : Obligations.IntegerNeg := by
  unfold Obligations.IntegerNeg
  rintro s x - rfl
  refine ⟨fun hm => exec_neg_integer hm (by decide), fun hm => ?_, fun hm => ?_⟩
  · rw [exec_neg_integer hm (by decide), negw_ones s.xWord_lt]
    rfl
  · rw [exec_neg_integer hm (by decide), negw_twos s.xWord_lt]
    rfl

/-! ### STORE and TOINT -/

/-- Settles O25: the pattern and the range, by the mode. -/
theorem storeResult : Obligations.StoreResult := by
  unfold Obligations.StoreResult
  refine fun s _ => ⟨fun hm => exec_integer_only hm (by simp), fun hm => ?_, fun hm => ?_, fun hm => ?_⟩
  · rw [exec_store_integer hm (by decide), storeOverflow_eq]
    rfl
  · rw [exec_store_integer hm (by decide), storeOverflow_eq]
    rfl
  · rw [exec_store_integer hm (by decide), storeOverflow_eq, encodeW_ones]
    rfl

/-- Settles O26: encoding and reading are inverse to each other, but for the second zero of ONES. -/
theorem storeTointRoundTrip : Obligations.StoreTointRoundTrip := by
  unfold Obligations.StoreTointRoundTrip
  rintro s ⟨h1, h64, -⟩ hf
  have hg : ∀ n, minInt s.mode s.ws ≤ n ∧ n ≤ maxInt s.mode s.ws → storeOverflow s.mode s.ws n = false := fun n hn => by
    rw [storeOverflow_eq, decide_eq_false_iff_not]
    omega
  refine ⟨fun hmin hmax => ⟨_, _, exec_store_integer rfl hf, hg _ ⟨hmin, hmax⟩, rfl, _, exec_toint_integer rfl hf,
    congrArg some ?_⟩, fun hx => ⟨_, _, exec_toint_integer rfl hf, rfl, _, exec_store_integer rfl hf,
    hg _ (toIntW_range h1 _), congrArg some ?_⟩⟩
  · exact (congrArg _ (toNat_val h64 (encodeW_lt ..))).trans (toIntW_encodeW h1 hmin hmax)
  · have hround := encodeW_toIntW (mode := s.mode) h1 s.inp.x.toNat
    rw [Nat.mod_eq_of_lt hx] at hround
    exact (congrArg val hround).trans (by rw [apply_ite val, val_toNat]; rfl)

/-- Settles O29: the sign bit decides the signed reading; TRUNC has no mode to check. -/
theorem tointIszTrunc : Obligations.TointIszTrunc := by
  unfold Obligations.TointIszTrunc
  rintro s x - rfl
  refine ⟨fun hf => ?_, fun hf => ?_, rfl⟩
  · rw [exec_toint_integer rfl hf, toIntW_eq hf]
    rfl
  · rw [exec_isz_integer hf, isZeroW_eq]
    rfl

/-! ### INC and DEC -/

/-- Settles O28: both encode the stepped reading. -/
theorem integerIncDec : Obligations.IntegerIncDec := by
  unfold Obligations.IntegerIncDec
  rintro s ⟨h1, -, -⟩ hf
  have hstep := fun k => perform_of_ok (s := s) (stepX_integer (s := s.setOut Outputs.absent) hf k)
  exact ⟨⟨_, hstep 1, stepped_encodeW h1 hf (.inl rfl) _⟩, ⟨_, hstep (-1), stepped_encodeW h1 hf (.inr rfl) _⟩⟩

/-! ### CMP -/

/-- The float comparison is the order of the exact values (40_value_bcd.md R112). -/
theorem floatCompare_eq (a b : Value) : floatCompare a b = compare (floatValue a) (floatValue b) :=
  (LinearOrder.compare_eq_compareOfLessAndEq ..).symm

theorem exec_cmp_float {s : State} (hm : s.mode = .float) (hx : FloatOk s.params s.inp.x)
    (hy : FloatOk s.params s.inp.y) :
    exec .cmp s = .next (s.setOut { Outputs.absent with
      ord := some (compare (floatValue s.inp.x) (floatValue s.inp.y)) }) :=
  (perform_attempt_ok (by simp [hm, checkFloat_ok hx, checkFloat_ok hy, floatCompare_eq]) : execCmp s = _)

/-- Settles O27: a comparison of two integers or of two rationals. -/
theorem cmpResult : Obligations.CmpResult := by
  unfold Obligations.CmpResult
  exact fun s => ⟨exec_cmp_integer, fun hm hx hy =>
    ⟨_, exec_cmp_float hm hx hy, compare_lt_iff_lt, compare_eq_iff_eq, compare_gt_iff_gt⟩⟩

/-! ### SETWS, SETMODE and WFLAG -/

/-- Settles O33: the mode is checked before the word size. -/
theorem setwsResult : Obligations.SetwsResult := by
  unfold Obligations.SetwsResult
  refine fun s w => ⟨fun hm => ?_, fun hm hw => ?_, fun hm h1 h64 => ?_⟩
  · exact (perform_attempt_error (x := .refuse .wordSizeInFloat) (by simp [hm]) : execSetws w s = _)
  · have hint : (s.mode != .float) = true := by simpa using hm
    have hrange : ¬ (1 ≤ w.toNat ∧ w.toNat ≤ 64) := by omega
    exact (perform_attempt_error (x := .err .bitIndex) (by simp [hint, hrange]) : execSetws w s = _)
  · have hint : (s.mode != .float) = true := by simpa using hm
    exact (perform_attempt_ok (by simp [hint, h1, h64]; rfl) : execSetws w s = _)

/-- Settles O34: only the FLOAT mode sets the word size. -/
theorem setmodeWflagResult : Obligations.SetmodeWflagResult := by
  unfold Obligations.SetmodeWflagResult
  refine fun s m v => ⟨?_, rfl, rfl⟩
  cases m <;> rfl

end Sys2Proof.Machine
end

section
/-! SUPPORT. NEG on its own result (41_signmode.md R179, 40_value_bcd.md R111): patterns, and legal floats, which NEG
keeps legal. -/

namespace Sys2Proof.Machine

/-- NEG on the result of NEG on a pattern (R179). -/
theorem exec_neg_negw {t : State} {m : Mode} {v r : Value} (hm : t.mode = m) (hf : m ≠ .float) (hw : t.WordOk)
    (hv : v.toNat < 2 ^ t.ws) (hx : t.inp.x = val (negw m t.ws v.toNat).1)
    (hr : (if m = .ones ∧ v.toNat = 2 ^ t.ws - 1 then 0 else v) = r) :
    ∃ u, exec .neg t = .next u ∧ u.out.r = some r := by
  obtain ⟨h1, h64, -⟩ := hw
  have hlt := negw_lt hv m
  have hword : t.xWord = (negw m t.ws v.toNat).1 := by
    rw [State.xWord, maskW, hx, toNat_val h64 hlt, Nat.mod_eq_of_lt hlt]
  refine ⟨_, exec_neg_integer hm hf, congrArg some ?_⟩
  rw [hword, negw_negw hv h1, apply_ite val, val_toNat]
  exact hr

/-- NEG keeps every mantissa digit. -/
theorem floatDigits_negateAsFloat {v : Value} (h : mant v ≠ 0) (k : Nat) :
    floatDigits (negateAsFloat v) k = floatDigits v k := by
  induction k with
  | zero => rfl
  | succ k ih => rw [floatDigits, floatDigits, ih, floatDigit, floatDigit, nyb_negateAsFloat h (by omega)]

/-- NEG of a legal float is legal (40_value_bcd.md R111). -/
theorem isLegalFloat_negateAsFloat {v : Value} (h : isLegalFloat v = true) :
    isLegalFloat (negateAsFloat v) = true := by
  by_cases hz : mant v = 0
  · rwa [negateAsFloat, if_pos hz]
  obtain ⟨hhi, hdig, hdec, hexp, -⟩ := (isLegalFloat_iff v).1 h
  have hnyb : ∀ k, k < 13 → nyb (negateAsFloat v) k = nyb v k := fun k hk => nyb_negateAsFloat hz (by omega)
  have hsgn := floatSgn_negateAsFloat hz
  refine (isLegalFloat_iff _).2 ⟨?_, fun j hj => ?_, ?_, ?_, .inr ?_⟩
  · rw [toNat_negateAsFloat hz, floatSgn, nyb]
    split <;> omega
  · rw [hnyb _ (by omega)]
    exact hdig j hj
  · rwa [ExpDecimal, hnyb 2 (by omega), hnyb 1 (by omega), hnyb 0 (by omega)]
  · rwa [expField, hnyb 2 (by omega), hnyb 1 (by omega), hnyb 0 (by omega)]
  · change floatSgn _ = 0 ∨ floatSgn _ = 9
    rw [hsgn]
    split <;> simp

/-- NEG of a legal float is undone by NEG (40_value_bcd.md R111). -/
theorem negateAsFloat_negateAsFloat {v : Value} (h : isLegalFloat v = true) :
    negateAsFloat (negateAsFloat v) = v := by
  by_cases hz : mant v = 0
  · have hself : negateAsFloat v = v := if_pos hz
    rw [hself, hself]
  obtain ⟨-, -, -, -, hmant | hsgn⟩ := (isLegalFloat_iff v).1 h
  · exact absurd hmant hz
  have hz' : mant (negateAsFloat v) ≠ 0 := by rwa [mant, floatDigits_negateAsFloat hz]
  apply BitVec.eq_of_toNat_eq
  rw [toNat_negateAsFloat hz', floatSgn_negateAsFloat hz, toNat_negateAsFloat hz, floatSgn]
  unfold nyb at *
  rcases hsgn with hsgn | hsgn <;> rw [hsgn]
  · simp
  · norm_num
    omega

/-- Settles O24: NEG on the result of NEG, on patterns and on floats. -/
theorem negTwice : Obligations.NegTwice := by
  unfold Obligations.NegTwice
  rintro s v hw rfl
  have hword : s.inp.x.toNat < 2 ^ s.ws → s.xWord = s.inp.x.toNat := Nat.mod_eq_of_lt
  refine ⟨fun hm hv => ⟨_, _, exec_neg_integer hm (by decide), rfl, ?_⟩,
    fun hm hv => ⟨_, _, exec_neg_integer hm (by decide), rfl, fun hS => ?_, ?_⟩,
    fun hm hx => ⟨_, _, exec_neg_float hm hx, rfl, fun hdesc => ⟨_, exec_neg_float hm ⟨hdesc, ?_⟩, congrArg some ?_⟩⟩⟩
  · rw [hword hv]
    exact exec_neg_negw hm (by decide) hw hv rfl (by simp)
  · have hneg := negw_twos_half hw.1
    rw [hword (by omega), hS, hneg, ← hS, val_toNat]
    exact ⟨rfl, rfl⟩
  · rw [hword hv]
    exact exec_neg_negw hm (by decide) hw hv rfl (by simp)
  · exact isLegalFloat_negateAsFloat hx.2
  · exact negateAsFloat_negateAsFloat hx.2

end Sys2Proof.Machine
end

section
/-! SUPPORT. The registers and I: a register slot after a write, an I that denotes no register, WI, RI and CLRREG, and
the commands that step I or the register it names (20_memory.md R51, 42_registers.md R200 to R211). -/

namespace Sys2Proof.Machine

/-! ### A slot after a write -/

/-- The slot of a higher register number lies below (20_memory.md R51). -/
theorem State.slot_end_le {s : State} {j k : Nat} (hk : k < s.regCount) (h : j < k) :
    s.slotAddr k + s.npr ≤ s.slotAddr j := by
  rw [(slotAddr_add_npr hk).1]
  exact Nat.sub_le_sub_left (Nat.mul_le_mul_right _ h) _

/-- The slot of another register keeps its number. -/
theorem State.slotValue_write_other {s : State} {j k v : Nat} (hj : j < s.regCount) (hk : k < s.regCount)
    (hne : j ≠ k) : (s.setArena (s.arena.writeN (s.slotAddr k) s.npr v)).slotValue j = s.slotValue j :=
  Memory.readN_congr fun _ hb hb' => Memory.get_writeN_outside <| by
    rcases Nat.lt_or_gt_of_ne hne with h | h
    · exact .inr ((slot_end_le hk h).trans hb)
    · exact .inl (hb'.trans_le (slot_end_le hj h))

/-- A slot holds a word written to it. -/
theorem State.slotValue_write_same {s : State} {k v : Nat} (hk : k < s.regCount) (hv : v < 2 ^ s.ws) :
    (s.setArena (s.arena.writeN (s.slotAddr k) s.npr v)).slotValue k = v := by
  have hfit : v < 16 ^ s.npr := by
    rw [show 16 = 2 ^ 4 from rfl, ← Nat.pow_mul]
    exact hv.trans_le (Nat.pow_le_pow_right (by decide) s.ws_le_slot_bits)
  have hend := slotAddr_add_npr hk
  exact (Memory.readN_writeN_same (by simp only [arenaSize]; omega)).trans (Nat.mod_eq_of_lt hfit)

/-- Settles O42: the slot written holds X', which RREG masks again; the other slots lie outside it. -/
theorem registerReadsBackWrite : Obligations.RegisterReadsBackWrite := by
  unfold Obligations.RegisterReadsBackWrite
  intro s idx _ hk hf
  have hsame := State.slotValue_write_same (s := s.setOut Outputs.absent) hk s.xWord_lt
  refine ⟨_, _, exec_wreg_ok hk (.inl ⟨idx, rfl, rfl⟩),
    exec_rreg_ok (k := idx.toNat) hk (.inl ⟨idx, rfl, rfl⟩) fun hm => ?_, ?_, fun j hne hj => ?_⟩
  · exact (congrArg val hsame) ▸ hf hm
  · exact congrArg (fun v => some (val v)) ((congrArg (· % 2 ^ s.ws) hsame).trans (Nat.mod_eq_of_lt s.xWord_lt))
  · exact State.slotValue_write_other (s := s.setOut Outputs.absent) hj hk hne

/-! ### Registers that do not exist -/

/-- An I that reads as `q` gives `q` where it is in the range of an address (42_registers.md R207). -/
theorem State.iaddr_of_reads {s : State} {q : Int} (h : s.IndexReads q) :
    s.iaddr = .ok (if 0 ≤ q ∧ q < s.params.iaddrLimit then some q.toNat else none) := by
  obtain ⟨hm, rfl⟩ | ⟨hm, hok, rfl⟩ := h
  · simp [iaddr, hm]
  · simp [iaddr, hm, checkFloat_ok hok]

theorem State.checkReg_of_ge {s : State} {i : Nat} (h : s.regCount ≤ i) :
    s.checkReg (some i) = .error (.err .regAddr) := if_neg (by omega)

/-- An I that reads as a number outside the registers fails the check of the register. -/
theorem State.checkReg_index {s : State} {q : Int} (h : q < 0 ∨ s.params.iaddrLimit ≤ q ∨ s.regCount ≤ q) :
    s.checkReg (if 0 ≤ q ∧ q < s.params.iaddrLimit then some q.toNat else none) = .error (.err .regAddr) := by
  split
  · exact checkReg_of_ge (by omega)
  · rfl

section
variable {s : State} {i : Option Nat} {x : Exit} (h : s.checkReg i = .error x)
include h

theorem readRegister_checkReg_error : readRegister s i = .error x := Attempt.bind_of_error h _

theorem writeRegister_checkReg_error : writeRegister s i = .error x := Attempt.bind_of_error h _

theorem stepIndirect_checkReg_error (hI : s.iaddr = .ok i) (k : Int) : stepIndirect k s = Ending.of s (.error x) :=
  congrArg (Ending.of s) ((Attempt.bind_of_ok hI _).trans (Attempt.bind_of_error h _))

end

/-- Settles O43: the check of the register comes before every write. -/
theorem registerIndexErrors : Obligations.RegisterIndexErrors := by
  unfold Obligations.RegisterIndexErrors
  refine fun s => ⟨fun idx hidx => ?_, fun q i hq hout hi => ?_⟩
  · have hreg := State.checkReg_of_ge (s := s.setOut Outputs.absent) hidx
    exact ⟨(perform_attempt_error (readRegister_checkReg_error hreg) : execRreg idx s = _),
      (perform_attempt_error (writeRegister_checkReg_error hreg) : execWreg idx s = _)⟩
  · have hI := State.iaddr_of_reads (s := s.setOut Outputs.absent) hq
    have hreg := State.checkReg_index (s := s.setOut Outputs.absent) hout
    have hstep := fun k => congrArg (Ending.conclude s) (stepIndirect_checkReg_error hreg hI k)
    rcases hi with rfl | rfl | rfl | rfl
    · exact (perform_attempt_error ((Attempt.bind_of_ok hI _).trans (readRegister_checkReg_error hreg)) :
        execRregI s = _)
    · exact (perform_attempt_error ((Attempt.bind_of_ok hI _).trans (writeRegister_checkReg_error hreg)) :
        execWregI s = _)
    · exact hstep 1
    · exact hstep (-1)

/-! ### WI, RI and CLRREG -/

/-- A wider word has the range of a narrower one in it (10_state.md R22). -/
theorem range_mono (mode : Mode) {w w' : Nat} (h : w ≤ w') :
    minInt mode w' ≤ minInt mode w ∧ maxInt mode w ≤ maxInt mode w' := by
  have hword : (2 : Int) ^ w ≤ 2 ^ w' := pow_le_pow_right₀ (by decide) h
  have hhalf : (2 : Int) ^ (w - 1) ≤ 2 ^ (w' - 1) := pow_le_pow_right₀ (by decide) (by omega)
  cases mode <;> simp only [minInt, maxInt] <;> omega

/-- A number of the word is the same number at the width of I (42_registers.md R205). -/
theorem toIntW_indexOfX {s : State} (hf : s.mode ≠ .float) (h1 : 1 ≤ s.ws) (h64 : s.ws ≤ 64) :
    toIntW s.mode 68 s.indexOfX.toNat = s.toInt s.inp.x.toNat := by
  obtain ⟨hmin, hmax⟩ := toIntW_range (mode := s.mode) h1 s.inp.x.toNat
  obtain ⟨hmin', hmax'⟩ := range_mono s.mode (show s.ws ≤ 68 by omega)
  rw [State.indexOfX, if_neg hf, BitVec.toNat_ofNat, Nat.mod_eq_of_lt (encodeW_lt ..)]
  exact toIntW_encodeW (by decide) (hmin'.trans hmin) (hmax.trans hmax')

/-- Settles O45: the index register is wider than every word. -/
theorem wiRiResult : Obligations.WiRiResult := by
  unfold Obligations.WiRiResult
  rintro s ⟨h1, h64, -⟩
  refine ⟨fun hf => ⟨s.indexOfX, rfl, toIntW_indexOfX hf h1 h64, fun hz => ?_⟩, fun hm => ?_, rfl⟩
  · rw [State.indexOfX, if_neg hf, hz, encodeW_zero]
    rfl
  · rw [← show s.indexOfX = val (s.inp.x.toNat % 2 ^ 56) from if_pos hm]
    rfl

/-- Settles O46: the nybbles from P to the end of the arena are set to 0. -/
theorem clrregResult : Obligations.ClrregResult := by
  unfold Obligations.ClrregResult
  refine fun s => ⟨s.arena.zero s.progSize (arenaSize - s.progSize), rfl, fun a ha => ?_, fun a ha ha' => ?_⟩
  · exact Memory.get_zero_outside (.inl ha)
  · have hend : s.progSize + (arenaSize - s.progSize) = 406 := by
      simp only [arenaSize]
      omega
    rw [Memory.get_zero hend.le, if_pos (by omega)]

/-! ### ISZI, DSZI, ISZIND and DSZIND -/

/-- The cursor after a skip when `p` holds (44_control_flow.md R260, R262). -/
theorem State.doNextIf_not_eq {s : State} {b : Bool} {p : Prop} [Decidable p] (h : b = true ↔ p) :
    s.doNextIf (!b) = s.setCur (if p then (s.cur + 1) % (s.lines + 1) else s.cur) := by
  simp only [doNextIf_eq, ← h]
  cases b <;> rfl

theorem floatIsZero_iff (v : Value) : floatIsZero v = true ↔ mant v = 0 := beq_iff_eq

theorem stepIndex_integer {s : State} (hf : s.mode ≠ .float) {k : Int} {r : Nat}
    (hr : r = encodeW s.mode 68 (toIntW s.mode 68 s.ireg.toNat + k)) :
    stepIndex k s = .ok (((s.setIreg (val r)).setDirty true).setCur
      (if toIntW s.mode 68 r = 0 then (s.cur + 1) % (s.lines + 1) else s.cur)) := by
  subst hr
  simp only [stepIndex, if_neg hf, State.doNextIf_not_eq (isZeroW_iff (show 1 ≤ 68 by decide) _)]
  rfl

theorem stepIndex_float {s : State} (hm : s.mode = .float) (hI : FloatOk s.params s.ireg) {k : Int} {r : Value}
    (hr : r = floatIncr s.params s.ireg k) :
    stepIndex k s = .ok (((s.setIreg r).setDirty true).setCur
      (if mant r = 0 then (s.cur + 1) % (s.lines + 1) else s.cur)) := by
  subst hr
  simp only [stepIndex, if_pos hm, checkFloat_ok hI, State.doNextIf_not_eq (floatIsZero_iff _)]
  rfl

/-- Settles O47: both encode the stepped reading of I, and skip where it is zero. -/
theorem indexStepResult : Obligations.IndexStepResult := by
  unfold Obligations.IndexStepResult
  intro s i k hi
  have hexec : exec i s = perform (stepIndex k) s := by rcases hi with ⟨rfl, rfl⟩ | ⟨rfl, rfl⟩ <;> rfl
  have hk : k = 1 ∨ k = -1 := hi.imp And.right And.right
  rw [hexec]
  refine ⟨fun hf => ⟨_, stepped_encodeW (by decide) hf hk _, ?_⟩, fun hm hI => ⟨_, rfl, ?_⟩⟩
  · exact perform_of_ok (stepIndex_integer (s := s.setOut Outputs.absent) hf rfl)
  · exact perform_of_ok (stepIndex_float (s := s.setOut Outputs.absent) hm hI rfl)

/-- The arena with `v`, masked to the word, in the slot of register `j` (42_registers.md R200, R210, R211). -/
def State.withSlot (s : State) (j v : Nat) : Memory := s.arena.writeN (s.slotAddr j) s.npr (v % 2 ^ s.ws)

section
variable {s : State} {j : Nat} (hj : j < s.regCount)
include hj

theorem State.readN_withSlot (v : Nat) : (s.withSlot j v).readN (406 - (j + 1) * s.npr) s.npr = v % 2 ^ s.ws :=
  slotValue_write_same hj (Nat.mod_lt v (Nat.two_pow_pos _))

theorem State.get_withSlot_outside (v : Nat) {a : Nat} (ha : a < 406 - (j + 1) * s.npr ∨ 406 - j * s.npr ≤ a) :
    (s.withSlot j v).get a = s.arena.get a :=
  Memory.get_writeN_outside ((slotAddr_add_npr hj).1 ▸ ha)

variable {k : Int} (hI : s.NamesRegister j)
include hI

theorem stepIndirect_integer (h1 : 1 ≤ s.ws) (hf : s.mode ≠ .float) {r : Nat}
    (hr : r = encodeW s.mode s.ws (toIntW s.mode s.ws (s.slotValue j) + k)) :
    stepIndirect k s = .ok (((s.setArena (s.withSlot j r)).setDirty true).setCur
      (if toIntW s.mode s.ws r = 0 then (s.cur + 1) % (s.lines + 1) else s.cur)) := by
  have hread : s.slotRead j = .ok (s.slotValue j) := State.slotRead_ok hj
  subst hr
  simp only [stepIndirect, State.iaddr_of_names hI, State.checkReg_ok hj, hread, State.slotWrite_ok hj, if_neg hf,
    Attempt.bind_ok, State.doNextIf_not_eq (isZeroW_iff h1 _)]
  rfl

theorem stepIndirect_float (hm : s.mode = .float) (hv : FloatOk s.params (val (s.slotValue j))) {r : Value}
    (hr : r = floatIncr s.params (val (s.slotValue j)) k) :
    stepIndirect k s = .ok (((s.setArena (s.withSlot j r.toNat)).setDirty true).setCur
      (if mant r = 0 then (s.cur + 1) % (s.lines + 1) else s.cur)) := by
  have hread : s.slotRead j = .ok (s.slotValue j) := State.slotRead_ok hj
  subst hr
  simp only [stepIndirect, State.iaddr_of_names hI, State.checkReg_ok hj, hread, State.slotWrite_ok hj, if_pos hm,
    checkFloat_ok hv, Attempt.bind_ok, State.doNextIf_not_eq (floatIsZero_iff _)]
  rfl

end

/-- Settles O48: both write the stepped number of the slot back to it, and skip where it is zero. -/
theorem indirectStepResult : Obligations.IndirectStepResult := by
  unfold Obligations.IndirectStepResult
  rintro s i k j hi ⟨h1, -, -⟩ hI hj
  have hexec : exec i s = perform (stepIndirect k) s := by rcases hi with ⟨rfl, rfl⟩ | ⟨rfl, rfl⟩ <;> rfl
  have hk : k = 1 ∨ k = -1 := hi.imp And.right And.right
  rw [hexec]
  refine ⟨fun hf => ?_, fun hm hv => ?_⟩
  · exact ⟨s.withSlot j _, _, stepped_encodeW h1 hf hk _,
      perform_of_ok (stepIndirect_integer (s := s.setOut Outputs.absent) hj hI h1 hf rfl),
      (State.readN_withSlot hj _).trans (Nat.mod_eq_of_lt (encodeW_lt ..)), fun a => State.get_withSlot_outside hj _⟩
  · exact ⟨s.withSlot j _, _, rfl,
      perform_of_ok (stepIndirect_float (s := s.setOut Outputs.absent) hj hI hm hv rfl),
      State.readN_withSlot hj _, fun a => State.get_withSlot_outside hj _⟩

end Sys2Proof.Machine
end

section
/-! SUPPORT. The commands of 43_program_memory.md: a line found through the cache (R232), the checks that fail (R301), and
the whole next state of PRESET, SETLINE and READLINE (R240 to R244). -/

namespace Sys2Proof.Machine

/-- Settles O14: the scan that the cache continues or restarts is the forward scan. -/
theorem resolveReturnsLineAddress : Obligations.ResolveReturnsLineAddress := by
  unfold Obligations.ResolveReturnsLineAddress
  intro s l hp hc h1 hl
  obtain ⟨a, -, -, -, ha, -⟩ := hp.split (n := l - 1) (by omega)
  have hres : s.resolve l = ⟨l, a⟩ := State.resolve_eq hc h1 ha
  rw [hres]
  exact ⟨rfl, ha⟩

/-! ### Checks that fail -/

/-- The capacity check of INSERT (R236). -/
theorem insertLine_full {s : State} {opc : Opcode} (ho : opc.toNat ≤ 0x1FE)
    (hfull : 406 < s.progSize + (if opc.toNat ≤ 0xFE then 2 else 4)) :
    insertLine opc s = .error (.err .progAddr) := by
  have hsize : ¬ s.progSize + storedSize (storedBytes opc) ≤ arenaSize := by
    obtain ⟨sz, hsz, hsize, -⟩ := storedBytes_spec opc ho
    rw [hsize, hsz]
    exact hfull.not_ge
  exact (Attempt.bind_of_ok (x := ()) (require_eq_ok.2 (decide_eq_true ho)) _).trans
    (Attempt.bind_of_error (require_eq_error.2 ⟨decide_eq_false hsize, rfl⟩) _)

/-- The check of DELETE for a current line (R238). -/
theorem deleteLine_no_line {s : State} (h : s.lines = 0 ∨ s.cur = 0) : deleteLine s = .error (.err .progAddr) :=
  Attempt.bind_of_error (require_eq_error.2 ⟨by rcases h with h | h <;> simp [h], rfl⟩) _

/-- Settles O52: each command makes its checks before its first write. -/
theorem programCommandErrors : Obligations.ProgramCommandErrors := by
  unfold Obligations.ProgramCommandErrors
  refine fun s => ⟨?_, fun opc ho hfull => ?_, fun h => ?_, fun n hn => ?_, fun n hn => ?_⟩
  · exact (perform_attempt_error (x := .refuse .reservedEncoding) rfl : execInsert 0x1FF s = _)
  · exact (perform_attempt_error (insertLine_full (s := s.setOut Outputs.absent) ho hfull) : execInsert opc s = _)
  · exact (perform_attempt_error (deleteLine_no_line (s := s.setOut Outputs.absent) h) : execDelete s = _)
  · have hcheck : require (n.toNat ≤ s.lines) (.err .progAddr) = .error (.err .progAddr) :=
      require_eq_error.2 ⟨decide_eq_false hn.not_ge, rfl⟩
    exact (perform_attempt_error (Attempt.bind_of_error hcheck _) : execSetline n s = _)
  · have hcheck : require (1 ≤ n.toNat ∧ n.toNat ≤ s.lines) (.err .progAddr) = .error (.err .progAddr) :=
      require_eq_error.2 ⟨decide_eq_false (by omega), rfl⟩
    exact (perform_attempt_error (Attempt.bind_of_error hcheck _) : execReadline n s = _)

/-! ### PRESET, SETLINE and READLINE -/

/-- The number of the opcode of a line's bytes (R233). -/
theorem toNat_opcodeOfBytes {b0 b1 : Nat} (h0 : b0 < 2 ^ 8) (h1 : b1 < 2 ^ 8) :
    (opcodeOfBytes b0 b1).toNat = if b0 = 0xFF then 0xFF + b1 else b0 := by
  unfold opcodeOfBytes
  split <;> exact Nat.mod_eq_of_lt (by omega)

/-- Settles O53: PRESET zeroes the nybbles below P, and READLINE reads the bytes at its line's address. -/
theorem presetSetlineReadline : Obligations.PresetSetlineReadline := by
  unfold Obligations.PresetSetlineReadline
  intro s hfit
  have hz := Memory.get_zero (m := s.arena) (a := 0) (n := s.progSize) (by rwa [Nat.zero_add])
  refine ⟨⟨s.arena.zero 0 s.progSize, ?_, fun a ha => ?_, fun a ha => ?_⟩, fun n hn => ?_, fun n hp h1 hn => ?_⟩
  · have hcheck : requireArena (s.setOut Outputs.absent).progSize = .ok () := requireArena_ok hfit
    refine (perform_attempt_ok (Attempt.bind_of_ok hcheck _) : execPreset s = _).trans ?_
    cases s
    rfl
  · rw [hz, if_pos (by omega)]
  · rw [hz, if_neg (by omega)]
  · have hcheck : require (n.toNat ≤ s.lines) (.err .progAddr) = .ok () := require_eq_ok.2 (decide_eq_true hn)
    exact (perform_attempt_ok (Attempt.bind_of_ok hcheck _) : execSetline n s = _)
  · have hcheck : require (1 ≤ n.toNat ∧ n.toNat ≤ s.lines) (.err .progAddr) = .ok () :=
      require_eq_ok.2 (decide_eq_true ⟨h1, hn⟩)
    obtain ⟨a, ha, hop⟩ := hp.opcode h1 hn
    refine ⟨a, _, ha, toNat_opcodeOfBytes (s.arena.readN_lt a 2) (s.arena.readN_lt (a + 2) 2), ?_⟩
    exact (perform_attempt_ok ((Attempt.bind_of_ok hcheck _).trans
      (Attempt.bind_of_ok (m := (s.setOut Outputs.absent).opcodeAt n.toNat) hop _)) : execReadline n s = _)

end Sys2Proof.Machine
end

section
/-! SUPPORT. INSERT and DELETE (43_program_memory.md R236, R238, R246): the whole next state of each, and the opcode
of a line that an edit leaves in place or moves. -/

namespace Sys2Proof.Machine

/-! ### A line after an edit -/

theorem lineAddrFrom_le {m : Memory} {n a b : Nat} (h : lineAddrFrom m n a = .ok b) : a ≤ b := by
  induction n generalizing a with
  | zero =>
    cases h
    exact le_rfl
  | succ n ih =>
    obtain ⟨-, -, hrest⟩ := Attempt.bind_eq_ok.1 h
    exact (Nat.le_add_right a _).trans (ih hrest)

/-- A later line lies no lower. -/
theorem lineAddrFrom_mono {m : Memory} {n k a b c : Nat} (hnk : n ≤ k) (hn : lineAddrFrom m n a = .ok b)
    (hk : lineAddrFrom m k a = .ok c) : b ≤ c := by
  rw [← Nat.add_sub_cancel' hnk, lineAddrFrom_add, hn, Attempt.bind_ok] at hk
  exact lineAddrFrom_le hk

/-- A line of a program whose nybbles stand in another arena has its opcode there. -/
theorem State.ProgramOk.opcodeAt_moved {s t : State} (hp : s.ProgramOk) {l l' a a' : Nat} (h1 : 1 ≤ l)
    (hl : l ≤ s.lines) (ha : s.lineAddr l = .ok a) (ha' : t.lineAddr l' = .ok a')
    (hfit : a' + lineWidth s.arena a ≤ arenaSize)
    (hget : ∀ j, j < lineWidth s.arena a → t.arena.get (a' + j) = s.arena.get (a + j)) :
    t.opcodeAt l' = s.opcodeAt l := by
  obtain ⟨hw, hop⟩ := opcodeOfBytes_congr hget
  obtain ⟨b, hb, -, hend⟩ := hp.line h1 hl
  cases ha.symm.trans hb
  rw [State.opcodeAt_of_lineAddr ha' (hw ▸ hfit), hop, State.opcodeAt_of_lineAddr ha (hend.trans hp.size_le)]

/-! ### The state after an edit -/

/-- The state after INSERT or DELETE, with the arena, the counts and the cursor as they say (R236, R238). -/
def State.afterEdit (s : State) (m : Memory) (lines ext cur : Nat) : State :=
  { s with
    arena := m, lines := lines, ext := ext, cur := cur, cache := ⟨1, 0⟩, dirty := true, freeCtr := s.ctrAfterEdit
    out := Outputs.absent }

/-- The fields that INSERT and DELETE write one after the other are those of `afterEdit`. -/
theorem State.afterEdit_eq (s : State) (m : Memory) (lines ext cur : Nat) :
    (((((((s.setOut Outputs.absent).setArena m).setLines lines).setExt ext).setCache LineCache.start).setCur
      cur).setDirty true).setFreeCtr (s.setOut Outputs.absent).ctrAfterEdit = s.afterEdit m lines ext cur := by
  cases s
  rfl

/-! ### INSERT and DELETE -/

/-- Settles O49: the line after the cursor has the opcode's bytes; a line before it keeps its address, and a line after
it has moved up with its nybbles. -/
theorem insertResult : Obligations.InsertResult := by
  unfold Obligations.InsertResult
  rintro s opc sz ⟨-, hp, -, -⟩ ho hsz hfit
  obtain ⟨hpos, hle, hcur⟩ := s.insertPoint_cases
  obtain ⟨c, hc⟩ : ∃ c, s.insertPoint = c + 1 := ⟨s.insertPoint - 1, by omega⟩
  obtain ⟨m, a, ha, (haP : a ≤ s.progSize), hok, -, hlow, hmid, hhigh, hw, hop, -, hbefore, hafter⟩ :=
    insertLine_spec (s := s.setOut Outputs.absent) hp hc ho hsz hfit
  rw [State.afterEdit_eq] at hok
  refine ⟨m, _, a, c + 1, by omega, by omega, by omega, rfl, perform_attempt_ok hok, ha, hlow, hmid, hhigh, ?_,
    fun l h1 hl => ?_, fun l hl hlast => ?_⟩
  · have hnew : (s.afterEdit m (s.lines + 1) (if sz = 4 then s.ext + 1 else s.ext) (c + 1)).lineAddr (c + 1) = .ok a :=
      (hbefore c le_rfl).trans ha
    rw [← hop]
    exact State.opcodeAt_of_lineAddr hnew (hw.symm ▸ (Nat.add_le_add_right haP sz).trans hfit)
  · obtain ⟨b, hb, -, hend⟩ := hp.line h1 (by omega)
    have hba : b + lineWidth s.arena b ≤ a := State.line_before hp h1 (Nat.le_of_lt_succ hl) (by omega) hb ha
    exact hp.opcodeAt_moved h1 (by omega) hb ((hbefore (l - 1) (by omega)).trans hb) (hend.trans hp.size_le)
      fun j hj => hlow (b + j) (by omega)
  · obtain ⟨b, hb, -, hend⟩ := hp.line (by omega) hlast
    have hab : a ≤ b := lineAddrFrom_mono (n := c) (by omega) ha hb
    have hnew := hafter (l - 1) b (by omega) (hlast.trans' (Nat.sub_le l 1)) hb
    rw [Nat.sub_add_cancel (by omega)] at hnew
    refine hp.opcodeAt_moved (by omega) hlast hb hnew (by simp only [arenaSize]; omega) fun j hj => ?_
    rw [Nat.add_right_comm]
    exact hmid (b + j) (by omega) (show b + j < s.progSize by omega)

/-- A line is of 4 nybbles exactly where its first byte is the escape byte (R230). -/
theorem lineWidth_eq_four_iff (m : Memory) (a : Nat) : lineWidth m a = 4 ↔ m.readN a 2 = 0xFF := by
  rcases lineWidth_cases m a with ⟨hb, hw⟩ | ⟨hb, hw⟩
  · simp [hb, hw]
  · simp [hb, hw]

/-- Settles O50: a line before the one that goes keeps its address, and a line after it has moved down with its nybbles;
on line `lines + 1` the last line leaves the counts. -/
theorem deleteResult : Obligations.DeleteResult := by
  unfold Obligations.DeleteResult
  rintro s ⟨-, hp, -, -⟩ hlines hcur
  have hsize := hp.size_le
  refine ⟨fun hne => ?_, fun heq => ?_⟩
  · obtain ⟨hpos, hle, hpt⟩ := s.deletePoint_cases (Nat.ne_of_gt hlines) (Nat.ne_of_gt hcur)
    replace hle := hle hne
    generalize hc : s.deletePoint = c at hpos hle hpt
    obtain ⟨m, a, w, e, ha, hw, -, he, hok, -, hlow, hmid, hzero, hhigh, -, -, hbefore, hafter⟩ :=
      deleteLine_spec (s := s.setOut Outputs.absent) hp (Nat.ne_of_gt hcur) hc hpos hle
    rw [State.afterEdit_eq, he] at hok
    refine ⟨m, _, a, w, c, hpos, hle, fun h => hpt (h.trans (Nat.le_succ _)), ha, hw, rfl,
      perform_attempt_ok hok, hlow, hmid, hzero, hhigh, fun l h1 hl => ?_, fun l hl hlast => ?_⟩
    · have hlast : l ≤ c - 1 := by omega
      have hend : c - 1 ≤ s.lines := (Nat.sub_le _ _).trans hle
      obtain ⟨b, hb, -, hbP⟩ := hp.line h1 (hlast.trans hend)
      have hba : b + lineWidth s.arena b ≤ a := State.line_before hp h1 hlast hend hb ha
      exact hp.opcodeAt_moved h1 (hlast.trans hend) hb ((hbefore (l - 1) (by omega)).trans hb) (hbP.trans hsize)
        fun j hj => hlow (b + j) (by omega)
    · obtain ⟨b, hb, -, hbP⟩ := hp.line (Nat.succ_pos l) hlast
      obtain ⟨(hab : a + w ≤ b), hnew⟩ := hafter l b hl hlast.le hb
      refine hp.opcodeAt_moved (Nat.succ_pos l) hlast hb hnew (by omega) fun j hj => ?_
      rw [show b + j = b - w + j + w by omega]
      exact hmid (b - w + j) (by omega) (show b - w + j + w < s.progSize by omega)
  · obtain ⟨m, w, b, e, hw, hb, he, hok, -, hzero, hkeep, -⟩ :=
      deleteLine_past (s := s.setOut Outputs.absent) hp (Nat.ne_of_gt hlines) heq
    obtain ⟨hw24, hwidth⟩ := (s.setOut Outputs.absent).deleteWidth_cases s.progSize
    simp only [lineWidth_eq_four_iff] at he
    refine ⟨m, w, b, hw ▸ hw24, fun h => hw.trans (hwidth (Nat.add_le_add_right h 2)), hb, ?_, hzero, hkeep⟩
    subst he
    refine (perform_attempt_ok hok : execDelete s = _).trans ?_
    cases s
    rfl

/-- An INSERT grows the program by the size of its line (R33, R234). -/
theorem State.progSize_afterInsert {opc : Opcode} {sz : Nat} (hsz : sz = if opc.toNat ≤ 0xFE then 2 else 4)
    (s : State) (m : Memory) (cur : Nat) (o : Outputs) :
    ((s.afterEdit m (s.lines + 1) (if sz = 4 then s.ext + 1 else s.ext) cur).setOut o).progSize = s.progSize + sz := by
  simp only [progSize, setOut_lines, setOut_ext, afterEdit]
  split at hsz <;> subst hsz
  · rw [if_neg (by decide)]
    omega
  · rw [if_pos rfl]
    omega

/-- DELETE with the cursor on the line that INSERT put in restores the cursor and uses no free value. -/
theorem State.afterEdit_afterEdit {s : State} (h : s.cur ≤ s.lines) (m m' : Memory) (ext : Nat) :
    (s.afterEdit m (s.lines + 1) ext (s.cur + 1)).afterEdit m' s.lines s.ext s.cur =
      { s with arena := m', cache := ⟨1, 0⟩, dirty := true, out := Outputs.absent } := by
  have hfirst : s.ctrAfterEdit = s.freeCtr := ctrAfterEdit_of_le h
  have hsecond : (s.afterEdit m (s.lines + 1) ext (s.cur + 1)).ctrAfterEdit = s.ctrAfterEdit :=
    ctrAfterEdit_of_le (Nat.succ_le_succ h)
  rw [afterEdit, hsecond, hfirst]
  rfl

/-- Settles O51: DELETE takes out the line that INSERT put in, whose width it reads back; the tail moves up and down
again. -/
theorem insertThenDelete : Obligations.InsertThenDelete := by
  unfold Obligations.InsertThenDelete
  rintro s opc sz ⟨⟨⟨-, -, hwf, -⟩, hp, -, -⟩, hcur⟩ ho hsz hfit
  obtain ⟨m, a, ha, (haP : a ≤ s.progSize), hins, hwfm, hlow, hmid, hhigh, hw, -, hp', hbefore, -⟩ :=
    insertLine_spec (s := s.setOut Outputs.absent) (c := s.cur) hp (s.insertPoint_cases.2.2 hcur) ho hsz hfit
  rw [State.afterEdit_eq] at hins
  obtain ⟨m', a', w, e, ha', hw', -, he, hdel, hwfm', hlow', hmid', hzero', hhigh', -⟩ :=
    deleteLine_spec (s := (s.afterEdit m (s.lines + 1) (if sz = 4 then s.ext + 1 else s.ext) (s.cur + 1)).setOut
      Outputs.absent) (c := s.cur + 1) hp' (Nat.succ_ne_zero _) (if_pos (Nat.succ_le_succ (Nat.le_succ_of_le hcur)))
      (Nat.succ_pos _) (Nat.succ_le_succ hcur)
  obtain rfl : a' = a := Except.ok.inj (ha'.symm.trans ((hbefore s.cur le_rfl).trans ha))
  obtain rfl : w = sz := hw'.trans hw
  obtain rfl : e = s.ext := by
    rw [he]
    simp only [State.setOut_ext, State.afterEdit]
    split <;> rfl
  rw [State.progSize_afterInsert hsz] at hmid' hzero' hhigh'
  rw [State.afterEdit_eq] at hdel
  have hprog : ∀ b, b < s.progSize → m'.get b = s.arena.get b := fun b hb => by
    by_cases hba : b < a'
    · exact (hlow' b hba).trans (hlow b hba)
    · exact (hmid' b (by omega) (by omega)).trans (hmid b (by omega) hb)
  have hzero : ∀ b, s.progSize ≤ b → b < s.progSize + w → m'.get b = 0 :=
    fun b hb hb' => hzero' b (Nat.add_le_add_right hb w) hb'
  have habove : ∀ b, s.progSize + w ≤ b → m'.get b = s.arena.get b :=
    fun b hb => (hhigh' b hb).trans (hhigh b hb)
  refine ⟨_, m', perform_attempt_ok hins, ?_, hprog, hzero, habove, fun hfree => ?_⟩
  · exact (perform_attempt_ok hdel).trans (congrArg _ (State.afterEdit_afterEdit hcur m m' _))
  · refine Memory.ext_wf (hwfm' (hwfm hwf)) hwf fun b => ?_
    by_cases hb : b < s.progSize
    · exact hprog b hb
    · by_cases hb' : b < s.progSize + w
      · rw [hzero b (by omega) hb', hfree b (by omega) hb']
      · exact habove b (by omega)

end Sys2Proof.Machine
end

section
/-! SUPPORT. The label scan (44_control_flow.md R266) and the label in I (R265): what each answers, by the first
candidate that carries the label and by the number that I denotes. -/

namespace Sys2Proof.Machine

/-! ### The label scan -/

/-- The model adds `lines` where R266 takes a remainder of `cur + k - 1`, which may be negative. -/
theorem State.candidate_eq_scanLine {s : State} (h : 1 ≤ s.lines) (k : Nat) : s.candidate k = s.scanLine k := by
  have hsum : ((s.cur + k + s.lines - 1 : Nat) : Int) = (s.cur : Int) + k - 1 + s.lines := by omega
  have hmod : (((s.cur + k + s.lines - 1) % s.lines : Nat) : Int) = ((s.cur : Int) + k - 1) % s.lines := by
    rw [Int.natCast_mod, hsum, Int.add_emod_right]
  rw [scanLine, ← hmod, candidate]
  rfl

theorem scanFrom_stops {s : State} {n : Label} {k : Nat} (h : s.LabelAt (s.candidate k) n) (m : Nat) :
    scanFrom s n (m + 1) k = .ok (s.candidate k) := by
  obtain ⟨op, hop, hc⟩ := h
  exact (Attempt.bind_of_ok hop _).trans (if_pos hc)

section
variable {s : State} {n : Label} (hp : s.ProgramOk) (h1 : 1 ≤ s.lines)
include hp h1

/-- The scan passes over a candidate of a sound program that does not carry the label. -/
theorem scanFrom_passes {k : Nat} (h : ¬ s.LabelAt (s.candidate k) n) (m : Nat) :
    scanFrom s n (m + 1) k = scanFrom s n m (k + 1) := by
  obtain ⟨hlo, hhi⟩ := State.candidate_range (s := s) (Nat.one_le_iff_ne_zero.1 h1) k
  obtain ⟨a, -, hop⟩ := hp.opcode hlo hhi
  exact (Attempt.bind_of_ok hop _).trans (if_neg fun hc => h ⟨_, hop, hc⟩)

/-- The scan ends at the first candidate that carries the label. -/
theorem scanFrom_first {m k j : Nat} (hkj : k ≤ j) (hj : j < k + m) (hat : s.LabelAt (s.candidate j) n)
    (hbefore : ∀ i, i < j → ¬ s.LabelAt (s.candidate i) n) : scanFrom s n m k = .ok (s.candidate j) := by
  induction m generalizing k with
  | zero => omega
  | succ m ih =>
    obtain rfl | hlt := Nat.eq_or_lt_of_le hkj
    · exact scanFrom_stops hat m
    · rw [scanFrom_passes hp h1 (hbefore k hlt) m]
      exact ih hlt (by omega)

/-- The scan fails where no line carries the label. -/
theorem scanFrom_noLabel (h : s.NoLabel n) (m k : Nat) : scanFrom s n m k = .error (.err .progAddr) := by
  induction m generalizing k with
  | zero => rfl
  | succ m ih =>
    obtain ⟨hlo, hhi⟩ := State.candidate_range (s := s) (Nat.one_le_iff_ne_zero.1 h1) k
    rw [scanFrom_passes hp h1 (h _ hlo hhi) m, ih]

end

/-- A jump goes to the line that the scan finds (R267). -/
theorem State.jump_found {s : State} {n : Label} {l : Nat} (hp : s.ProgramOk) (h : s.FoundAt n l) :
    s.jump n = .ok ((s.touch l).setCur l) := by
  obtain ⟨h1, k, hk, rfl, hat, hbefore⟩ := h
  simp only [← candidate_eq_scanLine h1] at hat hbefore ⊢
  have hscan : s.scan n = .ok (s.candidate k) :=
    (if_neg (Nat.one_le_iff_ne_zero.1 h1)).trans
      (scanFrom_first hp h1 (Nat.zero_le k) (by omega) hat hbefore)
  exact Attempt.bind_of_ok hscan _

/-- A jump fails where no line carries the label; an empty program has no candidate. -/
theorem State.jump_noLabel {s : State} {n : Label} (hp : s.ProgramOk) (h : s.NoLabel n) :
    s.jump n = .error (.err .progAddr) := by
  have hscan : s.scan n = .error (.err .progAddr) := by
    by_cases h0 : s.lines = 0
    · exact if_pos h0
    · exact (if_neg h0).trans (scanFrom_noLabel hp (Nat.one_le_iff_ne_zero.2 h0) h _ 0)
  exact Attempt.bind_of_error hscan _

/-! ### The label in I -/

/-- Truncation rounds a number that is not negative down. -/
theorem truncRat_of_nonneg {q : Rat} (h : 0 ≤ q) : truncRat q = ⌊q⌋ := by
  rw [truncRat, Int.tdiv_eq_ediv_of_nonneg (Rat.num_nonneg.2 h), Rat.floor_def']

theorem State.labelFromI_of_names {s : State} {n : Label} (h : s.NamesLabel n) : s.labelFromI = .ok n := by
  have hn : (n.toNat : Int) ≤ 15 := by omega
  have hofInt : BitVec.ofInt 4 n.toNat = n := by rw [BitVec.ofInt_natCast, ofNat_toNat_field]
  obtain ⟨⟨hm, hq⟩ | ⟨hm, hok, hq⟩, hnonneg⟩ := h
  · simp [labelFromI, hm, ← hq, hn, hofInt]
  · have h16 : floatValue s.ireg < 16 := by
      rw [truncRat_of_nonneg (hnonneg hm)] at hq
      exact Int.floor_lt.1 (show ⌊floatValue s.ireg⌋ < 16 by omega)
    simp [labelFromI, hm, checkFloat_ok hok, hnonneg hm, h16, ← hq, hofInt]

theorem State.labelFromI_of_namesNone {s : State} (h : s.NamesNoLabel) : s.labelFromI = .error (.err .progAddr) := by
  obtain ⟨hm, hq⟩ | ⟨hm, hok, hq⟩ := h
  · have hrange : ¬ (0 ≤ toIntW s.mode 68 s.ireg.toNat ∧ toIntW s.mode 68 s.ireg.toNat ≤ 15) := by omega
    exact (if_neg hm).trans (Attempt.bind_of_error (require_eq_error.2 ⟨decide_eq_false hrange, rfl⟩) _)
  · have hrange : ¬ (0 ≤ floatValue s.ireg ∧ floatValue s.ireg < 16) := fun ⟨hlo, hhi⟩ =>
      hq.elim hlo.not_gt hhi.not_ge
    exact (if_pos hm).trans ((Attempt.bind_of_ok (checkFloat_ok hok) _).trans
      (Attempt.bind_of_error (require_eq_error.2 ⟨decide_eq_false hrange, rfl⟩) _))

/-! ### The target of a jump -/

section
variable {target : State → Attempt Label} {s : State}

theorem gotoTarget_of_label {n : Label} (h : target s = .ok n) : gotoTarget target s = Ending.of s (s.jump n) :=
  congrArg (Ending.of s) (Attempt.bind_of_ok h _)

theorem gotoTarget_of_error {x : Exit} (h : target s = .error x) : gotoTarget target s = Ending.of s (.error x) :=
  congrArg (Ending.of s) (Attempt.bind_of_error h _)

end

end Sys2Proof.Machine
end

section
/-! SUPPORT. The commands of 44_control_flow.md and the stored lines: the whole next state of each (R260 to R276). -/

namespace Sys2Proof.Machine

/-! ### STEP and the skips -/

/-- Settles O54: STEP increments the cursor, and a skip does so where its condition is false. -/
theorem stepAndSkips : Obligations.StepAndSkips := by
  unfold Obligations.StepAndSkips
  intro s
  have hskip (b : Bool) : perform (fun s => .ok (s.doNextIf b)) s = .next { s with
      cur := if b then s.cur else (s.cur + 1) % (s.lines + 1)
      out := Outputs.absent } :=
    congrArg Host.Outcome.next ((s.setOut Outputs.absent).doNextIf_eq b)
  exact ⟨rfl, hskip, hskip s.c, hskip s.g⟩

/-! ### GOTO -/

/-- A form of GOTO whose label is given or named by I jumps to that label (R265, R267). -/
theorem exec_goto_label {s : State} {i : Instr} {n : Label}
    (hi : i = .goto n ∨ i = .gtoN n ∨ ((i = .gotoI ∨ i = .gtoStoredI) ∧ s.NamesLabel n)) :
    exec i s = (Ending.of (s.setOut Outputs.absent) ((s.setOut Outputs.absent).jump n)).conclude s := by
  obtain rfl | rfl | ⟨hi, hn⟩ := hi
  · rfl
  · rfl
  · have hlabel : (s.setOut Outputs.absent).labelFromI = .ok n := State.labelFromI_of_names hn
    obtain rfl | rfl := hi <;> exact congrArg (Ending.conclude s) (gotoTarget_of_label hlabel)

/-- Settles O55: the scan over the candidates ends at the first that carries the label, or at none. -/
theorem gotoResult : Obligations.GotoResult := by
  unfold Obligations.GotoResult
  refine fun s i hp => ⟨fun n hi => ⟨fun l hl => ?_, fun hnone => ?_⟩, fun hi hnone => ?_⟩
  · rw [exec_goto_label hi, State.jump_found (s := s.setOut Outputs.absent) hp hl]
    rfl
  · rw [exec_goto_label hi, State.jump_noLabel (s := s.setOut Outputs.absent) hp hnone]
    rfl
  · have herr := State.labelFromI_of_namesNone (s := s.setOut Outputs.absent) hnone
    obtain rfl | rfl := hi <;> exact congrArg (Ending.conclude s) (gotoTarget_of_error herr)

/-! ### GOSUB -/

theorem State.pushCall_setOut (s : State) (o : Outputs) : (s.setOut o).pushCall = s.pushCall.setOut o := by
  by_cases h : s.rsp = -1 <;> simp [pushCall, h] <;> rfl

/-- From underflow nothing is recorded (R276). -/
theorem State.pushCall_of_underflow {s : State} (h : s.rsp = -1) : s.pushCall = (s.setRs s.rs).setRsp 0 := if_pos h

theorem State.pushCall_of_level {s : State} (h : s.rsp ≠ -1) :
    s.pushCall = (s.setRs (s.rs.set (s.rsp + 1).toNat s.cur)).setRsp (s.rsp + 1) := if_neg h

theorem State.labelFromI_pushCall (s : State) : s.pushCall.labelFromI = s.labelFromI := by
  obtain ⟨rs, rsp, h⟩ := s.pushCall_frame
  rw [h]
  rfl

theorem exec_gosubI {s : State} {i : Instr} (hi : i = .gosubI ∨ i = .gsbStoredI) :
    exec i s = perform (gosubTarget State.labelFromI) s := by
  obtain rfl | rfl := hi <;> rfl

theorem exec_gosub {s : State} {i : Instr} {n : Label} (hi : i = .gosub n ∨ i = .gsbN n) :
    exec i s = perform (gosubTarget fun _ => .ok n) s := by
  obtain rfl | rfl := hi <;> rfl

/-- Below a full stack, a form of GOSUB whose label is given or named by I pushes and jumps to that label (R268). -/
theorem exec_gosub_label {s : State} {i : Instr} {n : Label} (hroom : s.rsp ≠ s.params.cap - 1)
    (hi : i = .gosub n ∨ i = .gsbN n ∨ ((i = .gosubI ∨ i = .gsbStoredI) ∧ s.NamesLabel n)) :
    exec i s = (Ending.of (s.pushCall.setOut Outputs.absent)
      ((s.pushCall.setOut Outputs.absent).jump n)).conclude s := by
  rw [← State.pushCall_setOut]
  have hpush {target : State → Attempt Label} (ht : target (s.setOut Outputs.absent).pushCall = .ok n) :
      perform (gosubTarget target) s = (Ending.of (s.setOut Outputs.absent).pushCall
        ((s.setOut Outputs.absent).pushCall.jump n)).conclude s :=
    congrArg (Ending.conclude s)
      ((gosubTarget_push (s := s.setOut Outputs.absent) hroom).trans (gotoTarget_of_label ht))
  obtain hi | hi | ⟨hi, hn⟩ := hi
  · exact (exec_gosub (.inl hi)).trans (hpush rfl)
  · exact (exec_gosub (.inr hi)).trans (hpush rfl)
  · exact (exec_gosubI hi).trans (hpush ((State.labelFromI_pushCall _).trans
      (State.labelFromI_of_names (s := s.setOut Outputs.absent) hn)))

/-- Below a full stack, a form of GOSUB whose label is given or named by I goes to the label's line with its push, or
fails with its push (R268). -/
theorem exec_gosub_result {s : State} {i : Instr} {n : Label} {rs : List Nat} {rsp : Int} (hp : s.ProgramOk)
    (hroom : s.rsp ≠ s.params.cap - 1)
    (hi : i = .gosub n ∨ i = .gsbN n ∨ ((i = .gosubI ∨ i = .gsbStoredI) ∧ s.NamesLabel n))
    (hpush : s.pushCall = (s.setRs rs).setRsp rsp) :
    (∀ l, s.FoundAt n l → exec i s = .next { s with
      rsp := rsp, rs := rs, cur := l, cache := s.resolve l, out := Outputs.absent }) ∧
    (s.NoLabel n → exec i s = .next { s with
      rsp := rsp, rs := rs, out := { Outputs.absent with err := some .progAddr } }) := by
  rw [exec_gosub_label hroom hi, hpush]
  constructor
  · intro l hl
    rw [State.jump_found (s := ((s.setRs rs).setRsp rsp).setOut Outputs.absent) hp hl]
    rfl
  · intro hnone
    rw [State.jump_noLabel (s := ((s.setRs rs).setRsp rsp).setOut Outputs.absent) hp hnone]
    rfl

/-- On a full stack GOSUB reads no label (R268, R306). -/
theorem perform_gosubTarget_full {s : State} (target : State → Attempt Label) (hfull : s.rsp = s.params.cap - 1) :
    perform (gosubTarget target) s =
      .next { s with out := { Outputs.absent with err := some .stackOverflow } } :=
  perform_of_err (k := s.setOut Outputs.absent) (gosubTarget_full hfull)

/-- Settles O56: the stack is checked first; then the push, by the level; then the jump from the pushed state. -/
theorem gosubResult : Obligations.GosubResult := by
  unfold Obligations.GosubResult
  refine fun s i => ⟨fun hi hfull => ?_, fun n hp ⟨hcap, hlen, hlo, hhi⟩ hi =>
    ⟨fun hunder => ?_, fun hlevel hroom => ?_⟩⟩
  · obtain rfl | rfl | ⟨n, rfl | rfl⟩ := hi <;> exact perform_gosubTarget_full _ hfull
  · exact exec_gosub_result hp (by omega) hi (State.pushCall_of_underflow hunder)
  · refine ⟨s.rs.set (s.rsp + 1).toNat s.cur, List.length_set, List.getElem?_set_self (by omega),
      fun k hk => List.getElem?_set_ne hk.symm, ?_⟩
    exact exec_gosub_result hp (by omega) hi (State.pushCall_of_level (by omega))

/-- Settles O57: the label is read from I after the push, which an error keeps and a refusal does not. -/
theorem indirectCallErrors : Obligations.IndirectCallErrors := by
  unfold Obligations.IndirectCallErrors
  intro s i hi hroom
  have hfails {x : Exit} (hx : s.labelFromI = .error x) :
      exec i s = (Ending.of (s.pushCall.setOut Outputs.absent) (.error x)).conclude s := by
    rw [exec_gosubI hi, ← State.pushCall_setOut]
    exact congrArg (Ending.conclude s) ((gosubTarget_push (s := s.setOut Outputs.absent) hroom).trans
      (gotoTarget_of_error ((State.labelFromI_pushCall _).trans hx)))
  exact ⟨fun hnone => hfails (State.labelFromI_of_namesNone hnone),
    fun hm hbad => hfails (State.labelFromI_error hm (checkFloat_bad hbad)),
    fun hm hmat => hfails (State.labelFromI_error hm (checkFloat_matrix hmat))⟩

/-! ### RTN and RUN -/

theorem returnCall_pops {s : State} {l : Nat} (h : 0 < s.rsp) (hl : s.rs[s.rsp.toNat]? = some l) :
    returnCall s = .ok ((s.setCur l).setRsp (s.rsp - 1)) := by
  rw [returnCall, if_pos h, List.getD_eq_getElem?_getD, hl, Option.getD_some]

theorem returnCall_halts {s : State} (h : s.rsp ≤ 0) :
    returnCall s = .ok (((s.setCur 0).setRsp (-1)).setOut { Outputs.absent with halt := some true }) :=
  if_neg h.not_gt

/-- RUN writes the return-stack pointer and nothing else. -/
theorem State.leaveUnderflow_eq (s : State) :
    (if s.rsp = -1 then s.setRsp 0 else s) = s.setRsp (if s.rsp = -1 then 0 else s.rsp) := by
  split <;> rfl

/-- Settles O58: RTN pops above level 0 and halts elsewhere; RUN leaves underflow. -/
theorem rtnRunResult : Obligations.RtnRunResult := by
  unfold Obligations.RtnRunResult
  refine fun s _ => ⟨fun i hi => ⟨fun l hpos hl => ?_, fun hle => ?_⟩, ?_⟩
  · have hret := perform_of_ok (returnCall_pops (s := s.setOut Outputs.absent) hpos hl)
    obtain rfl | rfl := hi <;> exact hret
  · have hret := perform_of_ok (returnCall_halts (s := s.setOut Outputs.absent) hle)
    obtain rfl | rfl := hi <;> exact hret
  · exact congrArg Host.Outcome.next (State.leaveUnderflow_eq (s.setOut Outputs.absent))

/-! ### RUNSTEP -/

/-- The opcode of a line is one that bytes store (30_encoding.md R75). -/
theorem State.ProgramOk.opcode_le {s : State} (hp : s.ProgramOk) {l : Nat} {op : Opcode} (h1 : 1 ≤ l)
    (hl : l ≤ s.lines) (hop : s.opcodeAt l = .ok op) : op.toNat ≤ 0x1FE := by
  obtain ⟨a, -, hop'⟩ := hp.opcode h1 hl
  have hb0 := s.arena.readN_lt a 2
  have hb1 := s.arena.readN_lt (a + 2) 2
  rw [← Except.ok.inj (hop'.symm.trans hop), toNat_opcodeOfBytes hb0 hb1]
  split <;> omega

theorem runLine_label {s : State} {op : Opcode} {n : Label} (hc : s.params.classOf op = .label n) :
    runLine op s = .ok s := by
  rw [runLine, hc]
  rfl

/-- An Other line, in either stored form, dispatches its opcode (R272, R274). -/
theorem runLine_other {s : State} {op : Opcode} (hle : op.toNat ≤ 0x1FE) (hc : s.params.classOf op = .other) :
    runLine op s = dispatchOpcode op s := by
  simp only [runLine, hc]
  split
  · rw [lineOpPM1, toNat_ofNat_field (by omega), ofNat_toNat_field]
  · rw [lineOpPM2, toNat_ofNat_field (by omega), Nat.add_sub_cancel' (by omega), ofNat_toNat_field]

/-- RUNSTEP on a line that ends well leaves what the line leaves. -/
theorem exec_runstep_ok {s t : State} {op : Opcode} (hz : s.inc s.cur ≠ 0) (hop : s.opcodeAt (s.inc s.cur) = .ok op)
    (h : runLine op (((s.setOut Outputs.absent).setCur (s.inc s.cur)).touch (s.inc s.cur)) = .ok t) :
    exec .runstep s = .next t := by
  have hrun := runStep_line (s := s.setOut Outputs.absent) hz hop
  exact perform_of_ok (hrun.trans (congrArg (Ending.restoreCache s.cache) h))

/-- Settles O59: RUNSTEP returns at the phantom line, and runs the line at the incremented cursor elsewhere. -/
theorem runstepResult : Obligations.RunstepResult := by
  unfold Obligations.RunstepResult
  refine fun s hp _ => ⟨fun hz => ⟨fun l hpos hl => ?_, fun hle => ?_⟩, ?_, fun n => rfl, fun o => rfl, fun o => rfl⟩
  · exact perform_of_ok ((runStep_phantom (s := s.setOut Outputs.absent) hz).trans (returnCall_pops hpos hl))
  · exact perform_of_ok ((runStep_phantom (s := s.setOut Outputs.absent) hz).trans (returnCall_halts hle))
  · rintro l op rfl hz hop
    have hle := hp.opcode_le (Nat.one_le_iff_ne_zero.2 hz) (s.inc_le s.cur) hop
    exact ⟨fun n hc => exec_runstep_ok hz hop (runLine_label hc),
      fun hc => exec_runstep_ok hz hop (runLine_other hle hc)⟩

end Sys2Proof.Machine
end

section
/-! SUPPORT. How a command ends and what of it stays: no error and no refusal reported, an error with what a failing
command keeps, or a refusal with the state the command found (60_exceptions.md R300 to R303). -/

namespace Sys2Proof.Machine

/-- The outputs report neither an error nor a refusal. -/
def State.Silent (t : State) : Prop := t.out.err = none ∧ t.out.refused = none

/-- What instruction `i`, failing, can keep of its writes from state `s` (R302). -/
inductive Kept (s : State) : Instr → State → Prop
  | nothing (i : Instr) : Kept s i s
  | push {i : Instr} : (i = .gosubI ∨ i = .gsbStoredI ∨ ∃ n, i = .gosub n ∨ i = .gsbN n) → Kept s i s.pushCall
  | increment : Kept s .runstep (s.setCur (s.inc s.cur))
  | incrementAndPush : Kept s .runstep (s.setCur (s.inc s.cur)).pushCall

/-- How instruction `i` ends, from state `s` with the outputs of the command before it gone, in the next state `t`. -/
inductive EndsIn (i : Instr) (s t : State) : Prop
  | done : t.Silent → EndsIn i s t
  | error (c : ErrCode) (k : State) : Kept s i k → t = k.reportError c → EndsIn i s t
  | refusal (r : RefuseReason) : t = s.reportRefusal r → EndsIn i s t

/-! ### The ends of a performed effect -/

theorem perform_endsIn {f : State → Ending} {i : Instr} {s t : State} (h : perform f s = .next t)
    (hok : ∀ u, f (s.setOut Outputs.absent) = .ok u → u.Silent)
    (herr : ∀ c k, f (s.setOut Outputs.absent) = .err c k → Kept (s.setOut Outputs.absent) i k) :
    EndsIn i (s.setOut Outputs.absent) t := by
  rcases perform_next h with hf | ⟨c, k, hf, rfl⟩ | ⟨r, -, rfl⟩
  · exact .done (hok t hf)
  · exact .error c k (herr c k hf) rfl
  · exact .refusal r rfl

/-- A command whose checks come before its writes keeps nothing where it fails. -/
theorem perform_checked_endsIn {a : State → Attempt State} {i : Instr} {s t : State}
    (h : perform (fun s => Ending.of s (a s)) s = .next t)
    (hok : ∀ u, Ending.of (s.setOut Outputs.absent) (a (s.setOut Outputs.absent)) = .ok u → u.Silent) :
    EndsIn i (s.setOut Outputs.absent) t :=
  perform_endsIn h hok fun _ _ hu => (Ending.of_eq_err.1 hu).2 ▸ .nothing i

/-- Such a command, where whatever its computation answers reports nothing. -/
theorem perform_attempt_endsIn {a : State → Attempt State} {i : Instr} {s t : State}
    (h : perform (fun s => Ending.of s (a s)) s = .next t)
    (hok : Attempt.Ensures (a (s.setOut Outputs.absent)) State.Silent) : EndsIn i (s.setOut Outputs.absent) t :=
  perform_checked_endsIn h fun u hu => hok u (Ending.of_eq_ok.1 hu)

/-- A command without a check does not fail. -/
theorem perform_ok_endsIn {f : State → State} {i : Instr} {s t : State} (h : perform (fun s => .ok (f s)) s = .next t)
    (hok : (f (s.setOut Outputs.absent)).Silent) : EndsIn i (s.setOut Outputs.absent) t :=
  perform_endsIn h (fun _ hu => by cases hu; exact hok) fun _ _ hu => by cases hu

/-! ### The shared operations -/

/-- A stored line leaves the outputs, or answers with HALT or with OPC and DISPATCH. -/
theorem LineEffect.silent {s u : State} (h : LineEffect s u) (hs : s.Silent) : u.Silent := by
  obtain ⟨k, c, rs, rsp, o, rfl, rfl | ho⟩ := h.frame
  · exact hs
  · exact ho

theorem State.Silent.doNextIf {s : State} (hs : s.Silent) (b : Bool) : (s.doNextIf b).Silent := by
  rw [State.doNextIf_eq]
  exact hs

theorem readRegister_silent (s : State) (r : Option Nat) : Attempt.Ensures (readRegister s r) State.Silent :=
  fun u h => by
    obtain ⟨v, rfl⟩ := readRegister_inv h
    exact ⟨rfl, rfl⟩

theorem writeRegister_silent {s : State} (hs : s.Silent) (r : Option Nat) :
    Attempt.Ensures (writeRegister s r) State.Silent := fun u h => by
  obtain ⟨n, v, -, rfl⟩ := writeRegister_inv h
  exact hs

section
variable {i : Instr} {s t : State}

theorem returnCall_endsIn (h : perform returnCall s = .next t) : EndsIn i (s.setOut Outputs.absent) t :=
  perform_endsIn h (fun _ hu => (returnCall_inv hu).silent ⟨rfl, rfl⟩)
    fun c k hu => by
      obtain ⟨u, hok⟩ := returnCall_cases (s.setOut Outputs.absent)
      cases hok.symm.trans hu

theorem gotoTarget_endsIn {target : State → Attempt Label} (h : perform (gotoTarget target) s = .next t) :
    EndsIn i (s.setOut Outputs.absent) t :=
  perform_checked_endsIn h fun u hu => by
    obtain ⟨l, -, -, rfl⟩ := gotoTarget_ok (target := target) hu
    exact ⟨rfl, rfl⟩

theorem gosubTarget_endsIn {target : State → Attempt Label}
    (hi : i = .gosubI ∨ i = .gsbStoredI ∨ ∃ n, i = .gosub n ∨ i = .gsbN n)
    (h : perform (gosubTarget target) s = .next t) : EndsIn i (s.setOut Outputs.absent) t :=
  perform_endsIn h
    (fun u hu => by
      obtain ⟨hroom, l, h1, h2, rfl⟩ := gosubTarget_ok hu
      exact (LineEffect.call l hroom h1 h2).silent ⟨rfl, rfl⟩)
    fun c k hu => by
      rcases gosubTarget_err hu with rfl | ⟨-, rfl⟩
      · exact .nothing i
      · exact .push hi

theorem runStep_endsIn (h : perform runStep s = .next t) : EndsIn .runstep (s.setOut Outputs.absent) t :=
  perform_endsIn h
    (fun u hu => by
      rcases runStep_inv hu with hu | ⟨-, hu⟩
      · exact hu.silent ⟨rfl, rfl⟩
      · exact hu.silent ⟨rfl, rfl⟩)
    fun c k hu => by
      rcases runStep_err hu with rfl | ⟨-, rfl⟩
      · exact .increment
      · exact .incrementAndPush

end

/-! ### Every instruction -/

/-- Every instruction ends in one of the three ways. -/
theorem exec_endsIn {i : Instr} {s t : State} (h : exec i s = .next t) : EndsIn i (s.setOut Outputs.absent) t := by
  cases i with dsimp only [exec] at h
  | add | sub | store | toint | fdec | fexp | fchk | preset | setline _ =>
    exact perform_attempt_endsIn h (.bind fun _ _ => .ok ⟨rfl, rfl⟩)
  | setws _ | readline _ => exact perform_attempt_endsIn h (.bind fun _ _ => .bind fun _ _ => .ok ⟨rfl, rfl⟩)
  | neg | isz => exact perform_attempt_endsIn h (.ite (.bind fun _ _ => .ok ⟨rfl, rfl⟩) (.ok ⟨rfl, rfl⟩))
  | cmp =>
    exact perform_attempt_endsIn h (.ite (.bind fun _ _ => .bind fun _ _ => .ok ⟨rfl, rfl⟩) (.ok ⟨rfl, rfl⟩))
  | inc | dec =>
    refine perform_checked_endsIn h fun u hu => ?_
    obtain ⟨v, rfl⟩ := stepX_inv hu
    exact ⟨rfl, rfl⟩
  | trunc | fenc | ri | wi | clrreg | step | lblN _ | opPM1 _ | opPM2 _ => exact perform_ok_endsIn h ⟨rfl, rfl⟩
  | setmode m =>
    refine perform_ok_endsIn h ?_
    split <;> exact ⟨rfl, rfl⟩
  | wflag f v => cases f <;> exact perform_ok_endsIn h ⟨rfl, rfl⟩
  | skipflag f => exact perform_ok_endsIn h (State.Silent.doNextIf ⟨rfl, rfl⟩ _)
  | skipif b => exact perform_ok_endsIn h (State.Silent.doNextIf ⟨rfl, rfl⟩ b)
  | run =>
    refine perform_ok_endsIn h ?_
    split <;> exact ⟨rfl, rfl⟩
  | rreg idx => exact perform_attempt_endsIn h (readRegister_silent _ _)
  | rregI => exact perform_attempt_endsIn h (.bind fun _ _ => readRegister_silent _ _)
  | wreg idx => exact perform_attempt_endsIn h (writeRegister_silent ⟨rfl, rfl⟩ _)
  | wregI => exact perform_attempt_endsIn h (.bind fun _ _ => writeRegister_silent ⟨rfl, rfl⟩ _)
  | iszi | dszi =>
    refine perform_checked_endsIn h fun u hu => ?_
    obtain ⟨v, c, rfl, -⟩ := stepIndex_inv hu
    exact ⟨rfl, rfl⟩
  | iszind | dszind =>
    refine perform_checked_endsIn h fun u hu => ?_
    obtain ⟨n, v, c, -, rfl, -⟩ := stepIndirect_inv hu
    exact ⟨rfl, rfl⟩
  | insert opc =>
    refine perform_attempt_endsIn h fun u hu => ?_
    obtain ⟨m, l, e, k, c, n, rfl⟩ := insertLine_frame hu
    exact ⟨rfl, rfl⟩
  | delete =>
    refine perform_attempt_endsIn h fun u hu => ?_
    obtain ⟨m, l, e, k, c, n, rfl⟩ := deleteLine_frame hu
    exact ⟨rfl, rfl⟩
  | goto _ | gotoI | gtoN _ | gtoStoredI => exact gotoTarget_endsIn h
  | gosub n | gsbN n | gosubI | gsbStoredI => exact gosubTarget_endsIn (by simp) h
  | rtn | rtnStored => exact returnCall_endsIn h
  | runstep => exact runStep_endsIn h

/-- What a failing call reports does not depend on the outputs it found. -/
theorem State.reportError_pushCall_setOut (s : State) (o : Outputs) (c : ErrCode) :
    (s.setOut o).pushCall.reportError c = s.pushCall.reportError c := by
  rw [State.pushCall_setOut]
  rfl

/-- Settles O16: of the ends of a command only the refusal sets REFUSED, and it reports on the state the command
found. -/
theorem refusedCommandsChangeNothing : Obligations.RefusedCommandsChangeNothing := by
  unfold Obligations.RefusedCommandsChangeNothing
  intro i s t r h href
  cases exec_endsIn h with
  | done hsilent => cases hsilent.2.symm.trans href
  | error c k _ ht => subst ht; cases href
  | refusal r' ht => subst ht; cases href; rfl

/-- Settles O17: of the ends of a command only the error sets ERR, and what it keeps is one of `Kept`. -/
theorem failingCommandsKeepNothing : Obligations.FailingCommandsKeepNothing := by
  unfold Obligations.FailingCommandsKeepNothing
  intro i s t e h herr
  cases exec_endsIn h with
  | done hsilent => cases hsilent.1.symm.trans herr
  | refusal r ht => subst ht; cases herr
  | error c k hk ht =>
    subst ht
    cases herr
    cases hk with
    | nothing => exact .inl rfl
    | push hi => exact .inr (.inl ⟨hi, s.reportError_pushCall_setOut _ e⟩)
    | increment => exact .inr (.inr ⟨rfl, .inl rfl⟩)
    | incrementAndPush =>
      exact .inr (.inr ⟨rfl, .inr ((s.setCur (s.inc s.cur)).reportError_pushCall_setOut Outputs.absent e)⟩)

end Sys2Proof.Machine
end

section
/-! SUPPORT. Noninterference (60_exceptions.md R305): a command on a state with STOPREQ set to any value does what it
does on that state, with the port so set. -/

namespace Sys2Proof.Machine

/-- The input STOPREQ set to `b`. -/
def State.setStop (b : Bool) (s : State) : State := s.setInp { s.inp with stopReq := b }

/-! ### Computations -/

/-- The computation `a'` answers what `a` does, with STOPREQ set. -/
def Attempt.Follows (b : Bool) (a' a : Attempt State) : Prop := a' = a.map (State.setStop b)

section
variable {b : Bool}

theorem Attempt.Follows.ok {t' t : State} (h : t' = t.setStop b) : Attempt.Follows b (.ok t') (.ok t) :=
  congrArg Except.ok h

theorem Attempt.Follows.bind {α : Type} {m : Attempt α} {f' f : α → Attempt State}
    (h : ∀ x, Attempt.Follows b (f' x) (f x)) : Attempt.Follows b (m >>= f') (m >>= f) := by
  cases m with
  | ok x => exact h x
  | error e => rfl

/-- A sequence whose first part answers a state. -/
theorem Attempt.Follows.andThen {a' a : Attempt State} {f' f : State → Attempt State} (ha : Attempt.Follows b a' a)
    (h : ∀ t, Attempt.Follows b (f' (t.setStop b)) (f t)) : Attempt.Follows b (a' >>= f') (a >>= f) := by
  obtain rfl : a' = a.map (State.setStop b) := ha
  cases a with
  | ok t => exact h t
  | error e => rfl

theorem Attempt.Follows.ite {p : Prop} [Decidable p] {a' a c' c : Attempt State} (ha : Attempt.Follows b a' a)
    (hc : Attempt.Follows b c' c) : Attempt.Follows b (if p then a' else c') (if p then a else c) := by
  split
  · exact ha
  · exact hc

end

/-! ### Ends and outcomes -/

/-- The end of a command, with STOPREQ set. -/
def Ending.setStop (b : Bool) : Ending → Ending
  | .ok t => .ok (t.setStop b)
  | .err c t => .err c (t.setStop b)
  | .refuse r => .refuse r
  | .fault f => .fault f

theorem Ending.setStop_restoreCache (b : Bool) (k : LineCache) (e : Ending) :
    (e.setStop b).restoreCache k = (e.restoreCache k).setStop b := by
  cases e <;> rfl

/-- The outcome of a command, with STOPREQ set. -/
def stopOutcome (b : Bool) : Host.Outcome State Fault Refusal → Host.Outcome State Fault Refusal
  | .next t => .next (t.setStop b)
  | .fault f => .fault f
  | .refused r => .refused r

/-- An effect that does not read STOPREQ. -/
def StopBlind (f : State → Ending) : Prop := ∀ b s, f (s.setStop b) = (f s).setStop b

/-- A command whose checks come before its writes. -/
theorem StopBlind.of {a : State → Attempt State} (h : ∀ b s, Attempt.Follows b (a (s.setStop b)) (a s)) :
    StopBlind fun s => Ending.of s (a s) := fun b s => by
  have ha : a (s.setStop b) = (a s).map (State.setStop b) := h b s
  simp only [ha]
  cases a s with
  | ok t => rfl
  | error e => cases e <;> rfl

/-- A command without a check. -/
theorem StopBlind.ok {f : State → State} (h : ∀ b s, f (s.setStop b) = (f s).setStop b) :
    StopBlind fun s => .ok (f s) := fun b s => congrArg Ending.ok (h b s)

/-- How a command is reported does not depend on STOPREQ. -/
theorem StopBlind.perform {f : State → Ending} {b : Bool} {s : State} (hf : StopBlind f) :
    perform f (s.setStop b) = stopOutcome b (perform f s) := by
  have h : f ((s.setStop b).setOut Outputs.absent) = (f (s.setOut Outputs.absent)).setStop b :=
    hf b (s.setOut Outputs.absent)
  rw [Machine.perform, Machine.perform, h]
  cases f (s.setOut Outputs.absent) <;> rfl

/-! ### The shared operations -/

theorem State.doNextIf_setStop (s : State) (b c : Bool) : (s.setStop b).doNextIf c = (s.doNextIf c).setStop b := by
  cases c <;> rfl

theorem slotWrite_follows (b : Bool) (s : State) (i v : Nat) :
    Attempt.Follows b ((s.setStop b).slotWrite i v) (s.slotWrite i v) := .bind fun _ => .ok rfl

theorem readRegister_follows (b : Bool) (s : State) (i : Option Nat) :
    Attempt.Follows b (readRegister (s.setStop b) i) (readRegister s i) :=
  .bind fun _ => .bind fun _ => .ite (.bind fun _ => .ok rfl) (.ok rfl)

theorem writeRegister_follows (b : Bool) (s : State) (i : Option Nat) :
    Attempt.Follows b (writeRegister (s.setStop b) i) (writeRegister s i) :=
  .bind fun i => .andThen (slotWrite_follows b s i s.xWord) fun _ => .ok rfl

theorem stepX_stopBlind (k : Int) : StopBlind (stepX k) := .of fun _ _ => .ite (.bind fun _ => .ok rfl) (.ok rfl)

theorem stepIndex_stopBlind (k : Int) : StopBlind (stepIndex k) := .of fun b s =>
  .ite (.bind fun _ => .ok (((s.setIreg _).setDirty true).doNextIf_setStop b _))
    (.ok (((s.setIreg _).setDirty true).doNextIf_setStop b _))

theorem stepIndirect_stopBlind (k : Int) : StopBlind (stepIndirect k) := .of fun b s =>
  .bind fun _ => .bind fun i => .bind fun _ =>
    .ite (.bind fun _ => .andThen (slotWrite_follows b s i _) fun t => .ok ((t.setDirty true).doNextIf_setStop b _))
      (.andThen (slotWrite_follows b s i _) fun t => .ok ((t.setDirty true).doNextIf_setStop b _))

theorem insertAt_follows (b : Bool) (s : State) (a : Nat) (bs : List Byte) :
    Attempt.Follows b (insertAt (s.setStop b) a bs) (insertAt s a bs) := .bind fun _ => .ok rfl

theorem insertLine_follows (opc : Opcode) (b : Bool) (s : State) :
    Attempt.Follows b (insertLine opc (s.setStop b)) (insertLine opc s) :=
  .bind fun _ => .bind fun _ => .bind fun a => .andThen (insertAt_follows b s a _) fun _ => .ok rfl

theorem deleteLine_follows (b : Bool) (s : State) :
    Attempt.Follows b (deleteLine (s.setStop b)) (deleteLine s) :=
  .bind fun _ => .bind fun _ => .bind fun _ => .bind fun _ => .ok rfl

/-- The label scan reads the lines and the opcode map (R266). -/
theorem scanFrom_setStop (b : Bool) (s : State) (lbl : Label) (n k : Nat) :
    scanFrom (s.setStop b) lbl n k = scanFrom s lbl n k := by
  induction n generalizing k with
  | zero => rfl
  | succ n ih =>
    simp only [scanFrom, ih]
    rfl

theorem State.scan_setStop (b : Bool) (s : State) (lbl : Label) : (s.setStop b).scan lbl = s.scan lbl := by
  simp only [State.scan, scanFrom_setStop]
  rfl

theorem State.jump_follows (b : Bool) (s : State) (lbl : Label) :
    Attempt.Follows b ((s.setStop b).jump lbl) (s.jump lbl) := by
  simp only [State.jump, State.scan_setStop]
  exact .bind fun _ => .ok rfl

theorem gotoTarget_stopBlind {target : State → Attempt Label} (h : ∀ b s, target (s.setStop b) = target s) :
    StopBlind (gotoTarget target) := .of fun b s => by
  simp only [h]
  exact .bind (s.jump_follows b)

theorem State.pushCall_setStop (b : Bool) (s : State) : (s.setStop b).pushCall = s.pushCall.setStop b := by
  rw [State.pushCall, State.pushCall, apply_ite (State.setStop b)]
  rfl

theorem gosubTarget_stopBlind {target : State → Attempt Label} (h : ∀ b s, target (s.setStop b) = target s) :
    StopBlind (gosubTarget target) := fun b s => by
  by_cases hf : s.rsp = s.params.cap - 1
  · rw [gosubTarget_full hf, gosubTarget_full (s := s.setStop b) hf]
    rfl
  · rw [gosubTarget_push hf, gosubTarget_push (s := s.setStop b) hf, State.pushCall_setStop]
    exact gotoTarget_stopBlind h b s.pushCall

theorem returnCall_stopBlind : StopBlind returnCall := fun b s => by
  rw [returnCall, returnCall, apply_ite (Ending.setStop b)]
  rfl

theorem State.labelFromI_setStop (b : Bool) (s : State) : (s.setStop b).labelFromI = s.labelFromI := rfl

theorem runLine_stopBlind (op : Opcode) : StopBlind (runLine op) := fun b s => by
  have hparams : (s.setStop b).params = s.params := rfl
  simp only [runLine, hparams]
  split
  · rfl
  · exact gotoTarget_stopBlind (fun _ _ => rfl) b s
  · exact gosubTarget_stopBlind (fun _ _ => rfl) b s
  · exact gotoTarget_stopBlind State.labelFromI_setStop b s
  · exact gosubTarget_stopBlind State.labelFromI_setStop b s
  · exact returnCall_stopBlind b s
  · split <;> rfl

theorem runStep_stopBlind : StopBlind runStep := fun b s => by
  by_cases h : s.inc s.cur = 0
  · rw [runStep_phantom h, runStep_phantom (s := s.setStop b) h]
    exact returnCall_stopBlind b (s.setCur (s.inc s.cur))
  · cases ho : s.opcodeAt (s.inc s.cur) with
    | error e =>
      rw [runStep_fault h ho, runStep_fault (s := s.setStop b) h ho]
      cases e <;> rfl
    | ok op =>
      rw [runStep_line h ho, runStep_line (s := s.setStop b) h ho, ← Ending.setStop_restoreCache,
        ← runLine_stopBlind]
      rfl

/-! ### Every instruction -/

/-- No instruction's outcome depends on STOPREQ, but for the port. -/
theorem exec_setStop (i : Instr) (b : Bool) (s : State) : exec i (s.setStop b) = stopOutcome b (exec i s) := by
  cases i with dsimp only [exec]
  | add | sub | store | toint | fdec | fexp | fchk | preset | setline _ =>
    exact StopBlind.perform (.of fun _ _ => .bind fun _ => .ok rfl)
  | setws _ | readline _ => exact StopBlind.perform (.of fun _ _ => .bind fun _ => .bind fun _ => .ok rfl)
  | neg | isz => exact StopBlind.perform (.of fun _ _ => .ite (.bind fun _ => .ok rfl) (.ok rfl))
  | cmp => exact StopBlind.perform (.of fun _ _ => .ite (.bind fun _ => .bind fun _ => .ok rfl) (.ok rfl))
  | inc => exact (stepX_stopBlind 1).perform
  | dec => exact (stepX_stopBlind (-1)).perform
  | trunc | fenc | ri | wi | clrreg | step | lblN _ | opPM1 _ | opPM2 _ =>
    exact StopBlind.perform (.ok fun _ _ => rfl)
  | setmode m => exact StopBlind.perform (.ok fun b s => by split <;> rfl)
  | wflag f _ => cases f <;> exact StopBlind.perform (.ok fun _ _ => rfl)
  | skipflag f => cases f <;> exact StopBlind.perform (.ok fun b s => s.doNextIf_setStop b _)
  | skipif c => exact StopBlind.perform (.ok fun b s => s.doNextIf_setStop b c)
  | run =>
    refine StopBlind.perform (.ok fun b s => ?_)
    rw [apply_ite (State.setStop b)]
    rfl
  | rreg _ => exact StopBlind.perform (.of fun b s => readRegister_follows b s _)
  | rregI => exact StopBlind.perform (.of fun b s => .bind fun i => readRegister_follows b s i)
  | wreg _ => exact StopBlind.perform (.of fun b s => writeRegister_follows b s _)
  | wregI => exact StopBlind.perform (.of fun b s => .bind fun i => writeRegister_follows b s i)
  | iszi => exact (stepIndex_stopBlind 1).perform
  | dszi => exact (stepIndex_stopBlind (-1)).perform
  | iszind => exact (stepIndirect_stopBlind 1).perform
  | dszind => exact (stepIndirect_stopBlind (-1)).perform
  | insert opc => exact StopBlind.perform (.of (insertLine_follows opc))
  | delete => exact StopBlind.perform (.of deleteLine_follows)
  | goto _ | gtoN _ => exact (gotoTarget_stopBlind fun _ _ => rfl).perform
  | gotoI | gtoStoredI => exact (gotoTarget_stopBlind State.labelFromI_setStop).perform
  | gosub _ | gsbN _ => exact (gosubTarget_stopBlind fun _ _ => rfl).perform
  | gosubI | gsbStoredI => exact (gosubTarget_stopBlind State.labelFromI_setStop).perform
  | rtn | rtnStored => exact returnCall_stopBlind.perform
  | runstep => exact runStep_stopBlind.perform

/-- Settles O7: a command's outcome with STOPREQ set is its outcome, with STOPREQ set in the next state. -/
theorem stopRequestIsUnread : Obligations.StopRequestIsUnread := by
  unfold Obligations.StopRequestIsUnread
  intro i s b
  have hstop : exec i { s with inp := { s.inp with stopReq := b } } = stopOutcome b (exec i s) := exec_setStop i b s
  exact ⟨fun t h => by rw [hstop, h]; rfl, fun f h => by rw [hstop, h]; rfl⟩

end Sys2Proof.Machine
end

section
/-! SUPPORT. That no command faults where the stored program is sound (20_memory.md R50, 60_exceptions.md R308): which
computations end without a fault, and that every effect of an instruction does. And the state after reset
(70_reset_and_hazards.md R330, R332). -/

namespace Sys2Proof.Machine

/-! ### Computations without a fault -/

/-- The computation does not end in a fault. -/
def Attempt.FaultFree {α : Type} (a : Attempt α) : Prop := ∀ f, a ≠ .error (.fault f)

theorem Attempt.FaultFree.ok {α : Type} (x : α) : Attempt.FaultFree (.ok x) := nofun

theorem Attempt.FaultFree.err {α : Type} (c : ErrCode) : Attempt.FaultFree (.error (.err c) : Attempt α) := nofun

theorem Attempt.FaultFree.bind {α β : Type} {m : Attempt α} {f : α → Attempt β} (hm : m.FaultFree)
    (h : ∀ x, m = .ok x → Attempt.FaultFree (f x)) : Attempt.FaultFree (m >>= f) := fun x hx => by
  rcases Attempt.bind_eq_error.1 hx with hx | ⟨y, hy, hx⟩
  · exact hm x hx
  · exact h y hy x hx

/-- A sequence whose first part succeeds. -/
theorem Attempt.FaultFree.bind_ok {α β : Type} {m : Attempt α} {f : α → Attempt β} {x : α} (hm : m = .ok x)
    (h : Attempt.FaultFree (f x)) : Attempt.FaultFree (m >>= f) := by
  rw [Attempt.bind_of_ok hm]
  exact h

theorem Attempt.FaultFree.ite {α : Type} {p : Prop} [Decidable p] {a b : Attempt α} (ha : a.FaultFree)
    (hb : b.FaultFree) : Attempt.FaultFree (if p then a else b) := by
  split
  · exact ha
  · exact hb

theorem require_err_faultFree (b : Bool) (c : ErrCode) : Attempt.FaultFree (require b (.err c)) :=
  fun f h => by cases (require_eq_error.1 h).2

theorem require_refuse_faultFree (b : Bool) (r : RefuseReason) : Attempt.FaultFree (require b (.refuse r)) :=
  fun f h => by cases (require_eq_error.1 h).2

/-! ### Operands and registers -/

theorem checkFloat_faultFree (p : Params) (v : Value) : (checkFloat p v).FaultFree :=
  .bind (require_refuse_faultFree _ _) fun _ _ => require_err_faultFree _ _

theorem floatExp_faultFree (v : Value) : (floatExp v).FaultFree := by
  unfold floatExp
  split
  · exact .ok _
  · exact .err _

theorem State.iaddr_faultFree (s : State) : s.iaddr.FaultFree :=
  .ite (.bind (checkFloat_faultFree _ _) fun _ _ => .ok _) (.ok _)

theorem State.labelFromI_faultFree (s : State) : s.labelFromI.FaultFree :=
  .ite (.bind (checkFloat_faultFree _ _) fun _ _ => .bind (require_err_faultFree _ _) fun _ _ => .ok _)
    (.bind (require_err_faultFree _ _) fun _ _ => .ok _)

theorem State.checkReg_faultFree (s : State) (i : Option Nat) : (s.checkReg i).FaultFree := by
  rcases s.checkReg_cases i with ⟨n, -, -, h⟩ | h <;> rw [h]
  · exact .ok n
  · exact .err _

theorem State.slotWrite_faultFree {s : State} {n : Nat} (hn : n < s.regCount) (v : Nat) :
    (s.slotWrite n v).FaultFree := by
  rw [State.slotWrite_ok hn]
  exact .ok _

theorem readRegister_faultFree (s : State) (i : Option Nat) : (readRegister s i).FaultFree :=
  .bind (s.checkReg_faultFree i) fun _ hn => .bind_ok (State.slotRead_ok (State.checkReg_lt hn))
    (.ite (.bind (checkFloat_faultFree _ _) fun _ _ => .ok _) (.ok _))

theorem writeRegister_faultFree (s : State) (i : Option Nat) : (writeRegister s i).FaultFree :=
  .bind (s.checkReg_faultFree i) fun _ hn => .bind (State.slotWrite_faultFree (State.checkReg_lt hn) _) fun _ _ => .ok _

/-! ### Lines of a sound program -/

/-- Every line of a sound program, and the one after its last, has an address, at most `P` (R231). -/
theorem State.ProgramOk.lineAddr_le {s : State} (hp : s.ProgramOk) {l : Nat} (hl : l ≤ s.lines + 1) :
    ∃ a, s.lineAddr l = .ok a ∧ a ≤ s.progSize := by
  obtain ⟨a, x, -, -, ha, hle, -⟩ := hp.split (n := l - 1) (by omega)
  exact ⟨a, ha, hle⟩

/-- A line put in where the program with it fits. -/
theorem insertAt_faultFree {s : State} {a : Nat} {bs : List Byte} (ha : a ≤ s.progSize)
    (hfit : s.progSize + storedSize bs ≤ arenaSize) : (insertAt s a bs).FaultFree := by
  obtain ⟨m, hm, -⟩ := insertBytes_get (m := s.arena) (bs := bs) ha hfit
  exact .bind_ok hm (.ok _)

section
variable {s : State} (hp : s.ProgramOk)
include hp

theorem insertLine_faultFree (opc : Opcode) : (insertLine opc s).FaultFree := by
  obtain ⟨a, ha, hle⟩ := hp.lineAddr_le s.insertPoint_cases.2.1
  refine .bind (require_refuse_faultFree _ _) fun _ _ => .bind (require_err_faultFree _ _) fun _ hfit =>
    .bind_ok ha (.bind (insertAt_faultFree hle ?_) fun _ _ => .ok _)
  exact of_decide_eq_true (require_eq_ok.1 hfit)

theorem deleteLine_faultFree : (deleteLine s).FaultFree := by
  refine .bind (require_err_faultFree _ _) fun _ hreq => .bind_ok (requireArena_ok hp.size_le) ?_
  have hlc : s.lines ≠ 0 ∧ s.cur ≠ 0 := by simpa [require_eq_ok] using hreq
  have hpt : s.deletePoint ≤ s.lines + 1 := by
    have := State.deletePoint_cases hlc.1 hlc.2
    omega
  obtain ⟨a, ha, -⟩ := hp.lineAddr_le hpt
  obtain ⟨b, hb, -⟩ := hp.lineAddr_le (l := min s.deletePoint s.lines) (by omega)
  exact .bind_ok ha (.bind_ok hb (.ok _))

/-- The scan reads lines of the program only (R266). -/
theorem scanFrom_faultFree (h0 : s.lines ≠ 0) (lbl : Label) (n k : Nat) : (scanFrom s lbl n k).FaultFree := by
  induction n generalizing k with
  | zero => exact .err _
  | succ n ih =>
    obtain ⟨h1, hl⟩ := State.candidate_range h0 k
    obtain ⟨a, -, hop⟩ := hp.opcode h1 hl
    exact .bind_ok hop (.ite (.ok _) (ih (k + 1)))

theorem State.jump_faultFree (lbl : Label) : (s.jump lbl).FaultFree := by
  refine .bind ?_ fun _ _ => .ok _
  unfold State.scan
  split
  · exact .err _
  · exact scanFrom_faultFree hp ‹_› lbl _ 0

end

/-! ### Ends without a fault -/

/-- The command does not end in a fault. -/
def Ending.FaultFree (e : Ending) : Prop := ∀ f, e ≠ .fault f

theorem Ending.FaultFree.ok (t : State) : (Ending.ok t).FaultFree := nofun

theorem Ending.FaultFree.of {a : Attempt State} (h : a.FaultFree) (k : State) : (Ending.of k a).FaultFree :=
  fun f hf => h f (Ending.of_eq_fault.1 hf)

theorem Ending.FaultFree.restoreCache {e : Ending} (h : e.FaultFree) (k : LineCache) :
    (e.restoreCache k).FaultFree := by
  cases e with
  | fault f => exact absurd rfl (h f)
  | ok | err | refuse => nofun

theorem returnCall_faultFree (s : State) : (returnCall s).FaultFree := by
  obtain ⟨t, ht⟩ := returnCall_cases s
  rw [ht]
  exact .ok t

section
variable {s : State} (hp : s.ProgramOk)
include hp

/-- The push writes nothing of the program. -/
theorem State.ProgramOk.pushCall : s.pushCall.ProgramOk := by
  obtain ⟨rs, rsp, h⟩ := s.pushCall_frame
  rw [h]
  exact hp

theorem gotoTarget_faultFree {target : State → Attempt Label} (ht : (target s).FaultFree) :
    (gotoTarget target s).FaultFree :=
  .of (.bind ht fun n _ => State.jump_faultFree hp n) s

theorem gosubTarget_faultFree {target : State → Attempt Label} (ht : (target s.pushCall).FaultFree) :
    (gosubTarget target s).FaultFree := by
  by_cases hf : s.rsp = s.params.cap - 1
  · rw [gosubTarget_full hf]
    nofun
  · rw [gosubTarget_push hf]
    exact gotoTarget_faultFree hp.pushCall ht

theorem runLine_faultFree (op : Opcode) : (runLine op s).FaultFree := by
  unfold runLine
  split
  · exact .ok s
  · exact gotoTarget_faultFree hp (.ok _)
  · exact gosubTarget_faultFree hp (.ok _)
  · exact gotoTarget_faultFree hp s.labelFromI_faultFree
  · exact gosubTarget_faultFree hp s.pushCall.labelFromI_faultFree
  · exact returnCall_faultFree s
  · split <;> exact .ok _

/-- RUNSTEP fetches a line of the program, wherever the cursor was (R260, R272). -/
theorem runStep_faultFree : (runStep s).FaultFree := by
  by_cases hz : s.inc s.cur = 0
  · rw [runStep_phantom hz]
    exact returnCall_faultFree _
  · obtain ⟨a, -, hop⟩ := hp.opcode (Nat.one_le_iff_ne_zero.2 hz) (s.inc_le s.cur)
    rw [runStep_line hz hop]
    exact (runLine_faultFree (s := (s.setCur (s.inc s.cur)).touch (s.inc s.cur)) hp _).restoreCache _

end

theorem stepX_faultFree (k : Int) (s : State) : (stepX k s).FaultFree :=
  .of (.ite (.bind (checkFloat_faultFree _ _) fun _ _ => .ok _) (.ok _)) s

theorem stepIndex_faultFree (k : Int) (s : State) : (stepIndex k s).FaultFree :=
  .of (.ite (.bind (checkFloat_faultFree _ _) fun _ _ => .ok _) (.ok _)) s

theorem stepIndirect_faultFree (k : Int) (s : State) : (stepIndirect k s).FaultFree :=
  .of (.bind s.iaddr_faultFree fun i _ => .bind (s.checkReg_faultFree i) fun _ hn =>
    have hlt := State.checkReg_lt hn
    .bind_ok (State.slotRead_ok hlt)
      (.ite (.bind (checkFloat_faultFree _ _) fun _ _ => .bind (State.slotWrite_faultFree hlt _) fun _ _ => .ok _)
        (.bind (State.slotWrite_faultFree hlt _) fun _ _ => .ok _))) s

/-! ### Every instruction -/

/-- A command answers a next state where its effect does not fault. -/
theorem perform_answers {f : State → Ending} {s : State} (h : (f (s.setOut Outputs.absent)).FaultFree) :
    ∃ t, perform f s = .next t := by
  cases hr : perform f s with
  | next t => exact ⟨t, rfl⟩
  | fault x => exact absurd (perform_fault.1 hr) (h x)
  | refused x => exact absurd hr (perform_not_refused f s x)

/-- A command whose checks come before its writes. -/
theorem perform_attempt_answers {a : State → Attempt State} {s : State}
    (h : (a (s.setOut Outputs.absent)).FaultFree) : ∃ t, perform (fun s => Ending.of s (a s)) s = .next t :=
  perform_answers (.of h _)

/-- A command without a check. -/
theorem perform_ok_answers {f : State → State} {s : State} : ∃ t, perform (fun s => .ok (f s)) s = .next t :=
  perform_answers (.ok _)

/-- Where the stored program is sound every instruction answers a next state, with the cursor anywhere. -/
theorem exec_answers (i : Instr) {s : State} (hs : s.ProgramOk) : ∃ t, exec i s = .next t := by
  have hp : (s.setOut Outputs.absent).ProgramOk := hs
  cases i with dsimp only [exec]
  | add | sub | store | toint =>
    exact perform_attempt_answers (.bind (require_refuse_faultFree _ _) fun _ _ => .ok _)
  | neg | isz => exact perform_attempt_answers (.ite (.bind (checkFloat_faultFree _ _) fun _ _ => .ok _) (.ok _))
  | cmp =>
    exact perform_attempt_answers (.ite (.bind (checkFloat_faultFree _ _) fun _ _ =>
      .bind (checkFloat_faultFree _ _) fun _ _ => .ok _) (.ok _))
  | fdec | fchk => exact perform_attempt_answers (.bind (checkFloat_faultFree _ _) fun _ _ => .ok _)
  | fexp => exact perform_attempt_answers (.bind (floatExp_faultFree _) fun _ _ => .ok _)
  | setws w =>
    exact perform_attempt_answers (.bind (require_refuse_faultFree _ _) fun _ _ =>
      .bind (require_err_faultFree _ _) fun _ _ => .ok _)
  | inc => exact perform_answers (stepX_faultFree 1 _)
  | dec => exact perform_answers (stepX_faultFree (-1) _)
  | trunc | setmode _ | wflag _ _ | skipflag _ | fenc | ri | wi | clrreg | step | skipif _ | run | lblN _ | opPM1 _
  | opPM2 _ => exact perform_ok_answers
  | rreg idx => exact perform_attempt_answers (readRegister_faultFree _ _)
  | rregI => exact perform_attempt_answers (.bind (State.iaddr_faultFree _) fun _ _ => readRegister_faultFree _ _)
  | wreg idx => exact perform_attempt_answers (writeRegister_faultFree _ _)
  | wregI => exact perform_attempt_answers (.bind (State.iaddr_faultFree _) fun _ _ => writeRegister_faultFree _ _)
  | iszi => exact perform_answers (stepIndex_faultFree 1 _)
  | dszi => exact perform_answers (stepIndex_faultFree (-1) _)
  | iszind => exact perform_answers (stepIndirect_faultFree 1 _)
  | dszind => exact perform_answers (stepIndirect_faultFree (-1) _)
  | preset => exact perform_attempt_answers (.bind_ok (requireArena_ok hp.size_le) (.ok _))
  | insert opc => exact perform_attempt_answers (insertLine_faultFree hp opc)
  | delete => exact perform_attempt_answers (deleteLine_faultFree hp)
  | setline n => exact perform_attempt_answers (.bind (require_err_faultFree _ _) fun _ _ => .ok _)
  | readline n =>
    refine perform_attempt_answers (.bind (require_err_faultFree _ _) fun _ hn => ?_)
    have hline := of_decide_eq_true (require_eq_ok.1 hn)
    obtain ⟨a, -, hop⟩ := hp.opcode hline.1 hline.2
    exact .bind_ok hop (.ok _)
  | goto _ | gtoN _ => exact perform_answers (gotoTarget_faultFree hp (.ok _))
  | gotoI | gtoStoredI => exact perform_answers (gotoTarget_faultFree hp (State.labelFromI_faultFree _))
  | gosub _ | gsbN _ => exact perform_answers (gosubTarget_faultFree hp (.ok _))
  | gosubI | gsbStoredI => exact perform_answers (gosubTarget_faultFree hp (State.labelFromI_faultFree _))
  | rtn | rtnStored => exact perform_answers (returnCall_faultFree _)
  | runstep => exact perform_answers (runStep_faultFree hp)

/-- Settles O12: a step idles, loads, saves or refuses without a check, and the command it runs answers a next state
where the stored program is sound. -/
theorem everyStepEnds : Obligations.EveryStepEnds := by
  unfold Obligations.EveryStepEnds
  rintro s ⟨-, hprog, -⟩
  cases hp : s.pending with
  | nil => exact ⟨_, by rw [step, hp]⟩
  | cons op rest =>
    cases op with
    | load img => exact ⟨_, step_load hp⟩
    | save => exact ⟨_, step_save hp⟩
    | command p =>
      rw [step_command hp, stepCommand]
      split
      · exact exec_answers _ hprog
      · exact ⟨_, rfl⟩

/-! ### Reset -/

/-- Settles O8: each row of the table of R330, as the reset state has it. -/
theorem resetValues : Obligations.ResetValues := by
  unfold Obligations.ResetValues
  exact ⟨rfl, rfl, rfl, rfl, fun _ => rfl, rfl, rfl, rfl, rfl, rfl, rfl, rfl, rfl⟩

/-- Settles O9: emptying the program of the reset state, whose arena is empty, changes nothing in it, and an emptied
program meets the invariant. -/
theorem resetMeetsInvariant : Obligations.ResetMeetsInvariant := by
  unfold Obligations.ResetMeetsInvariant
  have hclear : State.reset.clearProgram = State.reset := rfl
  rw [← hclear]
  exact State.clearProgram_inv (by decide) (by decide) rfl

end Sys2Proof.Machine
end
